-- ==== Sys2Proof/Word.lean ====
section
/-! DEFINITION. The word types of the block: what the spec sees as words of bits. -/

namespace Sys2Proof

/-- A command word or a response word: 64 bits (30_encoding.md R90, R94). -/
abbrev Word64 := BitVec 64

/-- A 32-bit register, a table entry, the operand ARG and the VALUE of a response (00_scope.md R7, R10). -/
abbrev Word32 := BitVec 32

/-- An opcode or an error code: 8 bits (30_encoding.md R90, R94). -/
abbrev Byte := BitVec 8

/-- One bit of a bit stream, `true` for 1 (00_scope.md R11; 20_memory.md R65). -/
abbrev Bit := Bool

end Sys2Proof
end

