-- ==== Sys2Proof/Config.lean ====
section
/-! DEFINITION. What is fixed for one instance of the block: the elaboration-time parameters of
00_scope.md R7. The spec has no free value (45_properties.md R195), so nothing here is opaque. -/

namespace Sys2Proof

/-- The open parameters of an instance (00_scope.md R7; 93_implementation_defined.md U16). They are
data, so that every legal choice is modelled and a claim holds for all of them (log 3). -/
structure Params where
  /-- Physical width of the `low`, `high`, `code` registers, largest legal state width N. -/
  nmax : Nat
  /-- Capacity of the frequency table in symbols. -/
  amax : Nat
  /-- Width of the pending-bits counter. -/
  pbw : Nat
  deriving DecidableEq, Repr

namespace Config

/-- Width of each CNT and CUM entry and of TOTAL, fixed (00_scope.md R7). -/
def CW : Nat := 32

/-- The defaults of 00_scope.md R7: NMAX 32, AMAX 256, PBW 32. -/
def defaults : Params := { nmax := 32, amax := 256, pbw := 32 }

end Config

/-- The legal ranges of 00_scope.md R7. -/
def Params.legal (p : Params) : Bool :=
  decide (1 ≤ p.nmax ∧ p.nmax ≤ 32 ∧ 1 ≤ p.amax ∧ p.amax ≤ 2 ^ 24 - 1 ∧ 1 ≤ p.pbw ∧ p.pbw ≤ 32)

/-- `PMAX = 2^PBW - 1`, the largest pending count (00_scope.md R7, 10_state.md R31). -/
def Params.pmax (p : Params) : Nat := 2 ^ p.pbw - 1

end Sys2Proof
end

