-- ==== Sys2Proof/Syntax.lean ====
section
/-! DEFINITION. The fourteen commands of 30_encoding.md R96, one constructor per row of the opcode
table. A format-A command carries its operand ARG, a 32-bit natural taken as is (R92). -/

namespace Sys2Proof

/-- A command (30_encoding.md R96). -/
inductive Instr where
  /-- `SYS.RESET` (44_sys.md R181). -/
  | sysReset
  /-- `SYS.RDREG r` (44_sys.md R182). -/
  | sysRdreg (r : Word32)
  /-- `FM.CLEAR` (40_fm.md R111). -/
  | fmClear
  /-- `FM.PUSH c` (40_fm.md R112). -/
  | fmPush (c : Word32)
  /-- `FM.SEAL` (40_fm.md R113). -/
  | fmSeal
  /-- `FM.NSYM` (40_fm.md R114). -/
  | fmNsym
  /-- `FM.LOW s` (40_fm.md R115). -/
  | fmLow (s : Word32)
  /-- `FM.HIGH s` (40_fm.md R116). -/
  | fmHigh (s : Word32)
  /-- `FM.TOTAL` (40_fm.md R117). -/
  | fmTotal
  /-- `ENC.INIT n` (42_enc.md R151). -/
  | encInit (n : Word32)
  /-- `ENC.WRITE s` (42_enc.md R152). -/
  | encWrite (s : Word32)
  /-- `ENC.FINISH` (42_enc.md R154). -/
  | encFinish
  /-- `DEC.INIT n` (43_dec.md R166). -/
  | decInit (n : Word32)
  /-- `DEC.READ` (43_dec.md R167). -/
  | decRead
  deriving DecidableEq, Repr

/-- The two formats of 30_encoding.md R91: `Z`, no operand and ARG must be 0; `A`, one operand. -/
inductive Format where
  | Z
  | A
  deriving DecidableEq, Repr

/-- Why a word is illegal (30_encoding.md R97). -/
inductive Illegal where
  /-- RSV, bits 55:32, is not 0. -/
  | reservedField
  /-- OPC is none of the fourteen opcodes. -/
  | unassignedOpcode
  /-- ARG is not 0 on a format-Z opcode. -/
  | operandInFormatZ
  deriving DecidableEq, Repr

/-- What a 64-bit word is: exactly one command, or illegal (30_encoding.md R93). -/
inductive Decoded where
  | command (i : Instr)
  | illegal (why : Illegal)
  deriving DecidableEq, Repr

end Sys2Proof
end

