-- ==== Sys2Proof/Decode.lean ====
section
/-! DEFINITION. The command word: its fields, the decoder (total, reading no state, rejecting by
name), and after it the encoder, both from the tables of 30_encoding.md R90, R91, R96. -/

namespace Sys2Proof

/-- `OPC = w[63:56]` (30_encoding.md R93). -/
def opcField (w : Word64) : Byte := w.extractLsb' 56 8

/-- `RSV = w[55:32]` (30_encoding.md R93). -/
def rsvField (w : Word64) : BitVec 24 := w.extractLsb' 32 24

/-- `ARG = w[31:0]` (30_encoding.md R93). -/
def argField (w : Word64) : Word32 := w.extractLsb' 0 32

/-- A format-Z word: ARG must be 0 (30_encoding.md R91). -/
def formatZ (w : Word64) (i : Instr) : Decoded :=
  if argField w = 0#32 then .command i else .illegal .operandInFormatZ

/-- A format-A word: ARG is the operand, taken as is (30_encoding.md R91, R92). -/
def formatA (w : Word64) (i : Word32 → Instr) : Decoded := .command (i (argField w))

/-- The decoder (30_encoding.md R93, R96, R97). -/
def decode (w : Word64) : Decoded :=
  if rsvField w = 0#24 then
    match (opcField w).toNat with
    | 0x01 => formatZ w .sysReset
    | 0x02 => formatA w .sysRdreg
    | 0x10 => formatZ w .fmClear
    | 0x11 => formatA w .fmPush
    | 0x12 => formatZ w .fmSeal
    | 0x13 => formatZ w .fmNsym
    | 0x14 => formatA w .fmLow
    | 0x15 => formatA w .fmHigh
    | 0x16 => formatZ w .fmTotal
    | 0x20 => formatA w .encInit
    | 0x21 => formatA w .encWrite
    | 0x22 => formatZ w .encFinish
    | 0x30 => formatA w .decInit
    | 0x31 => formatZ w .decRead
    | _ => .illegal .unassignedOpcode
  else .illegal .reservedField

/-- The opcode of a command (30_encoding.md R96). -/
def Instr.opcode : Instr → Byte
  | .sysReset => 0x01#8
  | .sysRdreg _ => 0x02#8
  | .fmClear => 0x10#8
  | .fmPush _ => 0x11#8
  | .fmSeal => 0x12#8
  | .fmNsym => 0x13#8
  | .fmLow _ => 0x14#8
  | .fmHigh _ => 0x15#8
  | .fmTotal => 0x16#8
  | .encInit _ => 0x20#8
  | .encWrite _ => 0x21#8
  | .encFinish => 0x22#8
  | .decInit _ => 0x30#8
  | .decRead => 0x31#8

/-- The format of a command (30_encoding.md R96). -/
def Instr.format : Instr → Format
  | .sysReset | .fmClear | .fmSeal | .fmNsym | .fmTotal | .encFinish | .decRead => .Z
  | .sysRdreg _ | .fmPush _ | .fmLow _ | .fmHigh _ | .encInit _ | .encWrite _ | .decInit _ => .A

/-- The operand of a command, 0 for format Z (30_encoding.md R91, R92). -/
def Instr.arg : Instr → Word32
  | .sysReset | .fmClear | .fmSeal | .fmNsym | .fmTotal | .encFinish | .decRead => 0#32
  | .sysRdreg a | .fmPush a | .fmLow a | .fmHigh a | .encInit a | .encWrite a | .decInit a => a

/-- The encoder: OPC, then 24 zeros, then ARG (30_encoding.md R90, R100). -/
def encode (i : Instr) : Word64 := (i.opcode ++ (0#24 ++ i.arg) : BitVec (8 + (24 + 32)))

/-- The instruction the decoder reads from a table row's word: one 64-bit word, bit 0 its least
significant bit, the bits above `nbits` zero (30_encoding.md R90, R99). -/
def decodeTableWord (nbits w : Nat) : Option Instr :=
  match decode (BitVec.ofNat 64 (w % 2 ^ nbits)) with
  | .command i => some i
  | .illegal _ => none

end Sys2Proof
end

