-- ==== Sys2Proof/Machine/State.lean ====
section
/-! DEFINITION. The state of one block and of the host side it works with (10_state.md R20 to R52),
what a step may stop with, and the state after reset (R51). -/

namespace Sys2Proof.Machine

/-- A table space of the FMU: (index, entry) pairs with strictly rising indices. An index that is not
listed holds no value (20_memory.md R60, R61, R63; log 4). -/
abbrev Memory := List (Nat × Word32)

/-- The two table spaces (20_memory.md R60, R61). -/
inductive TableSpace where
  | cnt
  | cum
  deriving DecidableEq, Repr

/-- `FM_PHASE` (10_state.md R26); value 3 never occurs and has no constructor (log 12). -/
inductive FmPhase where
  | empty
  | building
  | sealed
  deriving DecidableEq, Repr

/-- `E_PHASE` (10_state.md R34); value 3 never occurs and has no constructor (log 12). -/
inductive EncPhase where
  | idle
  | active
  | done
  deriving DecidableEq, Repr

/-- `D_PHASE` (10_state.md R40). -/
inductive DecPhase where
  | idle
  | active
  deriving DecidableEq, Repr

/-- The FMU (10_state.md R22 to R26). -/
structure Fmu where
  /-- `CNT`, the counts (R22). -/
  cnt : Memory
  /-- `CUM`, the prefix sums (R23). -/
  cum : Memory
  /-- `NSYM`, the alphabet size (R24). -/
  nsym : Word32
  /-- `TOTAL`, the sum of the counts (R25). -/
  total : Word32
  /-- `FM_PHASE` (R26). -/
  phase : FmPhase
  deriving DecidableEq, Repr

/-- The encoder (10_state.md R28 to R31, R34). -/
structure Enc where
  /-- `E_NBITS`, the state width N (R28). -/
  nbits : BitVec 6
  /-- `E_LOW` (R29). -/
  low : Word32
  /-- `E_HIGH` (R30). -/
  high : Word32
  /-- `E_PEND`, the pending bits (R31). -/
  pend : Word32
  /-- `E_PHASE` (R34). -/
  phase : EncPhase
  deriving DecidableEq, Repr

/-- The decoder (10_state.md R35 to R38, R40). -/
structure Dec where
  /-- `D_NBITS`, the state width N (R35). -/
  nbits : BitVec 6
  /-- `D_LOW` (R36). -/
  low : Word32
  /-- `D_HIGH` (R37). -/
  high : Word32
  /-- `D_CODE`, the window into the bit stream (R38). -/
  code : Word32
  /-- `D_PHASE` (R40). -/
  phase : DecPhase
  deriving DecidableEq, Repr

/-- The fault registers (10_state.md R41 to R44). -/
structure FaultRegs where
  /-- `FAULT`, the latch (R41). -/
  fault : Bool
  /-- `ERRCODE`, the code of the error that set FAULT (R42). -/
  errcode : Byte
  /-- `ERROPC`, bits 63:56 of the word that set FAULT (R43). -/
  erropc : Byte
  /-- `ERRARG`, bits 31:0 of the word that set FAULT (R44). -/
  errarg : Word32
  deriving DecidableEq, Repr

/-- What the host may do next, in order (log 1, log 9, log 10). -/
inductive HostEvent where
  /-- Present a word on the command port (30_encoding.md R102). -/
  | command (w : Word64)
  /-- Pull the hardware reset, between two commands (70_reset_and_hazards.md R240). -/
  | hardwareReset
  /-- Append bits to the source (20_memory.md R68). -/
  | supplyBits (bits : List Bit)
  /-- Put a new stream at the source, position 0 (45_properties.md R190; 70_reset_and_hazards.md R251). -/
  | replaceSource (bits : List Bit)
  /-- Empty the sink (20_memory.md R66). -/
  | emptySink
  deriving DecidableEq, Repr

/-- One block (`params` to `flt`) and the host side beside it (10_state.md R20, R50). -/
structure State where
  /-- The parameters of the instance, written by nothing (00_scope.md R7; log 3). -/
  params : Params
  /-- The FMU state. -/
  fmu : Fmu
  /-- The ENC state. -/
  enc : Enc
  /-- The DEC state. -/
  dec : Dec
  /-- The fault state. -/
  flt : FaultRegs
  /-- What the host does next, oldest first (log 1). -/
  inbox : List HostEvent
  /-- The responses placed on RSP so far, oldest first (30_encoding.md R102; log 8). -/
  rsps : List Word64
  /-- `OUT`, the bits emitted since the host last emptied the sink (20_memory.md R66). -/
  out : List Bit
  /-- `IN`, the bits the source holds (20_memory.md R68). -/
  inp : List Bit
  /-- `IN_POS`, how many bits have been taken (20_memory.md R68). -/
  inPos : Nat
  deriving DecidableEq, Repr

/-- Where the MODEL stops though the block would not be there at all: both reasons are raised only in
states no run from reset reaches, and are safe (log 4, log 5). The block's own errors are no faults
of the model: they are next states with FAULT set (60_exceptions.md R225). -/
inductive Fault where
  /-- A read of a table entry that was never written or does not exist, raised by FM.LOW, FM.HIGH,
  ENC.WRITE and DEC.READ; 20_memory.md R63 says no command ever makes one. Safe (log 4). -/
  | tableEntryEmpty (space : TableSpace)
  /-- A renormalisation loop not at class S after N iterations, raised by ENC.WRITE and DEC.READ;
  41_coder_core.md R143 says it never happens. Safe (log 5). -/
  | renormNoStop
  deriving DecidableEq, Repr

/-- What has no meaning in the model. Nothing raises it: every command is modelled. -/
inductive Refusal where
  /-- A command of the table with no meaning yet, by its mnemonic. Safe. -/
  | notModelled (mnemonic : String)
  deriving DecidableEq, Repr

/-- The FMU after reset: EMPTY, no symbols, `CUM[0] = 0`, every other entry unspecified (10_state.md R51). -/
def Fmu.reset : Fmu := { cnt := [], cum := [(0, 0#32)], nsym := 0#32, total := 0#32, phase := .empty }

/-- The encoder after reset (10_state.md R51). -/
def Enc.reset : Enc := { nbits := 0#6, low := 0#32, high := 0#32, pend := 0#32, phase := .idle }

/-- The decoder after reset (10_state.md R51). -/
def Dec.reset : Dec := { nbits := 0#6, low := 0#32, high := 0#32, code := 0#32, phase := .idle }

/-- The fault registers after reset (10_state.md R51). -/
def FaultRegs.reset : FaultRegs := { fault := false, errcode := 0#8, erropc := 0#8, errarg := 0#32 }

/-- The state after reset of an instance with the given parameters, the host side empty (10_state.md
R51; log 8). -/
def State.resetWith (p : Params) : State :=
  { params := p, fmu := .reset, enc := .reset, dec := .reset, flt := .reset,
    inbox := [], rsps := [], out := [], inp := [], inPos := 0 }

/-- The state after reset of the default instance (10_state.md R51; 00_scope.md R7). -/
def State.reset : State := .resetWith Config.defaults

end Sys2Proof.Machine
end

