-- ==== Sys2Proof/Machine/Ops.lean ====
section
/-! DEFINITION. The named operations every command shares: table memory, bit streams, register
writes, responses, fault entry (TAKING AN EXCEPTION) and the reset that is its only way back, and
the host's own acts. -/

namespace Sys2Proof.Machine

/-! ## Table memory (00_scope.md R14; 20_memory.md R60, R61) -/

/-- The indices of a table are strictly rising from `lo` on. -/
def Memory.risingFrom (lo : Nat) : Memory → Bool
  | [] => true
  | (j, _) :: m => decide (lo ≤ j) && Memory.risingFrom (j + 1) m

/-- The canonical form of a table: indices strictly rising. An unlisted entry holds no value, so no
listed one could repeat it (log 4). -/
def Memory.wf (m : Memory) : Bool := Memory.risingFrom 0 m

/-- `MemRead` of one table; `none` where nothing was ever written (00_scope.md R14; log 4). -/
def memRead : Memory → Nat → Option Word32
  | [], _ => none
  | (j, v) :: m, i => if i = j then some v else memRead m i

/-- `MemWrite` of one table, keeping the canonical form (00_scope.md R14). -/
def memWrite : Memory → Nat → Word32 → Memory
  | [], i, v => [(i, v)]
  | (j, u) :: m, i, v =>
    if i < j then (i, v) :: (j, u) :: m
    else if i = j then (i, v) :: m
    else (j, u) :: memWrite m i v

/-! ## Bit streams (00_scope.md R15; 20_memory.md R66, R68) -/

/-- `SinkPut` of each bit of `bits` in order (20_memory.md R66). -/
def sinkPut (bits : List Bit) (s : State) : State := { s with out := s.out ++ bits }

/-- The bit `SrcGet` answers at position `pos`: `IN[pos]`, 0 past the end (20_memory.md R68, R69). -/
def srcBit (inp : List Bit) (pos : Nat) : Bit := inp.getD pos false

/-! ## Registers (10_state.md R21) -/

/-- What a register of `width` bits (at most 32) holds once `v` is written to it. No command writes a
value that does not fit (41_coder_core.md R139; log 6). -/
def regOf (width v : Nat) : Word32 := BitVec.ofNat 32 (v % 2 ^ width)

/-! ## Responses and errors (30_encoding.md R94; 60_exceptions.md R211) -/

/-- The response codes (60_exceptions.md R211). -/
inductive Code where
  | ok
  | illegalCmd
  | config
  | zeroTotal
  | symbolRange
  | zeroFreq
  | totalRange
  | phase
  | tableFull
  | countOvf
  | pendingOvf
  | faulted
  | badReg
  deriving DecidableEq, Repr

/-- The number of a response code (60_exceptions.md R211). -/
def Code.byte : Code → Byte
  | .ok => 0x00#8
  | .illegalCmd => 0x01#8
  | .config => 0x02#8
  | .zeroTotal => 0x03#8
  | .symbolRange => 0x04#8
  | .zeroFreq => 0x05#8
  | .totalRange => 0x06#8
  | .phase => 0x07#8
  | .tableFull => 0x08#8
  | .countOvf => 0x09#8
  | .pendingOvf => 0x0A#8
  | .faulted => 0x0B#8
  | .badReg => 0x0C#8

/-- The response word: CODE, 24 zeros, VALUE (30_encoding.md R94). -/
def responseWord (code : Byte) (value : Word32) : Word64 := (code ++ (0#24 ++ value) : BitVec (8 + (24 + 32)))

/-- `respond(code, value)`: the response goes on RSP behind all earlier ones (00_scope.md R16; 30_encoding.md R102). -/
def respond (code : Code) (value : Word32) (s : State) : State :=
  { s with rsps := s.rsps ++ [responseWord code.byte value] }

/-- A command that ends well answers OK with its value (30_encoding.md R94). -/
def answer (value : Word32) (s : State) : Host.Outcome State Fault Refusal := .next (respond .ok value s)

/-- The fault registers once error `e` of command word `w` is recorded (60_exceptions.md R225). -/
def faultRegsOf (e : Code) (w : Word64) : FaultRegs :=
  { fault := true, errcode := e.byte, erropc := opcField w, errarg := argField w }

/-- Fault entry, TAKING AN EXCEPTION: FAULT, ERRCODE, ERROPC, ERRARG are written, the error is answered
with VALUE 0, and nothing else changes (60_exceptions.md R225, R226). -/
def faultEntry (e : Code) (w : Word64) (s : State) : State := respond e 0#32 { s with flt := faultRegsOf e w }

/-- `raise e` by the command word `w` (00_scope.md R16). -/
def raise (e : Code) (w : Word64) (s : State) : Host.Outcome State Fault Refusal := .next (faultEntry e w s)

/-- The first global check: while FAULT = 1 the command is refused with ERR_FAULTED and the recorded
error stays (60_exceptions.md R222, R227, R228, R230). -/
def unlessFaulted (s : State) (run : Host.Outcome State Fault Refusal) : Host.Outcome State Fault Refusal :=
  if s.flt.fault then .next (respond .faulted 0#32 s) else run

/-- A word that is not well formed (30_encoding.md R97; 60_exceptions.md R212, R228). -/
def illegalCommand (w : Word64) (s : State) : Host.Outcome State Fault Refusal :=
  unlessFaulted s (raise .illegalCmd w s)

/-- The reset of the block, the only way out of the faulted condition: every register to its reset
value and `CUM[0]` to 0; the other table entries, the streams and the responses stay (44_sys.md R181;
60_exceptions.md R229; 70_reset_and_hazards.md R240, R242). -/
def resetBlock (s : State) : State :=
  { s with
    fmu := { s.fmu with
      cum := memWrite s.fmu.cum 0 0#32, nsym := 0#32, total := 0#32, phase := .empty }
    enc := Enc.reset
    dec := Dec.reset
    flt := FaultRegs.reset }

/-- The level output `fault`, equal to the FAULT latch at all times (60_exceptions.md R231). -/
def State.faultPin (s : State) : Bool := s.flt.fault

/-! ## The host's own acts -/

/-- Take the event at the head of the inbox away, leaving `rest` (log 1). -/
def takeEvent (rest : List HostEvent) (s : State) : State := { s with inbox := rest }

/-- The hardware reset: the effect of SYS.RESET on state, and no response (70_reset_and_hazards.md R240). -/
def hardwareReset (s : State) : Host.Outcome State Fault Refusal := .next (resetBlock s)

/-- The host appends bits to the source; positions already answered stay taken (20_memory.md R68). -/
def supplyBits (bits : List Bit) (s : State) : Host.Outcome State Fault Refusal :=
  .next { s with inp := s.inp ++ bits }

/-- The host puts a new stream at the source and starts at its first bit (45_properties.md R190;
70_reset_and_hazards.md R251; log 9). -/
def replaceSource (bits : List Bit) (s : State) : Host.Outcome State Fault Refusal :=
  .next { s with inp := bits, inPos := 0 }

/-- The host empties the sink (20_memory.md R66; log 9). -/
def emptySink (s : State) : Host.Outcome State Fault Refusal := .next { s with out := [] }

/-- No event is waiting: the block is idle and holds its state (60_exceptions.md R238; log 1). -/
def idle (s : State) : Host.Outcome State Fault Refusal := .next s

/-- The host presents `w` as the next command (30_encoding.md R102; log 2). -/
def presentFirst (w : Word64) (s : State) : State := { s with inbox := .command w :: s.inbox }

end Sys2Proof.Machine
end

