-- ==== Sys2Proof/Machine/Coder.lean ====
section
/-! DEFINITION. The coder core: the pure functions ENC and DEC share (41_coder_core.md), exact on
naturals (00_scope.md R11, R12), with the bit actions of the two units and the symbol search. -/

namespace Sys2Proof.Machine

/-! ## Constants of the state width (41_coder_core.md R130) -/

/-- `full_range = 2^N`. -/
def fullRange (N : Nat) : Nat := 2 ^ N

/-- `half_range = 2^(N-1)`. -/
def halfRange (N : Nat) : Nat := 2 ^ (N - 1)

/-- `quarter_range = 2^(N-2)` for N >= 2, and 0 for N = 1 (R131; log 7). -/
def quarterRange (N : Nat) : Nat := if 2 ≤ N then 2 ^ (N - 2) else 0

/-- `minimum_range = quarter_range + 2`. -/
def minimumRange (N : Nat) : Nat := quarterRange N + 2

/-- `state_mask = 2^N - 1`. -/
def stateMask (N : Nat) : Nat := 2 ^ N - 1

/-! ## Narrowing (41_coder_core.md R134) -/

/-- `Narrow`: the product first, then the division; both bounds from the old `low` and `range`. -/
def narrow (low high symlow symhigh total : Nat) : Nat × Nat :=
  let range := high - low + 1
  (low + range * symlow / total, low + range * symhigh / total - 1)

/-! ## Renormalisation (41_coder_core.md R135 to R137) -/

/-- The four outcomes of the renormalisation test (R135). -/
inductive RenormClass where
  | Z
  | O
  | U
  | S
  deriving DecidableEq, Repr

/-- `RenormClass`, the first test that holds (R135). -/
def renormClass (N low high : Nat) : RenormClass :=
  if high < halfRange N then .Z
  else if halfRange N ≤ low then .O
  else if quarterRange N ≤ low ∧ high < 3 * quarterRange N then .U
  else .S

/-- What a class subtracts before the shift (R136). -/
def RenormClass.sub (N : Nat) : RenormClass → Nat
  | .Z => 0
  | .O => halfRange N
  | .U => quarterRange N
  | .S => 0

/-- `ShiftLow`: the bit shifted in is 0 (R136). -/
def shiftLow (N : Nat) (c : RenormClass) (v : Nat) : Nat := ((v - c.sub N) <<< 1) &&& stateMask N

/-- `ShiftHigh`: the bit shifted in is 1 (R136). -/
def shiftHigh (N : Nat) (c : RenormClass) (v : Nat) : Nat := (((v - c.sub N) <<< 1) &&& stateMask N) ||| 1

/-- `ShiftCode`: the bit shifted in comes from the source (R136). -/
def shiftCode (N : Nat) (c : RenormClass) (v : Nat) (b : Bit) : Nat :=
  (((v - c.sub N) <<< 1) &&& stateMask N) ||| b.toNat

/-- How a renormalisation loop ends. -/
inductive LoopEnd (σ : Type) where
  /-- Class S: the bounds and what the bit actions have gathered. -/
  | stop (low high : Nat) (acc : σ)
  /-- A bit action refused: the pending counter is full (42_enc.md R152). -/
  | abort
  /-- Not at class S after the allowed iterations (R143 says this never happens; log 5). -/
  | stuck
  deriving DecidableEq, Repr

/-- The renormalisation loop, common shape (R137): stop at class S, else apply the class's bit action
and rescale the bounds. The iterations are counted down from the bound of R143 (log 5). -/
def renormLoop {σ : Type} (N : Nat) (act : RenormClass → σ → Option σ) : Nat → Nat → Nat → σ → LoopEnd σ
  | fuel, low, high, acc =>
    let c := renormClass N low high
    if c = .S then .stop low high acc
    else
      match fuel with
      | 0 => .stuck
      | fuel + 1 =>
        match act c acc with
        | none => .abort
        | some acc => renormLoop N act fuel (shiftLow N c low) (shiftHigh N c high) acc

/-! ## The encoder's bit action (42_enc.md R152, R153) -/

/-- `Emit`: the bit, then the pending complements; nothing is pending afterwards (R153). -/
def emit (out : List Bit) (pend : Nat) (b : Bit) : List Bit × Nat :=
  (out ++ [b] ++ List.replicate pend (!b), 0)

/-- Class Z emits 0, class O emits 1, class U defers one bit, refused when the counter is at PMAX (R152). -/
def encodeBit (pmax : Nat) : RenormClass → List Bit × Nat → Option (List Bit × Nat)
  | .Z, (out, pend) => some (emit out pend false)
  | .O, (out, pend) => some (emit out pend true)
  | .U, (out, pend) => if pend = pmax then none else some (out, pend + 1)
  | .S, acc => some acc

/-! ## The decoder's bit action (43_dec.md R166 to R168) -/

/-- Every class takes one source bit into `code`; the pair is `code` and the read position (R167). -/
def decodeBit (N : Nat) (inp : List Bit) : RenormClass → Nat × Nat → Option (Nat × Nat)
  | c, (code, pos) => some (shiftCode N c code (srcBit inp pos), pos + 1)

/-- Priming: `n` source bits into `code`, the first one most significant; `code` and position (R166). -/
def primeCode (inp : List Bit) : Nat → Nat → Nat → Nat × Nat
  | 0, code, pos => (code, pos)
  | n + 1, code, pos => primeCode inp n ((code <<< 1) ||| (srcBit inp pos).toNat) (pos + 1)

/-- `ScaledValue` (R168). -/
def scaledValue (low high code total : Nat) : Nat :=
  let range := high - low + 1
  let offset := code - low
  ((offset + 1) * total - 1) / range

/-- The binary search of 40_fm.md R120 over `[start, stop)`; `none` if an entry it reads was never
written (log 4). The width of the range halves, so 32 rounds settle any 32-bit NSYM. -/
def searchSymbol (cum : Memory) (value : Nat) : Nat → Nat → Nat → Option Nat
  | 0, start, _ => some start
  | fuel + 1, start, stop =>
    if stop - start > 1 then
      let mid := (start + stop) >>> 1
      match memRead cum mid with
      | none => none
      | some c =>
        if c.toNat > value then searchSymbol cum value fuel start mid
        else searchSymbol cum value fuel mid stop
    else some start

/-- `FindSymbol` (40_fm.md R119), by the search of R120. -/
def findSymbol (cum : Memory) (nsym value : Nat) : Option Nat := searchSymbol cum value 32 0 nsym

end Sys2Proof.Machine
end

