-- ==== Sys2Proof/Machine/Flags.lean ====
section
/-! DEFINITION. The status words: the block has no arithmetic flags (10_state.md R49); its status is
the FAULT latch and the three phases, packed into STATUS, ERRINFO, CAP and CAP2 (R46 to R48). -/

namespace Sys2Proof.Machine

/-- `FM_PHASE` as its 2-bit value (10_state.md R26). -/
def FmPhase.bits : FmPhase → Nat
  | .empty => 0
  | .building => 1
  | .sealed => 2

/-- `E_PHASE` as its 2-bit value (10_state.md R34). -/
def EncPhase.bits : EncPhase → Nat
  | .idle => 0
  | .active => 1
  | .done => 2

/-- `D_PHASE` as its 1-bit value (10_state.md R40). -/
def DecPhase.bits : DecPhase → Nat
  | .idle => 0
  | .active => 1

/-- STATUS: bit 0 FAULT, bits 2:1 FM_PHASE, bits 4:3 E_PHASE, bit 5 D_PHASE, the rest 0 (10_state.md R46). -/
def statusWord (s : State) : Word32 :=
  BitVec.ofNat 32 (s.flt.fault.toNat + s.fmu.phase.bits * 2 ^ 1 + s.enc.phase.bits * 2 ^ 3 + s.dec.phase.bits * 2 ^ 5)

/-- ERRINFO: bits 7:0 ERRCODE, bits 15:8 ERROPC, the rest 0 (10_state.md R47). -/
def errinfoWord (s : State) : Word32 := (0#16 ++ (s.flt.erropc ++ s.flt.errcode) : BitVec (16 + (8 + 8)))

/-- CAP: bits 7:0 NMAX, bits 31:8 AMAX (10_state.md R48). -/
def capWord (p : Params) : Word32 := (BitVec.ofNat 24 p.amax ++ BitVec.ofNat 8 p.nmax : BitVec (24 + 8))

/-- CAP2: bits 7:0 PBW, bits 15:8 CW, the rest 0 (10_state.md R48). -/
def cap2Word (p : Params) : Word32 :=
  (0#16 ++ (BitVec.ofNat 8 Config.CW ++ BitVec.ofNat 8 p.pbw) : BitVec (16 + (8 + 8)))

end Sys2Proof.Machine
end

