-- ==== Sys2Proof/Machine/Operands.lean ====
section
/-! DEFINITION. What the operand ARG can mean (30_encoding.md R92): a symbol index, a state width, a
register number, a count, with the range check each has, and the numbered register map. -/

namespace Sys2Proof.Machine

/-- `s < NSYM`, compared as full 32-bit naturals (60_exceptions.md R215). -/
def symbolInRange (s : State) (sym : Word32) : Bool := decide (sym.toNat < s.fmu.nsym.toNat)

/-- `1 <= n <= NMAX` (41_coder_core.md R131; 60_exceptions.md R213). -/
def widthLegal (s : State) (n : Word32) : Bool := decide (1 ≤ n.toNat ∧ n.toNat ≤ s.params.nmax)

/-- `TotalFits(n)`: `TOTAL <= minimum_range(n)` (41_coder_core.md R132). -/
def totalFits (s : State) (n : Word32) : Bool := decide (s.fmu.total.toNat ≤ minimumRange n.toNat)

/-- `TOTAL + c <= 2^32 - 1`, on the exact sum (40_fm.md R112; 60_exceptions.md R220). -/
def countFits (s : State) (c : Word32) : Bool := decide (s.fmu.total.toNat + c.toNat ≤ 2 ^ Config.CW - 1)

/-- `x[r]`: the numbered register map, `none` where there is no register (10_state.md R45). -/
def readRegister (s : State) (r : Word32) : Option Word32 :=
  match r.toNat with
  | 0x00 => some (statusWord s)
  | 0x01 => some (errinfoWord s)
  | 0x02 => some s.flt.errarg
  | 0x03 => some (capWord s.params)
  | 0x04 => some s.fmu.nsym
  | 0x05 => some s.fmu.total
  | 0x06 => some (cap2Word s.params)
  | 0x10 => some (s.enc.nbits.setWidth 32)
  | 0x11 => some s.enc.low
  | 0x12 => some s.enc.high
  | 0x13 => some s.enc.pend
  | 0x20 => some (s.dec.nbits.setWidth 32)
  | 0x21 => some s.dec.low
  | 0x22 => some s.dec.high
  | 0x23 => some s.dec.code
  | _ => none

end Sys2Proof.Machine
end

