-- ==== Sys2Proof/Machine/Decoder.lean ====
section
/-! DEFINITION. The DEC commands (43_dec.md). -/

namespace Sys2Proof.Machine

/-- DEC.INIT n (43_dec.md R166): the full interval at width `n`, `code` primed with `n` source bits. A
refused DEC.INIT takes no bit. -/
def execDecInit (n : Word32) (s : State) : Host.Outcome State Fault Refusal :=
  unlessFaulted s <|
    if widthLegal s n = false then raise .config (encode (.decInit n)) s
    else if s.fmu.phase ≠ .sealed then raise .phase (encode (.decInit n)) s
    else if totalFits s n = false then raise .totalRange (encode (.decInit n)) s
    else
      let primed := primeCode s.inp n.toNat 0 s.inPos
      answer 0#32
        { s with
          dec :=
            { nbits := BitVec.ofNat 6 n.toNat
              low := 0#32
              high := regOf s.params.nmax (stateMask n.toNat)
              code := regOf s.params.nmax primed.1
              phase := .active }
          inPos := primed.2 }

/-- The commit of DEC.READ: D_LOW, D_HIGH, D_CODE, and the read position (43_dec.md R167). -/
def commitRead (low high code pos : Nat) (s : State) : State :=
  { s with
    dec := { s.dec with
      low := regOf s.params.nmax low
      high := regOf s.params.nmax high
      code := regOf s.params.nmax code }
    inPos := pos }

/-- DEC.READ (43_dec.md R167): the symbol whose slice holds `code`, then the encoder's own narrowing and
renormalisation, taking a bit where the encoder emits or defers one. -/
def execDecRead (s : State) : Host.Outcome State Fault Refusal :=
  unlessFaulted s <|
    if s.dec.phase ≠ .active then raise .phase (encode .decRead) s
    else
      let N := s.dec.nbits.toNat
      let value := scaledValue s.dec.low.toNat s.dec.high.toNat s.dec.code.toNat s.fmu.total.toNat
      match findSymbol s.fmu.cum s.fmu.nsym.toNat value with
      | none => .fault (.tableEntryEmpty .cum)
      | some sym =>
        match memRead s.fmu.cum sym, memRead s.fmu.cum (sym + 1) with
        | some symlow, some symhigh =>
          let start := narrow s.dec.low.toNat s.dec.high.toNat symlow.toNat symhigh.toNat s.fmu.total.toNat
          match renormLoop N (decodeBit N s.inp) N start.1 start.2 (s.dec.code.toNat, s.inPos) with
          | .stop low high (code, pos) => answer (BitVec.ofNat 32 sym) (commitRead low high code pos s)
          | _ => .fault .renormNoStop
        | _, _ => .fault (.tableEntryEmpty .cum)

end Sys2Proof.Machine
end

