-- ==== Sys2Proof/Machine/Encoder.lean ====
section
/-! DEFINITION. The ENC commands (42_enc.md). -/

namespace Sys2Proof.Machine

/-- ENC.INIT n (42_enc.md R151): the full interval at width `n`, nothing pending. -/
def execEncInit (n : Word32) (s : State) : Host.Outcome State Fault Refusal :=
  unlessFaulted s <|
    if widthLegal s n = false then raise .config (encode (.encInit n)) s
    else if s.fmu.phase ≠ .sealed then raise .phase (encode (.encInit n)) s
    else if totalFits s n = false then raise .totalRange (encode (.encInit n)) s
    else
      answer 0#32
        { s with
          enc :=
            { nbits := BitVec.ofNat 6 n.toNat
              low := 0#32
              high := regOf s.params.nmax (stateMask n.toNat)
              pend := 0#32
              phase := .active } }

/-- The commit of ENC.WRITE: E_LOW, E_HIGH, E_PEND, then the gathered bits to the sink (42_enc.md R152). -/
def commitWrite (low high pend : Nat) (out : List Bit) (s : State) : State :=
  sinkPut out
    { s with
      enc := { s.enc with
        low := regOf s.params.nmax low
        high := regOf s.params.nmax high
        pend := regOf s.params.pbw pend } }

/-- ENC.WRITE s (42_enc.md R152): narrow, renormalise, and only then commit; a full pending counter
raises before any effect (00_scope.md R17). -/
def execEncWrite (sym : Word32) (s : State) : Host.Outcome State Fault Refusal :=
  unlessFaulted s <|
    if s.enc.phase ≠ .active then raise .phase (encode (.encWrite sym)) s
    else if symbolInRange s sym = false then raise .symbolRange (encode (.encWrite sym)) s
    else
      match memRead s.fmu.cnt sym.toNat, memRead s.fmu.cum sym.toNat, memRead s.fmu.cum (sym.toNat + 1) with
      | none, _, _ => .fault (.tableEntryEmpty .cnt)
      | some count, symlow, symhigh =>
        if count = 0#32 then raise .zeroFreq (encode (.encWrite sym)) s
        else
          match symlow, symhigh with
          | some symlow, some symhigh =>
            let N := s.enc.nbits.toNat
            let start := narrow s.enc.low.toNat s.enc.high.toNat symlow.toNat symhigh.toNat s.fmu.total.toNat
            match renormLoop N (encodeBit s.params.pmax) N start.1 start.2 ([], s.enc.pend.toNat) with
            | .stop low high (out, pend) => answer 0#32 (commitWrite low high pend out s)
            | .abort => raise .pendingOvf (encode (.encWrite sym)) s
            | .stuck => .fault .renormNoStop
          | _, _ => .fault (.tableEntryEmpty .cum)

/-- ENC.FINISH (42_enc.md R154): one more deferred bit, resolved by which quarter `low` lies in. -/
def execEncFinish (s : State) : Host.Outcome State Fault Refusal :=
  unlessFaulted s <|
    if s.enc.phase ≠ .active then raise .phase (encode .encFinish) s
    else if s.enc.pend.toNat ≥ s.params.pmax then raise .pendingOvf (encode .encFinish) s
    else
      let b : Bit := decide (¬ s.enc.low.toNat < quarterRange s.enc.nbits.toNat)
      let out := (emit [] (s.enc.pend.toNat + 1) b).1
      answer 0#32 (sinkPut out { s with enc := { s.enc with pend := 0#32, phase := .done } })

end Sys2Proof.Machine
end

