-- ==== Sys2Proof/Machine/Fm.lean ====
section
/-! DEFINITION. The FMU commands (40_fm.md). -/

namespace Sys2Proof.Machine

/-- FM.CLEAR (40_fm.md R111): a new, empty table; both coder sessions end without a flush. -/
def execFmClear (s : State) : Host.Outcome State Fault Refusal :=
  unlessFaulted s <|
    answer 0#32
      { s with
        fmu := { s.fmu with
          cum := memWrite s.fmu.cum 0 0#32, nsym := 0#32, total := 0#32, phase := .building }
        enc := { s.enc with phase := .idle }
        dec := { s.dec with phase := .idle } }

/-- FM.PUSH c (40_fm.md R112): the count of the next symbol, and the running sum. -/
def execFmPush (c : Word32) (s : State) : Host.Outcome State Fault Refusal :=
  unlessFaulted s <|
    if s.fmu.phase ≠ .building then raise .phase (encode (.fmPush c)) s
    else if s.fmu.nsym.toNat ≥ s.params.amax then raise .tableFull (encode (.fmPush c)) s
    else if countFits s c = false then raise .countOvf (encode (.fmPush c)) s
    else
      answer 0#32
        { s with
          fmu := { s.fmu with
            cnt := memWrite s.fmu.cnt s.fmu.nsym.toNat c
            cum := memWrite s.fmu.cum (s.fmu.nsym.toNat + 1) (regOf Config.CW (s.fmu.total.toNat + c.toNat))
            total := regOf Config.CW (s.fmu.total.toNat + c.toNat)
            nsym := regOf 32 (s.fmu.nsym.toNat + 1) } }

/-- FM.SEAL (40_fm.md R113): the table is complete, if its total is positive. -/
def execFmSeal (s : State) : Host.Outcome State Fault Refusal :=
  unlessFaulted s <|
    if s.fmu.phase ≠ .building then raise .phase (encode .fmSeal) s
    else if s.fmu.total = 0#32 then raise .zeroTotal (encode .fmSeal) s
    else answer 0#32 { s with fmu := { s.fmu with phase := .sealed } }

/-- FM.NSYM (40_fm.md R114). -/
def execFmNsym (s : State) : Host.Outcome State Fault Refusal :=
  unlessFaulted s <|
    if s.fmu.phase ≠ .sealed then raise .phase (encode .fmNsym) s
    else answer s.fmu.nsym s

/-- FM.LOW s (40_fm.md R115): `CUM[s]`. -/
def execFmLow (sym : Word32) (s : State) : Host.Outcome State Fault Refusal :=
  unlessFaulted s <|
    if s.fmu.phase ≠ .sealed then raise .phase (encode (.fmLow sym)) s
    else if symbolInRange s sym = false then raise .symbolRange (encode (.fmLow sym)) s
    else
      match memRead s.fmu.cum sym.toNat with
      | none => .fault (.tableEntryEmpty .cum)
      | some v => answer v s

/-- FM.HIGH s (40_fm.md R116): `CUM[s + 1]`. -/
def execFmHigh (sym : Word32) (s : State) : Host.Outcome State Fault Refusal :=
  unlessFaulted s <|
    if s.fmu.phase ≠ .sealed then raise .phase (encode (.fmHigh sym)) s
    else if symbolInRange s sym = false then raise .symbolRange (encode (.fmHigh sym)) s
    else
      match memRead s.fmu.cum (sym.toNat + 1) with
      | none => .fault (.tableEntryEmpty .cum)
      | some v => answer v s

/-- FM.TOTAL (40_fm.md R117). -/
def execFmTotal (s : State) : Host.Outcome State Fault Refusal :=
  unlessFaulted s <|
    if s.fmu.phase ≠ .sealed then raise .phase (encode .fmTotal) s
    else answer s.fmu.total s

end Sys2Proof.Machine
end

