-- ==== Sys2Proof/Machine/Sys.lean ====
section
/-! DEFINITION. The system commands (44_sys.md): SYS.RESET and SYS.RDREG, the two that are accepted
while FAULT = 1 (R180; 60_exceptions.md R227). -/

namespace Sys2Proof.Machine

/-- SYS.RESET (44_sys.md R181). -/
def execSysReset (s : State) : Host.Outcome State Fault Refusal := answer 0#32 (resetBlock s)

/-- SYS.RDREG r (44_sys.md R182): a valid number is answered, faulted or not; any other is refused, with
ERR_FAULTED while FAULT = 1 (60_exceptions.md R222, R223, R228). -/
def execSysRdreg (r : Word32) (s : State) : Host.Outcome State Fault Refusal :=
  match readRegister s r with
  | some v => answer v s
  | none => unlessFaulted s (raise .badReg (encode (.sysRdreg r)) s)

end Sys2Proof.Machine
end

