-- ==== Sys2Proof/Machine/Dispatch.lean ====
section
/-! DEFINITION. The meaning of every command, one arm per constructor of Instr. -/

namespace Sys2Proof.Machine

def exec (i : Instr) (s : State) : Host.Outcome State Fault Refusal :=
  match i with
  | .sysReset => Sys2Proof.Machine.execSysReset s
  | .sysRdreg r => Sys2Proof.Machine.execSysRdreg r s
  | .fmClear => Sys2Proof.Machine.execFmClear s
  | .fmPush c => Sys2Proof.Machine.execFmPush c s
  | .fmSeal => Sys2Proof.Machine.execFmSeal s
  | .fmNsym => Sys2Proof.Machine.execFmNsym s
  | .fmLow sym => Sys2Proof.Machine.execFmLow sym s
  | .fmHigh sym => Sys2Proof.Machine.execFmHigh sym s
  | .fmTotal => Sys2Proof.Machine.execFmTotal s
  | .encInit n => Sys2Proof.Machine.execEncInit n s
  | .encWrite sym => Sys2Proof.Machine.execEncWrite sym s
  | .encFinish => Sys2Proof.Machine.execEncFinish s
  | .decInit n => Sys2Proof.Machine.execDecInit n s
  | .decRead => Sys2Proof.Machine.execDecRead s

end Sys2Proof.Machine
end

