-- ==== Sys2Proof/Machine/Step.lean ====
section
/-! DEFINITION. One step: the next thing the host does. There is no program counter and no fetch
(10_state.md R33); the command at the head of the inbox is decoded and run to completion. -/

namespace Sys2Proof.Machine

/-- One step (20_memory.md R80; log 1). The check of FAULT before that of the word's form is inside
`exec` and `illegalCommand` (60_exceptions.md R228). -/
def step (s : State) : Host.Outcome State Fault Refusal :=
  match s.inbox with
  | [] => idle s
  | .command w :: rest =>
    match decode w with
    | .command i => exec i (takeEvent rest s)
    | .illegal _ => illegalCommand w (takeEvent rest s)
  | .hardwareReset :: rest => hardwareReset (takeEvent rest s)
  | .supplyBits bits :: rest => supplyBits bits (takeEvent rest s)
  | .replaceSource bits :: rest => replaceSource bits (takeEvent rest s)
  | .emptySink :: rest => emptySink (takeEvent rest s)

/-- `s` with the table row's word presented as the very next command (log 2). -/
def State.withFetchWord (s : State) (nbits w : Nat) : State := presentFirst (BitVec.ofNat 64 (w % 2 ^ nbits)) s

end Sys2Proof.Machine
end

