-- ==== Sys2Proof/Machine/Asm.lean ====
section
/-! DEFINITION. The textual form of commands (30_encoding.md R100): one command a line, a mnemonic in
upper case, for format A one operand in decimal or in hexadecimal with the prefix 0x, and a comment
from a semicolon to the end of the line. Text is a list of characters. -/

namespace Sys2Proof.Machine

/-- A space or a tab. -/
def isBlankChar (c : Char) : Bool := c == ' ' || c == '\t'

/-- The words of a line, separated by blanks; `word` holds the reversed characters of an open word. -/
def splitWords (word : List Char) : List Char → List (List Char)
  | [] => if word.isEmpty then [] else [word.reverse]
  | c :: cs =>
    if isBlankChar c then
      if word.isEmpty then splitWords [] cs else word.reverse :: splitWords [] cs
    else splitWords (c :: word) cs

/-- The value of a digit in the given base (10 or 16). -/
def digitValue (base : Nat) (c : Char) : Option Nat :=
  let v :=
    if '0' ≤ c ∧ c ≤ '9' then c.toNat - '0'.toNat
    else if 'A' ≤ c ∧ c ≤ 'F' then c.toNat - 'A'.toNat + 10
    else if 'a' ≤ c ∧ c ≤ 'f' then c.toNat - 'a'.toNat + 10
    else base
  if v < base then some v else none

/-- The digits of a numeral after the value `acc` of those before them. -/
def digitsValue (base : Nat) : Nat → List Char → Option Nat
  | acc, [] => some acc
  | acc, c :: cs =>
    match digitValue base c with
    | none => none
    | some d => digitsValue base (acc * base + d) cs

/-- A natural number, decimal or hexadecimal with the prefix 0x. -/
def numeral : List Char → Option Nat
  | [] => none
  | '0' :: 'x' :: [] => none
  | '0' :: 'x' :: c :: cs => digitsValue 16 0 (c :: cs)
  | c :: cs => digitsValue 10 0 (c :: cs)

/-- The mnemonics without an operand (30_encoding.md R96, format Z). -/
def plainMnemonics : List (List Char × Instr) :=
  [(['S', 'Y', 'S', '.', 'R', 'E', 'S', 'E', 'T'], .sysReset),
   (['F', 'M', '.', 'C', 'L', 'E', 'A', 'R'], .fmClear),
   (['F', 'M', '.', 'S', 'E', 'A', 'L'], .fmSeal),
   (['F', 'M', '.', 'N', 'S', 'Y', 'M'], .fmNsym),
   (['F', 'M', '.', 'T', 'O', 'T', 'A', 'L'], .fmTotal),
   (['E', 'N', 'C', '.', 'F', 'I', 'N', 'I', 'S', 'H'], .encFinish),
   (['D', 'E', 'C', '.', 'R', 'E', 'A', 'D'], .decRead)]

/-- The command of a mnemonic with one operand (30_encoding.md R96, format A). -/
def operandMnemonic (word : List Char) (a : Word32) : Option Instr :=
  if word = ['S', 'Y', 'S', '.', 'R', 'D', 'R', 'E', 'G'] then some (.sysRdreg a)
  else if word = ['F', 'M', '.', 'P', 'U', 'S', 'H'] then some (.fmPush a)
  else if word = ['F', 'M', '.', 'L', 'O', 'W'] then some (.fmLow a)
  else if word = ['F', 'M', '.', 'H', 'I', 'G', 'H'] then some (.fmHigh a)
  else if word = ['E', 'N', 'C', '.', 'I', 'N', 'I', 'T'] then some (.encInit a)
  else if word = ['E', 'N', 'C', '.', 'W', 'R', 'I', 'T', 'E'] then some (.encWrite a)
  else if word = ['D', 'E', 'C', '.', 'I', 'N', 'I', 'T'] then some (.decInit a)
  else none

/-- What one line holds. -/
inductive AsmLine where
  /-- Nothing, or a comment only: the line is ignored. -/
  | blank
  | command (i : Instr)
  /-- Not a line of the textual form. -/
  | invalid
  deriving DecidableEq, Repr

/-- The words of a line as a command; an operand is a natural below 2^32 (30_encoding.md R92). -/
def assembleWords : List (List Char) → AsmLine
  | [] => .blank
  | [m] =>
    match plainMnemonics.find? fun row => row.1 = m with
    | some row => .command row.2
    | none => .invalid
  | [m, a] =>
    match numeral a with
    | none => .invalid
    | some v =>
      if v < 2 ^ 32 then
        match operandMnemonic m (BitVec.ofNat 32 v) with
        | some i => .command i
        | none => .invalid
      else .invalid
  | _ => .invalid

/-- One line of the textual form (30_encoding.md R100). -/
def assembleLine (line : List Char) : AsmLine := assembleWords (splitWords [] (line.takeWhile fun c => c ≠ ';'))

/-- A listing as command words; `none` if a line is not of the textual form (30_encoding.md R100). -/
def assemble : List (List Char) → Option (List Word64)
  | [] => some []
  | line :: lines =>
    match assembleLine line, assemble lines with
    | .blank, some ws => some ws
    | .command i, some ws => some (encode i :: ws)
    | _, _ => none

end Sys2Proof.Machine
end

