-- ==== Sys2Proof/Machine/HostSide.lean ====
section
/-! DEFINITION. The byte packer and unpacker of the host side. They are not part of the block
(00_scope.md R5); their contract is stated because it fixes the bit order (20_memory.md R70, R71). -/

namespace Sys2Proof.Machine

/-- Eight bits as a byte, the first one most significant (20_memory.md R70). -/
def byteOfBits (bits : List Bit) : Byte := BitVec.ofNat 8 (bits.foldl (fun v b => 2 * v + b.toNat) 0)

/-- The bits of a byte, most significant first (20_memory.md R71). -/
def bitsOfByte (b : Byte) : List Bit := (List.range 8).map fun i => b.getLsbD (7 - i)

/-- The zeros that fill a final partial byte: `(8 - length mod 8) mod 8` (20_memory.md R70). -/
def padding (out : List Bit) : List Bit := List.replicate ((8 - out.length % 8) % 8) false

/-- `count` bytes of a bit sequence that is long enough. -/
def bytesOfBits : Nat → List Bit → List Byte
  | 0, _ => []
  | count + 1, bits => byteOfBits (bits.take 8) :: bytesOfBits count (bits.drop 8)

/-- `Pack(OUT)` (20_memory.md R70). -/
def pack (out : List Bit) : List Byte :=
  let padded := out ++ padding out
  bytesOfBits (padded.length / 8) padded

/-- `Unpack(bytes)` (20_memory.md R71). -/
def unpack (bytes : List Byte) : List Bit := bytes.flatMap bitsOfByte

end Sys2Proof.Machine
end

