-- ==== Sys2Proof/Machine/Pseudo.lean ====
section
/-! DEFINITION. The pseudo-instructions of 30_encoding.md R101: each means exactly its expansion. -/

namespace Sys2Proof.Machine

/-- `FM.BUILD c0, ..., ck`: clear, push every count, seal. -/
def fmBuild (counts : List Word32) : List Instr := .fmClear :: (counts.map .fmPush ++ [.fmSeal])

/-- `ENC.PUT s0, ..., sk`: write every symbol. -/
def encPut (syms : List Word32) : List Instr := syms.map .encWrite

/-- `DEC.GET k`: read `k` symbols. -/
def decGet (k : Nat) : List Instr := List.replicate k .decRead

/-- `ENC.MSG n; s0, ..., sk`: one whole message at width `n`. -/
def encMsg (n : Word32) (syms : List Word32) : List Instr := .encInit n :: (encPut syms ++ [.encFinish])

end Sys2Proof.Machine
end

