-- ==== Sys2Proof/Safety.lean ====
section
/-! DEFINITION. What a safe run is, in the terms claims use: the invariant every step keeps (10_state.md
R21, R27; 45_properties.md R191 to R193), the relation between states that differ only in unreachable
table entries (93_implementation_defined.md U5), and whole command sequences (45_properties.md R190). -/

namespace Sys2Proof.Machine

/-- The FMU invariant of 10_state.md R27, with the canonical form and the extent of the two tables
(20_memory.md R60, R61), the legal values of NSYM (R24) and those of phase EMPTY (R26). -/
structure FmuInv (p : Params) (f : Fmu) : Prop where
  cntWf : f.cnt.wf = true
  cumWf : f.cum.wf = true
  cntExtent : ∀ e ∈ f.cnt, e.1 < p.amax
  cumExtent : ∀ e ∈ f.cum, e.1 ≤ p.amax
  nsymLegal : f.nsym.toNat ≤ p.amax
  cumZero : memRead f.cum 0 = some 0#32
  cumStep : ∀ i < f.nsym.toNat, ∃ a c b : Word32,
    memRead f.cum i = some a ∧ memRead f.cnt i = some c ∧ memRead f.cum (i + 1) = some b ∧
      b.toNat = a.toNat + c.toNat
  cumTotal : memRead f.cum f.nsym.toNat = some f.total
  emptyPhase : f.phase = .empty → f.nsym = 0#32
  sealedTotal : f.phase = .sealed → 0 < f.total.toNat

/-- The three statements of 45_properties.md R192 about the interval of a coder at width `N`. -/
structure IntervalInv (N low high total : Nat) : Prop where
  lowBelowHalf : low < halfRange N
  halfBelowHigh : halfRange N ≤ high
  highInMask : high ≤ stateMask N
  notUnderflow : low < quarterRange N ∨ 3 * quarterRange N ≤ high
  rangeWide : minimumRange N ≤ high - low + 1
  totalFits : total ≤ minimumRange N

/-- The encoder: register widths (10_state.md R21, R28 to R31), and 45_properties.md R192. -/
structure EncInv (p : Params) (f : Fmu) (e : Enc) : Prop where
  nbitsLegal : e.nbits.toNat ≤ p.nmax
  lowWidth : e.low.toNat < 2 ^ p.nmax
  highWidth : e.high.toNat < 2 ^ p.nmax
  pendWidth : e.pend.toNat ≤ p.pmax
  session : e.phase ≠ .idle → f.phase = .sealed ∧ 1 ≤ e.nbits.toNat ∧
    IntervalInv e.nbits.toNat e.low.toNat e.high.toNat f.total.toNat

/-- The decoder: register widths (10_state.md R21, R35 to R38), and 45_properties.md R193. -/
structure DecInv (p : Params) (f : Fmu) (d : Dec) : Prop where
  nbitsLegal : d.nbits.toNat ≤ p.nmax
  lowWidth : d.low.toNat < 2 ^ p.nmax
  highWidth : d.high.toNat < 2 ^ p.nmax
  codeWidth : d.code.toNat < 2 ^ p.nmax
  session : d.phase ≠ .idle → f.phase = .sealed ∧ 1 ≤ d.nbits.toNat ∧
    IntervalInv d.nbits.toNat d.low.toNat d.high.toNat f.total.toNat ∧
    d.low.toNat ≤ d.code.toNat ∧ d.code.toNat ≤ d.high.toNat

/-- The errors that fault entry can record: every code of 60_exceptions.md R211 but OK and ERR_FAULTED. -/
def Code.recordable (e : Code) : Prop := e ≠ .ok ∧ e ≠ .faulted

/-- The fault registers: the error registers read 0 while FAULT = 0 (10_state.md R42; reset values of
R43, R44), and hold the code of an error that is ever recorded while FAULT = 1. -/
structure FaultInv (r : FaultRegs) : Prop where
  clear : r.fault = false → r = FaultRegs.reset
  recorded : r.fault = true → ∃ e : Code, e.recordable ∧ r.errcode = e.byte

/-- The invariant of the whole machine; it says nothing of the host side. -/
structure State.Inv (s : State) : Prop where
  params : s.params.legal = true
  fmu : FmuInv s.params s.fmu
  enc : EncInv s.params s.fmu s.enc
  dec : DecInv s.params s.fmu s.dec
  flt : FaultInv s.flt

/-- Two FMU states that a command cannot tell apart: equal but for the table entries 20_memory.md R63
calls unreachable. -/
structure FmuAgree (f g : Fmu) : Prop where
  nsym : f.nsym = g.nsym
  total : f.total = g.total
  phase : f.phase = g.phase
  cnt : ∀ i < f.nsym.toNat, memRead f.cnt i = memRead g.cnt i
  cum : ∀ i ≤ f.nsym.toNat, memRead f.cum i = memRead g.cum i

/-- Two states equal but for unreachable table entries (93_implementation_defined.md U5). -/
structure State.Agree (s t : State) : Prop where
  fmu : FmuAgree s.fmu t.fmu
  rest : { s with fmu := t.fmu } = t

/-- Commands executed one after the other, each to completion (20_memory.md R80), as long as none stops. -/
def execAll : List Instr → State → Host.Outcome State Fault Refusal
  | [], s => .next s
  | i :: is, s =>
    match exec i s with
    | .next t => execAll is t
    | .fault r => .fault r
    | .refused r => .refused r

/-- The commands of `Enc(counts, N, syms)` (45_properties.md R190). -/
def encodeSession (counts : List Word32) (n : Word32) (syms : List Word32) : List Instr :=
  fmBuild counts ++ encMsg n syms

/-- The commands of `Dec(counts, N, bits, k)` (45_properties.md R190). -/
def decodeSession (counts : List Word32) (n : Word32) (k : Nat) : List Instr :=
  fmBuild counts ++ (.decInit n :: decGet k)

/-- A command that ended well and answered `v`: CODE 0x00, then 24 zeros, then the value (30_encoding.md R94). -/
def okWord (v : Word32) : Word64 := (0#32 ++ v : BitVec (32 + 32))

end Sys2Proof.Machine
end

