-- ==== Sys2Proof/WellFormed.lean ====
section
/-! DEFINITION. Which words are well formed, written from 30_encoding.md R93 and R96 and not from the
decoder. The spec's notion is one of WORDS; a term of Instr carries a 32-bit operand and every such
term is the meaning of exactly one well-formed word, so there is no check on the term itself. -/

namespace Sys2Proof

/-- The format column of 30_encoding.md R96, for every opcode; `none` for the 242 unassigned values. -/
def formatOfOpcode (opc : Byte) : Option Format :=
  if opc ∈ [0x01#8, 0x10#8, 0x12#8, 0x13#8, 0x16#8, 0x22#8, 0x31#8] then some .Z
  else if opc ∈ [0x02#8, 0x11#8, 0x14#8, 0x15#8, 0x20#8, 0x21#8, 0x30#8] then some .A
  else none

/-- `opc` is one of the fourteen opcodes (30_encoding.md R93). -/
def opcodeAssigned (w : Word64) : Bool := (formatOfOpcode (opcField w)).isSome

/-- `rsv = 0` (30_encoding.md R93). -/
def reservedZero (w : Word64) : Bool := decide (rsvField w = 0#24)

/-- If the opcode's format is Z, `arg = 0` (30_encoding.md R93). -/
def operandFitsFormat (w : Word64) : Bool :=
  decide (formatOfOpcode (opcField w) = some .Z → argField w = 0#32)

/-- A well-formed word (30_encoding.md R93). -/
def wellFormedWord (w : Word64) : Bool := opcodeAssigned w && reservedZero w && operandFitsFormat w

/-- The mask of a format (30_encoding.md R91). -/
def Format.mask : Format → Word64
  | .Z => 0xFFFFFFFFFFFFFFFF#64
  | .A => 0xFFFFFFFF00000000#64

/-- `match = OPC << 56`, a row's match value (30_encoding.md R91). -/
def rowMatch (opc : Byte) : Word64 := opc.setWidth 64 <<< 56

end Sys2Proof
end

