-- ==== Sys2Proof/Certificates/Slice0/Obligations.lean ====
section
/-! DEFINITION. The statements for the provers. The relations and functions before them say in the
spec's own arithmetic what the machine's operations are held to; they call no meaning. -/

namespace Sys2Proof.Machine

/-! ## What the statements are written with -/

/-- The renormalisation loop of 41_coder_core.md R135 to R137 as a relation, in plain arithmetic: from
`(low, high)` the classes `cs` in order lead to `(l, h)`, where the loop stops. -/
inductive RenormTrace (N : Nat) : Nat → Nat → List RenormClass → Nat → Nat → Prop where
  | stop {low high : Nat} (notZ : 2 ^ (N - 1) ≤ high) (notO : low < 2 ^ (N - 1))
      (notU : low < quarterRange N ∨ 3 * quarterRange N ≤ high) : RenormTrace N low high [] low high
  | zero {low high l h : Nat} {cs : List RenormClass} (isZ : high < 2 ^ (N - 1))
      (rest : RenormTrace N (2 * low) (2 * high + 1) cs l h) : RenormTrace N low high (.Z :: cs) l h
  | one {low high l h : Nat} {cs : List RenormClass} (notZ : 2 ^ (N - 1) ≤ high) (isO : 2 ^ (N - 1) ≤ low)
      (rest : RenormTrace N (2 * (low - 2 ^ (N - 1))) (2 * (high - 2 ^ (N - 1)) + 1) cs l h) :
      RenormTrace N low high (.O :: cs) l h
  | under {low high l h : Nat} {cs : List RenormClass} (notZ : 2 ^ (N - 1) ≤ high) (notO : low < 2 ^ (N - 1))
      (isU : quarterRange N ≤ low) (isU' : high < 3 * quarterRange N)
      (rest : RenormTrace N (2 * (low - quarterRange N)) (2 * (high - quarterRange N) + 1) cs l h) :
      RenormTrace N low high (.U :: cs) l h

/-- The bits an encoder with `pend` deferred bits emits over the classes `cs`, and how many are deferred
at the end; `none` where the counter would pass `pmax` (42_enc.md R152, R153). -/
def emission (pmax : Nat) : List RenormClass → Nat → Option (List Bit × Nat)
  | [], pend => some ([], pend)
  | .U :: cs, pend => if pend = pmax then none else emission pmax cs (pend + 1)
  | .Z :: cs, pend => (emission pmax cs 0).map fun r => (false :: (List.replicate pend true ++ r.1), r.2)
  | .O :: cs, pend => (emission pmax cs 0).map fun r => (true :: (List.replicate pend false ++ r.1), r.2)
  | .S :: cs, pend => emission pmax cs pend

/-- The decoder's window after the classes `cs`, one source bit each from position `pos` on, 0 past the
end (43_dec.md R167; 20_memory.md R69). -/
def windowAfter (N : Nat) (inp : List Bit) : List RenormClass → Nat → Nat → Nat
  | [], code, _ => code
  | c :: cs, code, pos =>
    let sub := match c with
      | .Z => 0
      | .O => 2 ^ (N - 1)
      | .U => quarterRange N
      | .S => 0
    windowAfter N inp cs (2 * (code - sub) + (inp[pos]?.getD false).toNat) (pos + 1)

/-- The number spelled by `n` source bits from position `pos` on, the first one most significant, 0 past
the end (43_dec.md R166; 20_memory.md R69, R72). -/
def bitsValue (inp : List Bit) (n pos : Nat) : Nat :=
  ((List.range n).map fun i => (inp[pos + i]?.getD false).toNat * 2 ^ (n - 1 - i)).sum

/-- The state a command word `w` leaves when it is refused with error code `e` (60_exceptions.md R225). -/
def refusedWith (s : State) (e : Byte) (w : Word64) : State :=
  { s with
    flt := { fault := true, errcode := e, erropc := w.extractLsb' 56 8, errarg := w.extractLsb' 0 32 }
    rsps := s.rsps ++ [(e ++ 0#56 : BitVec (8 + 56))] }

/-- Every block register at the value of 10_state.md R51 (the parameters apart). -/
def HoldsResetValues (s : State) : Prop :=
  s.fmu.phase = .empty ∧ s.fmu.nsym = 0#32 ∧ s.fmu.total = 0#32 ∧ memRead s.fmu.cum 0 = some 0#32 ∧
  s.enc = { nbits := 0#6, low := 0#32, high := 0#32, pend := 0#32, phase := .idle } ∧
  s.dec = { nbits := 0#6, low := 0#32, high := 0#32, code := 0#32, phase := .idle } ∧
  s.flt = { fault := false, errcode := 0#8, erropc := 0#8, errarg := 0#32 }

/-- The checks of a command after the two global ones, in the order of its rule: each with whether it
passes and the error it raises (60_exceptions.md R228 (3)); ERR_PENDING_OVF of ENC.WRITE, found during
execution, is not among them. -/
def commandChecks (s : State) : Instr → List (Bool × Byte)
  | .sysReset | .fmClear => []
  | .sysRdreg r => [(decide (r.toNat ≤ 6 ∨ (16 ≤ r.toNat ∧ r.toNat ≤ 19) ∨ (32 ≤ r.toNat ∧ r.toNat ≤ 35)), 0x0C#8)]
  | .fmPush c =>
    [(s.fmu.phase = .building, 0x07#8), (decide (s.fmu.nsym.toNat < s.params.amax), 0x08#8),
     (decide (s.fmu.total.toNat + c.toNat < 2 ^ 32), 0x09#8)]
  | .fmSeal => [(s.fmu.phase = .building, 0x07#8), (decide (0 < s.fmu.total.toNat), 0x03#8)]
  | .fmNsym | .fmTotal => [(s.fmu.phase = .sealed, 0x07#8)]
  | .fmLow a | .fmHigh a => [(s.fmu.phase = .sealed, 0x07#8), (decide (a.toNat < s.fmu.nsym.toNat), 0x04#8)]
  | .encInit n | .decInit n =>
    [(decide (1 ≤ n.toNat ∧ n.toNat ≤ s.params.nmax), 0x02#8), (s.fmu.phase = .sealed, 0x07#8),
     (decide (s.fmu.total.toNat ≤ quarterRange n.toNat + 2), 0x06#8)]
  | .encWrite a =>
    [(s.enc.phase = .active, 0x07#8), (decide (a.toNat < s.fmu.nsym.toNat), 0x04#8),
     (memRead s.fmu.cnt a.toNat ≠ some 0#32, 0x05#8)]
  | .encFinish => [(s.enc.phase = .active, 0x07#8), (decide (s.enc.pend.toNat < 2 ^ s.params.pbw - 1), 0x0A#8)]
  | .decRead => [(s.dec.phase = .active, 0x07#8)]

/-- The error of the first check that fails. -/
def firstFailure : List (Bool × Byte) → Option Byte
  | [] => none
  | (passes, e) :: rest => if passes then firstFailure rest else some e

/-- The commands that answer a value (30_encoding.md R94, R96). -/
def returnsValue : Instr → Bool
  | .fmNsym | .fmLow _ | .fmHigh _ | .fmTotal | .decRead | .sysRdreg _ => true
  | .sysReset | .fmClear | .fmPush _ | .fmSeal | .encInit _ | .encWrite _ | .encFinish | .decInit _ => false

/-- Every register number of the map with the bits its content has (10_state.md R24 to R48): STATUS has
six, ERRINFO and CAP2 sixteen, the coder registers NMAX, the pending counter PBW. -/
def registerWidths (p : Params) : List (Word32 × Nat) :=
  [(0x00#32, 6), (0x01#32, 16), (0x02#32, 32), (0x03#32, 32), (0x04#32, 32), (0x05#32, 32), (0x06#32, 16),
   (0x10#32, 6), (0x11#32, p.nmax), (0x12#32, p.nmax), (0x13#32, p.pbw),
   (0x20#32, 6), (0x21#32, p.nmax), (0x22#32, p.nmax), (0x23#32, p.nmax)]

end Sys2Proof.Machine

open Sys2Proof Sys2Proof.Machine

/-! ## Encoding -/

/-- 30_encoding.md R90, R93, R100: every command, with every operand, is decoded from its own word. -/
def Obligations.EncodedCommandsDecodeToThemselves : Prop :=
  ∀ i : Instr, decode (encode i) = .command i

/-- 30_encoding.md R91: a word is a command's exactly when the row's mask and match select it, and then
its operand is bits 31:0. -/
def Obligations.DecodeSelectsRowsByMaskAndMatch : Prop :=
  ∀ (w : Word64) (i : Instr), decode w = .command i ↔
    (w &&& (match i.format with
      | .Z => 0xFFFFFFFFFFFFFFFF#64
      | .A => 0xFFFFFFFF00000000#64)) = i.opcode.setWidth 64 <<< 56 ∧
    (i.format = .A → i.arg = w.extractLsb' 0 32)

/-- 30_encoding.md R93: the well-formed words are exactly those that are a command; every other word is
illegal. -/
def Obligations.WellFormedWordsAreExactlyTheCommands : Prop :=
  ∀ w : Word64, (wellFormedWord w = true → ∃ i, decode w = .command i ∧ ∀ j, decode w = .command j → j = i) ∧
    (wellFormedWord w = false → ∃ why, decode w = .illegal why)

/-- 30_encoding.md R96: words written out from the spec's encodings decode to the commands they stand
for, one of each unit and format, and four words of 95_test_vectors.md V33 are illegal. -/
def Obligations.WordsOfTheSpecDecodeAsItSays : Prop :=
  decode 0x0100000000000000#64 = .command .sysReset ∧
  decode 0x0200000000000013#64 = .command (.sysRdreg 19#32) ∧
  decode 0x1100000000000041#64 = .command (.fmPush 65#32) ∧
  decode 0x1600000000000000#64 = .command .fmTotal ∧
  decode 0x21000000000003E7#64 = .command (.encWrite 999#32) ∧
  decode 0x2200000000000000#64 = .command .encFinish ∧
  decode 0x3000000000000008#64 = .command (.decInit 8#32) ∧
  decode 0x3100000000000000#64 = .command .decRead ∧
  decode 0x0000000000000000#64 = .illegal .unassignedOpcode ∧
  decode 0x1700000000000000#64 = .illegal .unassignedOpcode ∧
  decode 0x2200000000000005#64 = .illegal .operandInFormatZ ∧
  decode 0x1100000100000001#64 = .illegal .reservedField

/-- 30_encoding.md R100: the textual form; `FM.PUSH 65`, `DEC.INIT 0x8 ; width` and `ENC.FINISH` assemble to
their words, and a comment alone is a blank line. -/
def Obligations.TextAssemblesToCommandWords : Prop :=
  assemble [['F', 'M', '.', 'P', 'U', 'S', 'H', ' ', '6', '5'], [';', ' ', 'x'],
      ['D', 'E', 'C', '.', 'I', 'N', 'I', 'T', ' ', '0', 'x', '8', ' ', ';', 'n'],
      ['E', 'N', 'C', '.', 'F', 'I', 'N', 'I', 'S', 'H']] =
    some [0x1100000000000041#64, 0x3000000000000008#64, 0x2200000000000000#64]

/-! ## The step -/

/-- 20_memory.md R80 in the model's form (log 1, log 2): the command at the head of the inbox is taken off
it and run as the decoder reads it; nothing else is added around `exec`. -/
def Obligations.StepRunsTheDecodedCommand : Prop :=
  ∀ (s : State) (w : Word64) (rest : List HostEvent) (i : Instr),
    s.inbox = .command w :: rest → decode w = .command i → step s = exec i { s with inbox := rest }

/-- 30_encoding.md R97 and 60_exceptions.md R212: a word that is not well formed raises ERR_ILLEGAL_CMD
when FAULT = 0 and changes nothing else (the inbox is the model's own; log 1). -/
def Obligations.IllegalWordsRaiseIllegalCommand : Prop :=
  ∀ (s : State) (w : Word64) (rest : List HostEvent),
    s.inbox = .command w :: rest → wellFormedWord w = false → s.flt.fault = false →
    step s = .next (refusedWith { s with inbox := rest } 0x01#8 w)

/-- The model's choice of what the host can do beside commands (log 1, log 9), over 20_memory.md R66, R68
and 60_exceptions.md R238: bits appended to the source, a new source, an emptied sink, and no event at
all; each changes that and nothing else. -/
def Obligations.HostActsTouchOnlyTheHostSide : Prop :=
  ∀ (s : State) (bits : List Bit) (rest : List HostEvent),
    (s.inbox = [] → step s = .next s) ∧
    (s.inbox = .supplyBits bits :: rest → step s = .next { s with inbox := rest, inp := s.inp ++ bits }) ∧
    (s.inbox = .replaceSource bits :: rest → step s = .next { s with inbox := rest, inp := bits, inPos := 0 }) ∧
    (s.inbox = .emptySink :: rest → step s = .next { s with inbox := rest, out := [] })

/-! ## Reset -/

/-- 10_state.md R51: the state after reset, of every instance, its CAP and CAP2 the constants of the instance;
the machine's reset state is the default instance's (log 3). -/
def Obligations.ResetStateHoldsTheSpecsValues : Prop :=
  (∀ p : Params, p.legal = true → HoldsResetValues (State.resetWith p) ∧ (State.resetWith p).params = p ∧
    (∃ v, readRegister (State.resetWith p) 3#32 = some v ∧ v.toNat = p.amax * 2 ^ 8 + p.nmax) ∧
    (∃ v, readRegister (State.resetWith p) 6#32 = some v ∧ v.toNat = 32 * 2 ^ 8 + p.pbw)) ∧
  State.reset = State.resetWith { nmax := 32, amax := 256, pbw := 32 } ∧
  readRegister State.reset 3#32 = some 0x00010020#32 ∧ readRegister State.reset 6#32 = some 0x00002020#32

/-- 44_sys.md R181: SYS.RESET, faulted or not and in every phase, puts every register to its reset value
and answers OK; the table entries other than CUM[0], the streams and the parameters stay. -/
def Obligations.SysResetReturnsTheBlockToReset : Prop :=
  decode 0x0100000000000000#64 = .command .sysReset ∧
  ∀ s : State, ∃ t, exec .sysReset s = .next t ∧ HoldsResetValues t ∧
    t.fmu.cnt = s.fmu.cnt ∧ (∀ i, i ≠ 0 → memRead t.fmu.cum i = memRead s.fmu.cum i) ∧
    t.params = s.params ∧ t.inbox = s.inbox ∧ t.out = s.out ∧ t.inp = s.inp ∧ t.inPos = s.inPos ∧
    t.rsps = s.rsps ++ [0#64]

/-- 70_reset_and_hazards.md R240, R242: the hardware reset, between two commands (log 10), has the effect
of SYS.RESET on state and produces no response. -/
def Obligations.HardwareResetActsAsSysResetWithoutResponse : Prop :=
  ∀ (s : State) (rest : List HostEvent), s.inbox = .hardwareReset :: rest →
    ∃ t u, step s = .next t ∧ exec .sysReset { s with inbox := rest } = .next u ∧
      t = { u with rsps := s.rsps }

/-! ## The invariant -/

/-- 45_properties.md R191 to R193: the invariant holds after reset of every legal instance. -/
def Obligations.ResetStateMeetsTheInvariant : Prop :=
  State.Inv State.reset ∧ ∀ p : Params, p.legal = true → State.Inv (State.resetWith p)

/-- 10_state.md R27 and 45_properties.md R191 to R193: every step keeps the invariant, whatever word or
host act is next and whatever the bit source holds. -/
def Obligations.EveryStepKeepsTheInvariant : Prop :=
  ∀ s t : State, s.Inv → step s = .next t → t.Inv

/-- 20_memory.md R63, 41_coder_core.md R143, R146: from a state that meets the invariant no step stops;
every command terminates and no unreachable table entry is ever read. -/
def Obligations.NoStepStopsUnderTheInvariant : Prop :=
  ∀ s : State, s.Inv → ∃ t, step s = .next t

/-- 20_memory.md R63 and 93_implementation_defined.md U5: two states that differ only in unreachable table
entries give the same responses, bits and registers, step after step. -/
def Obligations.UnreachableEntriesCannotBeObserved : Prop :=
  ∀ s s' t : State, s.Inv → s.Agree s' → step s = .next t → ∃ t', step s' = .next t' ∧ t.Agree t'

/-! ## Responses and errors -/

/-- 60_exceptions.md R211: the number of every response code. -/
def Obligations.ErrorCodesHaveTheirNumbers : Prop :=
  Code.ok.byte = 0x00#8 ∧ Code.illegalCmd.byte = 0x01#8 ∧ Code.config.byte = 0x02#8 ∧
  Code.zeroTotal.byte = 0x03#8 ∧ Code.symbolRange.byte = 0x04#8 ∧ Code.zeroFreq.byte = 0x05#8 ∧
  Code.totalRange.byte = 0x06#8 ∧ Code.phase.byte = 0x07#8 ∧ Code.tableFull.byte = 0x08#8 ∧
  Code.countOvf.byte = 0x09#8 ∧ Code.pendingOvf.byte = 0x0A#8 ∧ Code.faulted.byte = 0x0B#8 ∧
  Code.badReg.byte = 0x0C#8

/-- 60_exceptions.md R225: fault entry writes FAULT, ERRCODE, ERROPC and ERRARG, answers the error with
VALUE 0, and does nothing else. -/
def Obligations.FaultEntryRecordsTheCommand : Prop :=
  ∀ (e : Code) (w : Word64) (s : State), ∃ t, raise e w s = .next t ∧
    t.flt.fault = true ∧ t.flt.errcode = e.byte ∧ t.flt.erropc = w.extractLsb' 56 8 ∧
    t.flt.errarg = w.extractLsb' 0 32 ∧
    t.rsps = s.rsps ++ [(e.byte ++ 0#56 : BitVec (8 + 56))] ∧
    t = { s with flt := t.flt, rsps := t.rsps } ∧ t.faultPin = true

/-- 30_encoding.md R94: every command answers exactly one word, an error code of 0x00 to 0x0C, then 24
zeros, then a value that is 0 for every error and for every command that returns none. -/
def Obligations.EveryCommandAnswersOneResponseWord : Prop :=
  ∀ (i : Instr) (s t : State), exec i s = .next t →
    ∃ (code : Byte) (value : Word32), t.rsps = s.rsps ++ [(code ++ (0#24 ++ value) : BitVec (8 + (24 + 32)))] ∧
      code.toNat ≤ 0x0C ∧ (code ≠ 0x00#8 → value = 0#32) ∧ (returnsValue i = false → value = 0#32)

/-- 60_exceptions.md R222, R227: while FAULT = 1 every word but a well-formed SYS.RESET and a SYS.RDREG of a
register answers ERR_FAULTED and changes nothing. -/
def Obligations.FaultedBlockRefusesCommands : Prop :=
  ∀ (s : State) (w : Word64) (rest : List HostEvent),
    s.inbox = .command w :: rest → s.flt.fault = true → decode w ≠ .command .sysReset →
    (∀ r, decode w = .command (.sysRdreg r) → readRegister s r = none) →
    step s = .next { s with inbox := rest, rsps := s.rsps ++ [0x0B00000000000000#64] }

/-- 60_exceptions.md R226: a command that ends in an error changes no register, table entry, phase or
stream; only the fault registers and its response. -/
def Obligations.FailingCommandsChangeNothingElse : Prop :=
  ∀ (i : Instr) (s t : State), s.flt.fault = false → exec i s = .next t → t.flt.fault = true →
    ∃ e : Code, e.recordable ∧ t = refusedWith s e.byte (encode i)

/-- 60_exceptions.md R229, R230: while FAULT = 1 the recorded error is kept, and only SYS.RESET or the
hardware reset ends the faulted condition. -/
def Obligations.FirstErrorIsKeptUntilReset : Prop :=
  ∀ s t : State, s.flt.fault = true → step s = .next t →
    t.flt = s.flt ∨
    (t.flt = { fault := false, errcode := 0#8, erropc := 0#8, errarg := 0#32 } ∧ ∃ rest,
      s.inbox = .hardwareReset :: rest ∨ s.inbox = .command 0x0100000000000000#64 :: rest)

/-- 60_exceptions.md R228: with FAULT = 0, the first check of the command's own list that fails decides
the error; if none fails the command ends with FAULT = 0, or with
ERR_PENDING_OVF found during an ENC.WRITE. -/
def Obligations.FirstFailedCheckDecidesTheError : Prop :=
  ∀ (i : Instr) (s : State), s.Inv → s.flt.fault = false →
    (∀ e, firstFailure (commandChecks s i) = some e → exec i s = .next (refusedWith s e (encode i))) ∧
    (firstFailure (commandChecks s i) = none → ∃ t, exec i s = .next t ∧
      (t.flt = s.flt ∨ ((∃ a, i = .encWrite a) ∧ t = refusedWith s 0x0A#8 (encode i))))

/-! ## Whole-machine rules -/

/-- 20_memory.md R85: no command but FM.CLEAR and SYS.RESET changes anything of a sealed table. -/
def Obligations.SealedTableIsImmutable : Prop :=
  ∀ (i : Instr) (s t : State), s.fmu.phase = .sealed → i ≠ .fmClear → i ≠ .sysReset →
    exec i s = .next t → t.fmu = s.fmu

/-- 10_state.md R26, R34, R40: the transitions of the three phases; no command makes any other. -/
def Obligations.PhasesMoveOnlyAsTheSpecSays : Prop :=
  ∀ (i : Instr) (s t : State), exec i s = .next t →
    (t.fmu.phase = s.fmu.phase ∨ (i = .sysReset ∧ t.fmu.phase = .empty) ∨ (i = .fmClear ∧ t.fmu.phase = .building) ∨
      (i = .fmSeal ∧ s.fmu.phase = .building ∧ 0 < s.fmu.total.toNat ∧ t.fmu.phase = .sealed)) ∧
    (t.enc.phase = s.enc.phase ∨ ((i = .sysReset ∨ i = .fmClear) ∧ t.enc.phase = .idle) ∨
      ((∃ n, i = .encInit n) ∧ s.fmu.phase = .sealed ∧ t.enc.phase = .active) ∨
      (i = .encFinish ∧ s.enc.phase = .active ∧ t.enc.phase = .done)) ∧
    (t.dec.phase = s.dec.phase ∨ ((i = .sysReset ∨ i = .fmClear) ∧ t.dec.phase = .idle) ∨
      ((∃ n, i = .decInit n) ∧ s.fmu.phase = .sealed ∧ t.dec.phase = .active))

/-- 10_state.md R50, 20_memory.md R66, R68: a command never changes IN, the parameters or the inbox; OUT is
only appended to, by ENC.WRITE and ENC.FINISH; IN_POS only grows, by DEC.INIT and DEC.READ. -/
def Obligations.StreamsMoveOnlyAsTheSpecSays : Prop :=
  ∀ (i : Instr) (s t : State), exec i s = .next t →
    t.inp = s.inp ∧ t.params = s.params ∧ t.inbox = s.inbox ∧
    (∃ bits, t.out = s.out ++ bits ∧ (bits ≠ [] → i = .encFinish ∨ ∃ a, i = .encWrite a)) ∧
    s.inPos ≤ t.inPos ∧ (s.inPos ≠ t.inPos → i = .decRead ∨ ∃ n, i = .decInit n)

/-- 20_memory.md R86: the two coders are independent but for the table: an ENC command neither reads nor
writes the decoder or the source, a DEC command neither reads nor writes the encoder or the sink. -/
def Obligations.CodersAreIndependent : Prop :=
  ∀ (i : Instr) (s t : State), exec i s = .next t →
    (((∃ n, i = .encInit n) ∨ (∃ a, i = .encWrite a) ∨ i = .encFinish) →
      ∀ (d : Dec) (bits : List Bit) (pos : Nat),
        exec i { s with dec := d, inp := bits, inPos := pos } = .next { t with dec := d, inp := bits, inPos := pos }) ∧
    (((∃ n, i = .decInit n) ∨ i = .decRead) →
      ∀ (e : Enc) (bits : List Bit),
        exec i { s with enc := e, out := bits } = .next { t with enc := e, out := bits })

/-- 20_memory.md R69: the block cannot tell a real 0 from the padding past the end of the source. -/
def Obligations.PaddingIsIndistinguishableFromZeros : Prop :=
  ∀ (i : Instr) (s t : State) (k : Nat), exec i s = .next t →
    exec i { s with inp := s.inp ++ List.replicate k false } =
      .next { t with inp := s.inp ++ List.replicate k false }

/-! ## System commands -/

/-- 44_sys.md R182 and 10_state.md R45: SYS.RDREG of every register number answers its content, faulted or
not, and changes nothing; any other number raises ERR_BAD_REG when FAULT = 0 and is refused with
ERR_FAULTED when FAULT = 1. -/
def Obligations.SysRdregReadsTheRegisterMap : Prop :=
  (∀ r : Word32, decode (0x02000000#32 ++ r : BitVec (32 + 32)) = .command (.sysRdreg r)) ∧
  ∀ s : State,
    (∀ p ∈ [(0x00#32, statusWord s), (0x01#32, errinfoWord s), (0x02#32, s.flt.errarg), (0x03#32, capWord s.params),
        (0x04#32, s.fmu.nsym), (0x05#32, s.fmu.total), (0x06#32, cap2Word s.params),
        (0x10#32, s.enc.nbits.setWidth 32), (0x11#32, s.enc.low), (0x12#32, s.enc.high), (0x13#32, s.enc.pend),
        (0x20#32, s.dec.nbits.setWidth 32), (0x21#32, s.dec.low), (0x22#32, s.dec.high), (0x23#32, s.dec.code)],
      exec (.sysRdreg p.1) s = .next { s with rsps := s.rsps ++ [okWord p.2] }) ∧
    (∀ r : Word32, ¬ (r.toNat ≤ 6 ∨ (16 ≤ r.toNat ∧ r.toNat ≤ 19) ∨ (32 ≤ r.toNat ∧ r.toNat ≤ 35)) →
      exec (.sysRdreg r) s =
        if s.flt.fault then .next { s with rsps := s.rsps ++ [0x0B00000000000000#64] }
        else .next (refusedWith s 0x0C#8 (0x02000000#32 ++ r : BitVec (32 + 32))))

/-- 10_state.md R46, R47, R48: the fields of STATUS, ERRINFO, CAP and CAP2, and zeros elsewhere, in every
legal instance. -/
def Obligations.StatusWordsHoldTheirFields : Prop :=
  ∀ s : State, s.params.legal = true →
    (statusWord s).getLsbD 0 = s.flt.fault ∧
    (statusWord s).extractLsb' 1 2 = (match s.fmu.phase with
      | .empty => 0#2
      | .building => 1#2
      | .sealed => 2#2) ∧
    (statusWord s).extractLsb' 3 2 = (match s.enc.phase with
      | .idle => 0#2
      | .active => 1#2
      | .done => 2#2) ∧
    (statusWord s).getLsbD 5 = (match s.dec.phase with
      | .idle => false
      | .active => true) ∧
    (statusWord s).extractLsb' 6 26 = 0#26 ∧
    (errinfoWord s).extractLsb' 0 8 = s.flt.errcode ∧ (errinfoWord s).extractLsb' 8 8 = s.flt.erropc ∧
    (errinfoWord s).extractLsb' 16 16 = 0#16 ∧
    (capWord s.params).toNat = s.params.amax * 2 ^ 8 + s.params.nmax ∧
    (cap2Word s.params).toNat = 32 * 2 ^ 8 + s.params.pbw

/-- 10_state.md R21, R45: after every step from a state that meets the invariant, SYS.RDREG of each register
answers OK with a value below 2 to the power of the register's width, so its unused high bits read 0; in a
session the coder's bounds are ordered and below 2^N (R29, R36). -/
def Obligations.RegistersFitTheirWidths : Prop :=
  ∀ s t : State, s.Inv → step s = .next t →
    t.params = s.params ∧
    (∀ p ∈ registerWidths s.params, ∃ v : Word32,
      exec (.sysRdreg p.1) t = .next { t with rsps := t.rsps ++ [okWord v] } ∧ v.toNat < 2 ^ p.2) ∧
    (t.enc.phase ≠ .idle → t.enc.low.toNat ≤ t.enc.high.toNat ∧ t.enc.high.toNat < 2 ^ t.enc.nbits.toNat) ∧
    (t.dec.phase ≠ .idle → t.dec.low.toNat ≤ t.dec.code.toNat ∧ t.dec.code.toNat ≤ t.dec.high.toNat ∧
      t.dec.high.toNat < 2 ^ t.dec.nbits.toNat)

/-! ## FMU commands -/

/-- 40_fm.md R111: FM.CLEAR, accepted in every phase, empties the table and ends both coder sessions; the
other table entries and the coder registers stay. -/
def Obligations.FmClearStartsAnEmptyTable : Prop :=
  decode 0x1000000000000000#64 = .command .fmClear ∧
  ∀ s : State, s.flt.fault = false → ∃ t, exec .fmClear s = .next t ∧
    t.fmu.nsym = 0#32 ∧ t.fmu.total = 0#32 ∧ t.fmu.phase = .building ∧
    memRead t.fmu.cum 0 = some 0#32 ∧ (∀ i, i ≠ 0 → memRead t.fmu.cum i = memRead s.fmu.cum i) ∧
    t.fmu.cnt = s.fmu.cnt ∧
    t = { s with
      fmu := t.fmu
      enc := { s.enc with phase := .idle }
      dec := { s.dec with phase := .idle }
      rsps := s.rsps ++ [0#64] }

/-- 40_fm.md R112: FM.PUSH appends a count and the running sum, or raises ERR_PHASE, ERR_TABLE_FULL or
ERR_COUNT_OVF, in that order. -/
def Obligations.FmPushAppendsOneCount : Prop :=
  (∀ c : Word32, decode (0x11000000#32 ++ c : BitVec (32 + 32)) = .command (.fmPush c)) ∧
  ∀ (c : Word32) (s : State), s.params.legal = true → s.flt.fault = false →
    let w : Word64 := (0x11000000#32 ++ c : BitVec (32 + 32))
    (s.fmu.phase ≠ .building → exec (.fmPush c) s = .next (refusedWith s 0x07#8 w)) ∧
    (s.fmu.phase = .building → s.params.amax ≤ s.fmu.nsym.toNat →
      exec (.fmPush c) s = .next (refusedWith s 0x08#8 w)) ∧
    (s.fmu.phase = .building → s.fmu.nsym.toNat < s.params.amax → 2 ^ 32 - 1 < s.fmu.total.toNat + c.toNat →
      exec (.fmPush c) s = .next (refusedWith s 0x09#8 w)) ∧
    (s.fmu.phase = .building → s.fmu.nsym.toNat < s.params.amax → s.fmu.total.toNat + c.toNat ≤ 2 ^ 32 - 1 →
      ∃ t, exec (.fmPush c) s = .next t ∧
        memRead t.fmu.cnt s.fmu.nsym.toNat = some c ∧
        (∀ i, i ≠ s.fmu.nsym.toNat → memRead t.fmu.cnt i = memRead s.fmu.cnt i) ∧
        memRead t.fmu.cum (s.fmu.nsym.toNat + 1) = some (s.fmu.total + c) ∧
        (∀ i, i ≠ s.fmu.nsym.toNat + 1 → memRead t.fmu.cum i = memRead s.fmu.cum i) ∧
        t.fmu.total.toNat = s.fmu.total.toNat + c.toNat ∧ t.fmu.nsym.toNat = s.fmu.nsym.toNat + 1 ∧
        t.fmu.phase = .building ∧ t = { s with fmu := t.fmu, rsps := s.rsps ++ [0#64] })

/-- 40_fm.md R113: FM.SEAL completes a table whose total is positive; else ERR_PHASE or ERR_ZERO_TOTAL. -/
def Obligations.FmSealCompletesThePositiveTable : Prop :=
  decode 0x1200000000000000#64 = .command .fmSeal ∧
  ∀ s : State, s.flt.fault = false →
    (s.fmu.phase ≠ .building → exec .fmSeal s = .next (refusedWith s 0x07#8 0x1200000000000000#64)) ∧
    (s.fmu.phase = .building → s.fmu.total.toNat = 0 →
      exec .fmSeal s = .next (refusedWith s 0x03#8 0x1200000000000000#64)) ∧
    (s.fmu.phase = .building → 0 < s.fmu.total.toNat →
      exec .fmSeal s = .next { s with fmu := { s.fmu with phase := .sealed }, rsps := s.rsps ++ [0#64] })

/-- 40_fm.md R114: FM.NSYM answers the alphabet size of a sealed table. -/
def Obligations.FmNsymAnswersTheAlphabetSize : Prop :=
  decode 0x1300000000000000#64 = .command .fmNsym ∧
  ∀ s : State, s.Inv → s.flt.fault = false →
    (s.fmu.phase ≠ .sealed → exec .fmNsym s = .next (refusedWith s 0x07#8 0x1300000000000000#64)) ∧
    (s.fmu.phase = .sealed → 1 ≤ s.fmu.nsym.toNat ∧
      exec .fmNsym s = .next { s with rsps := s.rsps ++ [okWord s.fmu.nsym] })

/-- 40_fm.md R117: FM.TOTAL answers the total of a sealed table. -/
def Obligations.FmTotalAnswersTheTotal : Prop :=
  decode 0x1600000000000000#64 = .command .fmTotal ∧
  ∀ s : State, s.Inv → s.flt.fault = false →
    (s.fmu.phase ≠ .sealed → exec .fmTotal s = .next (refusedWith s 0x07#8 0x1600000000000000#64)) ∧
    (s.fmu.phase = .sealed → 1 ≤ s.fmu.total.toNat ∧
      exec .fmTotal s = .next { s with rsps := s.rsps ++ [okWord s.fmu.total] })

/-- 40_fm.md R115: FM.LOW answers CUM[s] of a symbol in range; FM.LOW 0 is always 0. -/
def Obligations.FmLowAnswersTheLowerBound : Prop :=
  (∀ a : Word32, decode (0x14000000#32 ++ a : BitVec (32 + 32)) = .command (.fmLow a)) ∧
  ∀ (a : Word32) (s : State), s.Inv → s.flt.fault = false →
    let w : Word64 := (0x14000000#32 ++ a : BitVec (32 + 32))
    (s.fmu.phase ≠ .sealed → exec (.fmLow a) s = .next (refusedWith s 0x07#8 w)) ∧
    (s.fmu.phase = .sealed → s.fmu.nsym.toNat ≤ a.toNat → exec (.fmLow a) s = .next (refusedWith s 0x04#8 w)) ∧
    (s.fmu.phase = .sealed → a.toNat < s.fmu.nsym.toNat →
      ∃ v, memRead s.fmu.cum a.toNat = some v ∧ (a = 0#32 → v = 0#32) ∧
        exec (.fmLow a) s = .next { s with rsps := s.rsps ++ [okWord v] })

/-- 40_fm.md R116: FM.HIGH answers CUM[s + 1] of a symbol in range, CNT[s] above FM.LOW's answer; for the
last symbol it is TOTAL. -/
def Obligations.FmHighAnswersTheUpperBound : Prop :=
  (∀ a : Word32, decode (0x15000000#32 ++ a : BitVec (32 + 32)) = .command (.fmHigh a)) ∧
  ∀ (a : Word32) (s : State), s.Inv → s.flt.fault = false →
    let w : Word64 := (0x15000000#32 ++ a : BitVec (32 + 32))
    (s.fmu.phase ≠ .sealed → exec (.fmHigh a) s = .next (refusedWith s 0x07#8 w)) ∧
    (s.fmu.phase = .sealed → s.fmu.nsym.toNat ≤ a.toNat → exec (.fmHigh a) s = .next (refusedWith s 0x04#8 w)) ∧
    (s.fmu.phase = .sealed → a.toNat < s.fmu.nsym.toNat →
      ∃ v low count, memRead s.fmu.cum (a.toNat + 1) = some v ∧ memRead s.fmu.cum a.toNat = some low ∧
        memRead s.fmu.cnt a.toNat = some count ∧ v.toNat = low.toNat + count.toNat ∧
        (a.toNat + 1 = s.fmu.nsym.toNat → v = s.fmu.total) ∧
        exec (.fmHigh a) s = .next { s with rsps := s.rsps ++ [okWord v] })

/-- 40_fm.md R118: from any block that is not faulted, `FM.BUILD` of a non-empty count sequence that fits
answers OK to every command and leaves PC's model; nothing else but the sessions changes. -/
def Obligations.FmBuildLeavesTheModelOfTheCounts : Prop :=
  ∀ (counts : List Word32) (s : State), s.params.legal = true → s.flt.fault = false →
    1 ≤ counts.length → counts.length ≤ s.params.amax →
    0 < (counts.map BitVec.toNat).sum → (counts.map BitVec.toNat).sum < 2 ^ 32 →
    ∃ t, execAll (fmBuild counts) s = .next t ∧
      t.rsps = s.rsps ++ List.replicate (counts.length + 2) 0#64 ∧ t.flt = s.flt ∧
      t.fmu.nsym.toNat = counts.length ∧ t.fmu.total.toNat = (counts.map BitVec.toNat).sum ∧
      t.fmu.phase = .sealed ∧
      (∀ i < counts.length, memRead t.fmu.cnt i = counts[i]?) ∧
      (∀ i ≤ counts.length, (memRead t.fmu.cum i).map BitVec.toNat = some ((counts.take i).map BitVec.toNat).sum) ∧
      t.enc = { s.enc with phase := .idle } ∧ t.dec = { s.dec with phase := .idle } ∧
      t = { s with fmu := t.fmu, enc := t.enc, dec := t.dec, rsps := t.rsps }

/-! ## The coder core -/

/-- 41_coder_core.md R142: within its preconditions Narrow stays inside the old interval and is not empty. -/
def Obligations.NarrowStaysInsideTheInterval : Prop :=
  ∀ low high symlow symhigh total : Nat, low ≤ high → 0 < total → symlow < symhigh → symhigh ≤ total →
    total ≤ high - low + 1 →
    low ≤ (narrow low high symlow symhigh total).1 ∧
    (narrow low high symlow symhigh total).1 ≤ (narrow low high symlow symhigh total).2 ∧
    (narrow low high symlow symhigh total).2 ≤ high

/-- 41_coder_core.md R137, R138, R143: from any non-empty interval of the width the loop reaches class S
within N iterations, whatever the bit action gathers; each iteration doubles the range, and the interval
it stops at has at least the minimum range. -/
def Obligations.RenormalisationEndsWideWithinNIterations : Prop :=
  ∀ (N low high : Nat), 1 ≤ N → low ≤ high → high ≤ stateMask N →
    ∃ cs l h, RenormTrace N low high cs l h ∧ cs.length ≤ N ∧
      h - l + 1 = 2 ^ cs.length * (high - low + 1) ∧ l ≤ h ∧ h ≤ stateMask N ∧ minimumRange N ≤ h - l + 1 ∧
      ∀ {σ : Type} (f : RenormClass → σ → σ) (acc : σ),
        renormLoop N (fun c a => some (f c a)) N low high acc = .stop l h (cs.foldl (fun a c => f c a) acc)

/-- 43_dec.md R169: a code inside the interval gives a scaled value below the total. -/
def Obligations.ScaledValueIsBelowTheTotal : Prop :=
  ∀ low high code total : Nat, low ≤ code → code ≤ high → 0 < total → scaledValue low high code total < total

/-- 40_fm.md R119, R120, R121: the search answers the one symbol whose slice holds the value, and that
symbol has a positive count. -/
def Obligations.FindSymbolAnswersTheUniqueSymbol : Prop :=
  ∀ (p : Params) (f : Fmu) (value : Nat), FmuInv p f → value < f.total.toNat →
    ∃ sym a b count, findSymbol f.cum f.nsym.toNat value = some sym ∧ sym < f.nsym.toNat ∧
      memRead f.cum sym = some a ∧ memRead f.cum (sym + 1) = some b ∧ a.toNat ≤ value ∧ value < b.toNat ∧
      memRead f.cnt sym = some count ∧ 0 < count.toNat ∧
      ∀ sym' a' b', sym' < f.nsym.toNat → memRead f.cum sym' = some a' → memRead f.cum (sym' + 1) = some b' →
        a'.toNat ≤ value → value < b'.toNat → sym' = sym

/-! ## ENC commands -/

/-- 42_enc.md R151 (its initial interval is the spec's own, R133): ENC.INIT starts a session at a legal
width over a sealed table that fits, whatever E_PHASE is; else ERR_CONFIG, ERR_PHASE or ERR_TOTAL_RANGE. -/
def Obligations.EncInitStartsAFullInterval : Prop :=
  (∀ n : Word32, decode (0x20000000#32 ++ n : BitVec (32 + 32)) = .command (.encInit n)) ∧
  ∀ (n : Word32) (s : State), s.params.legal = true → s.flt.fault = false →
    let w : Word64 := (0x20000000#32 ++ n : BitVec (32 + 32))
    (n.toNat = 0 ∨ s.params.nmax < n.toNat → exec (.encInit n) s = .next (refusedWith s 0x02#8 w)) ∧
    (1 ≤ n.toNat → n.toNat ≤ s.params.nmax → s.fmu.phase ≠ .sealed →
      exec (.encInit n) s = .next (refusedWith s 0x07#8 w)) ∧
    (1 ≤ n.toNat → n.toNat ≤ s.params.nmax → s.fmu.phase = .sealed → minimumRange n.toNat < s.fmu.total.toNat →
      exec (.encInit n) s = .next (refusedWith s 0x06#8 w)) ∧
    (1 ≤ n.toNat → n.toNat ≤ s.params.nmax → s.fmu.phase = .sealed → s.fmu.total.toNat ≤ minimumRange n.toNat →
      ∃ t, exec (.encInit n) s = .next t ∧
        t.enc.nbits.toNat = n.toNat ∧ t.enc.low = 0#32 ∧ t.enc.high.toNat = 2 ^ n.toNat - 1 ∧
        t.enc.pend = 0#32 ∧ t.enc.phase = .active ∧
        t = { s with enc := t.enc, rsps := s.rsps ++ [0#64] })

/-- 42_enc.md R152, R153: ENC.WRITE narrows to the symbol's slice, renormalises, emits and defers bits; or
raises ERR_PHASE, ERR_SYMBOL_RANGE, ERR_ZERO_FREQ, or ERR_PENDING_OVF as a whole. With room for N more
deferred bits it always completes. -/
def Obligations.EncWriteNarrowsAndEmits : Prop :=
  (∀ a : Word32, decode (0x21000000#32 ++ a : BitVec (32 + 32)) = .command (.encWrite a)) ∧
  ∀ (a : Word32) (s : State), s.Inv → s.flt.fault = false →
    let w : Word64 := (0x21000000#32 ++ a : BitVec (32 + 32))
    let N := s.enc.nbits.toNat
    let range := s.enc.high.toNat - s.enc.low.toNat + 1
    (s.enc.phase ≠ .active → exec (.encWrite a) s = .next (refusedWith s 0x07#8 w)) ∧
    (s.enc.phase = .active → s.fmu.nsym.toNat ≤ a.toNat → exec (.encWrite a) s = .next (refusedWith s 0x04#8 w)) ∧
    (s.enc.phase = .active → a.toNat < s.fmu.nsym.toNat → memRead s.fmu.cnt a.toNat = some 0#32 →
      exec (.encWrite a) s = .next (refusedWith s 0x05#8 w)) ∧
    (s.enc.phase = .active → a.toNat < s.fmu.nsym.toNat → memRead s.fmu.cnt a.toNat ≠ some 0#32 →
      ∃ symlow symhigh cs low high,
        memRead s.fmu.cum a.toNat = some symlow ∧ memRead s.fmu.cum (a.toNat + 1) = some symhigh ∧
        RenormTrace N (s.enc.low.toNat + range * symlow.toNat / s.fmu.total.toNat)
          (s.enc.low.toNat + range * symhigh.toNat / s.fmu.total.toNat - 1) cs low high ∧
        cs.length ≤ N ∧
        (emission s.params.pmax cs s.enc.pend.toNat = none →
          exec (.encWrite a) s = .next (refusedWith s 0x0A#8 w)) ∧
        (∀ bits pend, emission s.params.pmax cs s.enc.pend.toNat = some (bits, pend) →
          ∃ t, exec (.encWrite a) s = .next t ∧
            t.enc.low.toNat = low ∧ t.enc.high.toNat = high ∧ t.enc.pend.toNat = pend ∧
            t.enc.nbits = s.enc.nbits ∧ t.enc.phase = .active ∧
            t = { s with enc := t.enc, out := s.out ++ bits, rsps := s.rsps ++ [0#64] }) ∧
        (s.enc.pend.toNat + N ≤ s.params.pmax → emission s.params.pmax cs s.enc.pend.toNat ≠ none))

/-- 42_enc.md R152 with 41_coder_core.md R143 and 45_properties.md R192: with room for N more deferred bits,
ENC.WRITE of a symbol of positive count completes, appends bits, and leaves an interval of at least the
minimum range; nothing but the encoder's bounds and counter and the sink changes. -/
def Obligations.EncWriteCompletesWithRoom : Prop :=
  ∀ (a : Word32) (s : State), s.Inv → s.flt.fault = false → s.enc.phase = .active →
    a.toNat < s.fmu.nsym.toNat → memRead s.fmu.cnt a.toNat ≠ some 0#32 →
    s.enc.pend.toNat + s.enc.nbits.toNat ≤ s.params.pmax →
    ∃ t bits, exec (.encWrite a) s = .next t ∧
      t.enc.pend.toNat ≤ s.enc.pend.toNat + s.enc.nbits.toNat ∧
      minimumRange s.enc.nbits.toNat ≤ t.enc.high.toNat - t.enc.low.toNat + 1 ∧
      t.enc.nbits = s.enc.nbits ∧ t.enc.phase = .active ∧
      t = { s with enc := t.enc, out := s.out ++ bits, rsps := s.rsps ++ [0#64] }

/-- 42_enc.md R154: ENC.FINISH emits the bit of the quarter `low` lies in and the pending run, one longer,
and ends the session; at N = 1 the bit is 1. -/
def Obligations.EncFinishFlushesTheInterval : Prop :=
  decode 0x2200000000000000#64 = .command .encFinish ∧
  ∀ s : State, s.flt.fault = false →
    let w : Word64 := 0x2200000000000000#64
    (s.enc.phase ≠ .active → exec .encFinish s = .next (refusedWith s 0x07#8 w)) ∧
    (s.enc.phase = .active → 2 ^ s.params.pbw - 1 ≤ s.enc.pend.toNat →
      exec .encFinish s = .next (refusedWith s 0x0A#8 w)) ∧
    (s.enc.phase = .active → s.enc.pend.toNat < 2 ^ s.params.pbw - 1 →
      ∃ b : Bit, (b = false ↔ s.enc.low.toNat < quarterRange s.enc.nbits.toNat) ∧ (s.enc.nbits = 1#6 → b = true) ∧
        exec .encFinish s = .next { s with
          enc := { s.enc with pend := 0#32, phase := .done }
          out := s.out ++ b :: List.replicate (s.enc.pend.toNat + 1) (!b)
          rsps := s.rsps ++ [0#64] })

/-- 42_enc.md R156, 41_coder_core.md R137, R143: an ENC.WRITE that ends with FAULT = 0 runs the
renormalisation loop from the narrowed interval to the new bounds in at most N iterations and emits or defers
exactly one bit for each of them; every emitting iteration resolves the whole pending run, so at the end at
most the iterations of class U are pending beyond the old ones; each iteration doubles the range. -/
def Obligations.EncWriteAccountsForEveryIteration : Prop :=
  ∀ (a : Word32) (s t : State), s.Inv → s.flt.fault = false → exec (.encWrite a) s = .next t →
    t.flt.fault = false →
    let range := s.enc.high.toNat - s.enc.low.toNat + 1
    ∃ symlow symhigh cs, memRead s.fmu.cum a.toNat = some symlow ∧ memRead s.fmu.cum (a.toNat + 1) = some symhigh ∧
      RenormTrace s.enc.nbits.toNat (s.enc.low.toNat + range * symlow.toNat / s.fmu.total.toNat)
        (s.enc.low.toNat + range * symhigh.toNat / s.fmu.total.toNat - 1) cs t.enc.low.toNat t.enc.high.toNat ∧
      cs.length ≤ s.enc.nbits.toNat ∧
      t.out.length + t.enc.pend.toNat = s.out.length + s.enc.pend.toNat + cs.length ∧
      t.enc.pend.toNat ≤ s.enc.pend.toNat + cs.count .U ∧
      t.enc.high.toNat - t.enc.low.toNat + 1 = 2 ^ cs.length *
        (range * symhigh.toNat / s.fmu.total.toNat - range * symlow.toNat / s.fmu.total.toNat)

/-! ## DEC commands -/

/-- 43_dec.md R166 (its initial interval is the spec's own, R133): DEC.INIT primes `code` with the next n
source bits, the first one most significant, 0 past the end; a refused one takes no bit. -/
def Obligations.DecInitPrimesTheCode : Prop :=
  (∀ n : Word32, decode (0x30000000#32 ++ n : BitVec (32 + 32)) = .command (.decInit n)) ∧
  ∀ (n : Word32) (s : State), s.params.legal = true → s.flt.fault = false →
    let w : Word64 := (0x30000000#32 ++ n : BitVec (32 + 32))
    (n.toNat = 0 ∨ s.params.nmax < n.toNat → exec (.decInit n) s = .next (refusedWith s 0x02#8 w)) ∧
    (1 ≤ n.toNat → n.toNat ≤ s.params.nmax → s.fmu.phase ≠ .sealed →
      exec (.decInit n) s = .next (refusedWith s 0x07#8 w)) ∧
    (1 ≤ n.toNat → n.toNat ≤ s.params.nmax → s.fmu.phase = .sealed → minimumRange n.toNat < s.fmu.total.toNat →
      exec (.decInit n) s = .next (refusedWith s 0x06#8 w)) ∧
    (1 ≤ n.toNat → n.toNat ≤ s.params.nmax → s.fmu.phase = .sealed → s.fmu.total.toNat ≤ minimumRange n.toNat →
      ∃ t, exec (.decInit n) s = .next t ∧
        t.dec.nbits.toNat = n.toNat ∧ t.dec.low = 0#32 ∧ t.dec.high.toNat = 2 ^ n.toNat - 1 ∧
        t.dec.code.toNat = bitsValue s.inp n.toNat s.inPos ∧ t.dec.phase = .active ∧
        t = { s with dec := t.dec, inPos := s.inPos + n.toNat, rsps := s.rsps ++ [0#64] })

/-- 43_dec.md R167, R168: DEC.READ answers the symbol whose slice holds the scaled value, narrows to it and
renormalises, taking one source bit an iteration; the session active, it cannot fail. -/
def Obligations.DecReadAnswersTheSymbolOfTheCode : Prop :=
  decode 0x3100000000000000#64 = .command .decRead ∧
  ∀ s : State, s.Inv → s.flt.fault = false →
    let N := s.dec.nbits.toNat
    let range := s.dec.high.toNat - s.dec.low.toNat + 1
    let value := ((s.dec.code.toNat - s.dec.low.toNat + 1) * s.fmu.total.toNat - 1) / range
    (s.dec.phase ≠ .active → exec .decRead s = .next (refusedWith s 0x07#8 0x3100000000000000#64)) ∧
    (s.dec.phase = .active →
      ∃ sym symlow symhigh count cs low high t,
        sym < s.fmu.nsym.toNat ∧
        memRead s.fmu.cum sym = some symlow ∧ memRead s.fmu.cum (sym + 1) = some symhigh ∧
        symlow.toNat ≤ value ∧ value < symhigh.toNat ∧
        memRead s.fmu.cnt sym = some count ∧ 0 < count.toNat ∧
        RenormTrace N (s.dec.low.toNat + range * symlow.toNat / s.fmu.total.toNat)
          (s.dec.low.toNat + range * symhigh.toNat / s.fmu.total.toNat - 1) cs low high ∧
        cs.length ≤ N ∧ exec .decRead s = .next t ∧
        t.dec.low.toNat = low ∧ t.dec.high.toNat = high ∧
        t.dec.code.toNat = windowAfter N s.inp cs s.dec.code.toNat s.inPos ∧
        t.dec.nbits = s.dec.nbits ∧ t.dec.phase = .active ∧
        t = { s with
          dec := t.dec
          inPos := s.inPos + cs.length
          rsps := s.rsps ++ [okWord (BitVec.ofNat 32 sym)] })

/-- 43_dec.md R170, R172: whatever bits the source delivers, a DEC.READ of an active session answers OK and
leaves `code` inside the interval. -/
def Obligations.NoSourceContentIsAnError : Prop :=
  ∀ (s : State) (bits : List Bit), s.Inv → s.flt.fault = false → s.dec.phase = .active →
    ∃ t v, exec .decRead { s with inp := bits } = .next t ∧ t.flt.fault = false ∧ t.dec.phase = .active ∧
      t.rsps = s.rsps ++ [okWord v] ∧
      t.dec.low.toNat ≤ t.dec.code.toNat ∧ t.dec.code.toNat ≤ t.dec.high.toNat

/-! ## Sessions -/

/-- 45_properties.md R190: in a valid setting, with room in the pending counter, every command of `Enc`
answers OK. -/
def Obligations.ValidEncodingSessionsAnswerOk : Prop :=
  ∀ (p : Params) (counts syms : List Word32) (n : Word32), p.legal = true →
    1 ≤ n.toNat → n.toNat ≤ p.nmax → 1 ≤ counts.length → counts.length ≤ p.amax →
    0 < (counts.map BitVec.toNat).sum → (counts.map BitVec.toNat).sum ≤ minimumRange n.toNat →
    n.toNat * syms.length < p.pmax →
    (∀ a ∈ syms, ∃ c, counts[a.toNat]? = some c ∧ 0 < c.toNat) →
    ∃ t, execAll (encodeSession counts n syms) (State.resetWith p) = .next t ∧ t.flt.fault = false ∧
      t.enc.phase = .done ∧ t.rsps = List.replicate (counts.length + syms.length + 4) 0#64

/-- 45_properties.md R194, R201, R204: the round trip. If an encoding session ends with FAULT = 0, then a
decoding session of the same table and width, on its message followed by any bits whatever, answers OK to
every command and returns the symbols; it ends in lockstep with the encoder, `N - 2` bits past the
message (one bit short of it at N = 1). -/
def Obligations.MessagesDecodeToTheirSymbols : Prop :=
  ∀ (p : Params) (counts syms : List Word32) (n : Word32) (tail : List Bit) (e : State), p.legal = true →
    execAll (encodeSession counts n syms) (State.resetWith p) = .next e → e.flt.fault = false →
    ∃ d, execAll (decodeSession counts n syms.length) { State.resetWith p with inp := e.out ++ tail } = .next d ∧
      d.flt.fault = false ∧
      d.rsps = List.replicate (counts.length + 3) 0#64 ++ syms.map okWord ∧
      d.dec.low = e.enc.low ∧ d.dec.high = e.enc.high ∧
      d.inPos + 2 = n.toNat + e.out.length

/-- 20_memory.md R70, R71: the bytes of a packed bit sequence and the bits of a byte sequence, most
significant first, 0 where the bits have ended; unpacking a packed sequence gives it back, followed by 0 to
7 zeros. -/
def Obligations.UnpackUndoesPackUpToZeros : Prop :=
  (∀ out : List Bit, (pack out).length = (out.length + 7) / 8 ∧
    ∀ j b, (pack out)[j]? = some b →
      b.toNat = ((List.range 8).map fun i => (out[8 * j + i]?.getD false).toNat * 2 ^ (7 - i)).sum) ∧
  (∀ bytes : List Byte, (unpack bytes).length = 8 * bytes.length ∧
    ∀ j b, bytes[j]? = some b → ∀ i < 8, (unpack bytes)[8 * j + i]? = some (decide (b.toNat / 2 ^ (7 - i) % 2 = 1))) ∧
  ∀ out : List Bit, ∃ k, k < 8 ∧ unpack (pack out) = out ++ List.replicate k false
end

