-- ==== Sys2Proof/Laws/Memory.lean ====
section
/-! SUPPORT. The laws of the table memory (20_memory.md R60, R61): a read after a write, and that a write
keeps the canonical form and the extent of a table. -/

namespace Sys2Proof.Machine

theorem memRead_memWrite (m : Memory) (i k : Nat) (v : Word32) :
    memRead (memWrite m i v) k = if k = i then some v else memRead m k := by
  induction m with
  | nil => simp [memWrite, memRead]
  | cons e m ih =>
    obtain ⟨j, u⟩ := e
    unfold memWrite
    by_cases h1 : i < j
    · simp [h1, memRead]
    · by_cases h2 : i = j
      · subst h2
        by_cases hk : k = i <;> simp [memRead, hk]
      · by_cases hk : k = j
        · have : k ≠ i := fun h => h2 (h ▸ hk)
          simp [h1, h2, memRead, hk]
          omega
        · simp [h1, h2, memRead, hk, ih]

@[simp] theorem memRead_memWrite_same (m : Memory) (i : Nat) (v : Word32) :
    memRead (memWrite m i v) i = some v := by simp [memRead_memWrite]

theorem memRead_memWrite_other (m : Memory) {i k : Nat} (v : Word32) (h : k ≠ i) :
    memRead (memWrite m i v) k = memRead m k := by simp [memRead_memWrite, h]

theorem memWrite_keeps_risingFrom (m : Memory) (lo i : Nat) (v : Word32) (hi : lo ≤ i)
    (h : Memory.risingFrom lo m = true) : Memory.risingFrom lo (memWrite m i v) = true := by
  induction m generalizing lo with
  | nil => simp [memWrite, Memory.risingFrom, hi]
  | cons e m ih =>
    obtain ⟨j, u⟩ := e
    simp only [Memory.risingFrom, Bool.and_eq_true, decide_eq_true_eq] at h
    unfold memWrite
    by_cases h1 : i < j
    · have : i + 1 ≤ j := h1
      simp [h1, Memory.risingFrom, hi, this, h.2]
    · by_cases h2 : i = j
      · subst h2
        simp [Memory.risingFrom, hi, h.2]
      · have h3 := ih (j + 1) (by omega) h.2
        simp [h1, h2, Memory.risingFrom, h.1, h3]

/-- Every table write keeps the canonical form. -/
theorem memWrite_keeps_wf (m : Memory) (i : Nat) (v : Word32) (h : m.wf = true) :
    (memWrite m i v).wf = true :=
  memWrite_keeps_risingFrom m 0 i v (Nat.zero_le i) h

/-- An entry of a table after a write is the written one or an old one. -/
theorem mem_memWrite {m : Memory} {i : Nat} {v : Word32} {e : Nat × Word32} (h : e ∈ memWrite m i v) :
    e = (i, v) ∨ e ∈ m := by
  induction m with
  | nil => simpa [memWrite] using h
  | cons d m ih =>
    obtain ⟨j, u⟩ := d
    unfold memWrite at h
    split at h
    · simpa [List.mem_cons] using h
    · split at h
      · rcases List.mem_cons.mp h with h | h
        · exact .inl h
        · exact .inr (List.mem_cons_of_mem _ h)
      · rcases List.mem_cons.mp h with h | h
        · exact .inr (h ▸ List.mem_cons_self)
        · rcases ih h with h | h
          · exact .inl h
          · exact .inr (List.mem_cons_of_mem _ h)

/-- A read that finds a value found a listed entry. -/
theorem mem_of_memRead {m : Memory} {i : Nat} {v : Word32} (h : memRead m i = some v) : (i, v) ∈ m := by
  induction m with
  | nil => simp [memRead] at h
  | cons e m ih =>
    obtain ⟨j, u⟩ := e
    unfold memRead at h
    split at h
    · simp_all
    · exact List.mem_cons_of_mem _ (ih h)

/-- The tables after reset are in canonical form. -/
theorem reset_tables_wf : Fmu.reset.cnt.wf = true ∧ Fmu.reset.cum.wf = true := by decide

end Sys2Proof.Machine
end

