-- ==== Sys2Proof/Laws/State.lean ====
section
/-! SUPPORT. One lemma per field of State per named update, each true by rfl, so that no later proof
unfolds a record update. -/

namespace Sys2Proof.Machine

/-! ### respond -/

@[simp] theorem respond_params (c : Code) (v : Word32) (s : State) : (respond c v s).params = s.params := rfl
@[simp] theorem respond_fmu (c : Code) (v : Word32) (s : State) : (respond c v s).fmu = s.fmu := rfl
@[simp] theorem respond_enc (c : Code) (v : Word32) (s : State) : (respond c v s).enc = s.enc := rfl
@[simp] theorem respond_dec (c : Code) (v : Word32) (s : State) : (respond c v s).dec = s.dec := rfl
@[simp] theorem respond_flt (c : Code) (v : Word32) (s : State) : (respond c v s).flt = s.flt := rfl
@[simp] theorem respond_inbox (c : Code) (v : Word32) (s : State) : (respond c v s).inbox = s.inbox := rfl
@[simp] theorem respond_rsps (c : Code) (v : Word32) (s : State) :
    (respond c v s).rsps = s.rsps ++ [responseWord c.byte v] := rfl
@[simp] theorem respond_out (c : Code) (v : Word32) (s : State) : (respond c v s).out = s.out := rfl
@[simp] theorem respond_inp (c : Code) (v : Word32) (s : State) : (respond c v s).inp = s.inp := rfl
@[simp] theorem respond_inPos (c : Code) (v : Word32) (s : State) : (respond c v s).inPos = s.inPos := rfl

/-! ### faultEntry -/

@[simp] theorem faultEntry_params (e : Code) (w : Word64) (s : State) : (faultEntry e w s).params = s.params := rfl
@[simp] theorem faultEntry_fmu (e : Code) (w : Word64) (s : State) : (faultEntry e w s).fmu = s.fmu := rfl
@[simp] theorem faultEntry_enc (e : Code) (w : Word64) (s : State) : (faultEntry e w s).enc = s.enc := rfl
@[simp] theorem faultEntry_dec (e : Code) (w : Word64) (s : State) : (faultEntry e w s).dec = s.dec := rfl
@[simp] theorem faultEntry_flt (e : Code) (w : Word64) (s : State) : (faultEntry e w s).flt = faultRegsOf e w := rfl
@[simp] theorem faultEntry_inbox (e : Code) (w : Word64) (s : State) : (faultEntry e w s).inbox = s.inbox := rfl
@[simp] theorem faultEntry_rsps (e : Code) (w : Word64) (s : State) :
    (faultEntry e w s).rsps = s.rsps ++ [responseWord e.byte 0#32] := rfl
@[simp] theorem faultEntry_out (e : Code) (w : Word64) (s : State) : (faultEntry e w s).out = s.out := rfl
@[simp] theorem faultEntry_inp (e : Code) (w : Word64) (s : State) : (faultEntry e w s).inp = s.inp := rfl
@[simp] theorem faultEntry_inPos (e : Code) (w : Word64) (s : State) : (faultEntry e w s).inPos = s.inPos := rfl

/-! ### sinkPut -/

@[simp] theorem sinkPut_params (bits : List Bit) (s : State) : (sinkPut bits s).params = s.params := rfl
@[simp] theorem sinkPut_fmu (bits : List Bit) (s : State) : (sinkPut bits s).fmu = s.fmu := rfl
@[simp] theorem sinkPut_enc (bits : List Bit) (s : State) : (sinkPut bits s).enc = s.enc := rfl
@[simp] theorem sinkPut_dec (bits : List Bit) (s : State) : (sinkPut bits s).dec = s.dec := rfl
@[simp] theorem sinkPut_flt (bits : List Bit) (s : State) : (sinkPut bits s).flt = s.flt := rfl
@[simp] theorem sinkPut_inbox (bits : List Bit) (s : State) : (sinkPut bits s).inbox = s.inbox := rfl
@[simp] theorem sinkPut_rsps (bits : List Bit) (s : State) : (sinkPut bits s).rsps = s.rsps := rfl
@[simp] theorem sinkPut_out (bits : List Bit) (s : State) : (sinkPut bits s).out = s.out ++ bits := rfl
@[simp] theorem sinkPut_inp (bits : List Bit) (s : State) : (sinkPut bits s).inp = s.inp := rfl
@[simp] theorem sinkPut_inPos (bits : List Bit) (s : State) : (sinkPut bits s).inPos = s.inPos := rfl

/-! ### takeEvent -/

@[simp] theorem takeEvent_params (rest : List HostEvent) (s : State) : (takeEvent rest s).params = s.params := rfl
@[simp] theorem takeEvent_fmu (rest : List HostEvent) (s : State) : (takeEvent rest s).fmu = s.fmu := rfl
@[simp] theorem takeEvent_enc (rest : List HostEvent) (s : State) : (takeEvent rest s).enc = s.enc := rfl
@[simp] theorem takeEvent_dec (rest : List HostEvent) (s : State) : (takeEvent rest s).dec = s.dec := rfl
@[simp] theorem takeEvent_flt (rest : List HostEvent) (s : State) : (takeEvent rest s).flt = s.flt := rfl
@[simp] theorem takeEvent_inbox (rest : List HostEvent) (s : State) : (takeEvent rest s).inbox = rest := rfl
@[simp] theorem takeEvent_rsps (rest : List HostEvent) (s : State) : (takeEvent rest s).rsps = s.rsps := rfl
@[simp] theorem takeEvent_out (rest : List HostEvent) (s : State) : (takeEvent rest s).out = s.out := rfl
@[simp] theorem takeEvent_inp (rest : List HostEvent) (s : State) : (takeEvent rest s).inp = s.inp := rfl
@[simp] theorem takeEvent_inPos (rest : List HostEvent) (s : State) : (takeEvent rest s).inPos = s.inPos := rfl

/-! ### presentFirst -/

@[simp] theorem presentFirst_params (w : Word64) (s : State) : (presentFirst w s).params = s.params := rfl
@[simp] theorem presentFirst_fmu (w : Word64) (s : State) : (presentFirst w s).fmu = s.fmu := rfl
@[simp] theorem presentFirst_enc (w : Word64) (s : State) : (presentFirst w s).enc = s.enc := rfl
@[simp] theorem presentFirst_dec (w : Word64) (s : State) : (presentFirst w s).dec = s.dec := rfl
@[simp] theorem presentFirst_flt (w : Word64) (s : State) : (presentFirst w s).flt = s.flt := rfl
@[simp] theorem presentFirst_inbox (w : Word64) (s : State) : (presentFirst w s).inbox = .command w :: s.inbox := rfl
@[simp] theorem presentFirst_rsps (w : Word64) (s : State) : (presentFirst w s).rsps = s.rsps := rfl
@[simp] theorem presentFirst_out (w : Word64) (s : State) : (presentFirst w s).out = s.out := rfl
@[simp] theorem presentFirst_inp (w : Word64) (s : State) : (presentFirst w s).inp = s.inp := rfl
@[simp] theorem presentFirst_inPos (w : Word64) (s : State) : (presentFirst w s).inPos = s.inPos := rfl

/-! ### resetBlock -/

@[simp] theorem resetBlock_params (s : State) : (resetBlock s).params = s.params := rfl
@[simp] theorem resetBlock_fmu (s : State) :
    (resetBlock s).fmu =
      { s.fmu with cum := memWrite s.fmu.cum 0 0#32, nsym := 0#32, total := 0#32, phase := .empty } := rfl
@[simp] theorem resetBlock_enc (s : State) : (resetBlock s).enc = Enc.reset := rfl
@[simp] theorem resetBlock_dec (s : State) : (resetBlock s).dec = Dec.reset := rfl
@[simp] theorem resetBlock_flt (s : State) : (resetBlock s).flt = FaultRegs.reset := rfl
@[simp] theorem resetBlock_inbox (s : State) : (resetBlock s).inbox = s.inbox := rfl
@[simp] theorem resetBlock_rsps (s : State) : (resetBlock s).rsps = s.rsps := rfl
@[simp] theorem resetBlock_out (s : State) : (resetBlock s).out = s.out := rfl
@[simp] theorem resetBlock_inp (s : State) : (resetBlock s).inp = s.inp := rfl
@[simp] theorem resetBlock_inPos (s : State) : (resetBlock s).inPos = s.inPos := rfl

/-! ### commitWrite -/

@[simp] theorem commitWrite_params (low high pend : Nat) (bits : List Bit) (s : State) :
    (commitWrite low high pend bits s).params = s.params := rfl
@[simp] theorem commitWrite_fmu (low high pend : Nat) (bits : List Bit) (s : State) :
    (commitWrite low high pend bits s).fmu = s.fmu := rfl
@[simp] theorem commitWrite_enc (low high pend : Nat) (bits : List Bit) (s : State) :
    (commitWrite low high pend bits s).enc =
      { s.enc with
        low := regOf s.params.nmax low, high := regOf s.params.nmax high
        pend := regOf s.params.pbw pend } := rfl
@[simp] theorem commitWrite_dec (low high pend : Nat) (bits : List Bit) (s : State) :
    (commitWrite low high pend bits s).dec = s.dec := rfl
@[simp] theorem commitWrite_flt (low high pend : Nat) (bits : List Bit) (s : State) :
    (commitWrite low high pend bits s).flt = s.flt := rfl
@[simp] theorem commitWrite_inbox (low high pend : Nat) (bits : List Bit) (s : State) :
    (commitWrite low high pend bits s).inbox = s.inbox := rfl
@[simp] theorem commitWrite_rsps (low high pend : Nat) (bits : List Bit) (s : State) :
    (commitWrite low high pend bits s).rsps = s.rsps := rfl
@[simp] theorem commitWrite_out (low high pend : Nat) (bits : List Bit) (s : State) :
    (commitWrite low high pend bits s).out = s.out ++ bits := rfl
@[simp] theorem commitWrite_inp (low high pend : Nat) (bits : List Bit) (s : State) :
    (commitWrite low high pend bits s).inp = s.inp := rfl
@[simp] theorem commitWrite_inPos (low high pend : Nat) (bits : List Bit) (s : State) :
    (commitWrite low high pend bits s).inPos = s.inPos := rfl

/-! ### commitRead -/

@[simp] theorem commitRead_params (low high code pos : Nat) (s : State) :
    (commitRead low high code pos s).params = s.params := rfl
@[simp] theorem commitRead_fmu (low high code pos : Nat) (s : State) :
    (commitRead low high code pos s).fmu = s.fmu := rfl
@[simp] theorem commitRead_enc (low high code pos : Nat) (s : State) :
    (commitRead low high code pos s).enc = s.enc := rfl
@[simp] theorem commitRead_dec (low high code pos : Nat) (s : State) :
    (commitRead low high code pos s).dec =
      { s.dec with
        low := regOf s.params.nmax low, high := regOf s.params.nmax high
        code := regOf s.params.nmax code } := rfl
@[simp] theorem commitRead_flt (low high code pos : Nat) (s : State) :
    (commitRead low high code pos s).flt = s.flt := rfl
@[simp] theorem commitRead_inbox (low high code pos : Nat) (s : State) :
    (commitRead low high code pos s).inbox = s.inbox := rfl
@[simp] theorem commitRead_rsps (low high code pos : Nat) (s : State) :
    (commitRead low high code pos s).rsps = s.rsps := rfl
@[simp] theorem commitRead_out (low high code pos : Nat) (s : State) :
    (commitRead low high code pos s).out = s.out := rfl
@[simp] theorem commitRead_inp (low high code pos : Nat) (s : State) :
    (commitRead low high code pos s).inp = s.inp := rfl
@[simp] theorem commitRead_inPos (low high code pos : Nat) (s : State) :
    (commitRead low high code pos s).inPos = pos := rfl

/-! ### The units -/

@[simp] theorem faultRegsOf_fault (e : Code) (w : Word64) : (faultRegsOf e w).fault = true := rfl
@[simp] theorem faultRegsOf_errcode (e : Code) (w : Word64) : (faultRegsOf e w).errcode = e.byte := rfl
@[simp] theorem faultRegsOf_erropc (e : Code) (w : Word64) : (faultRegsOf e w).erropc = opcField w := rfl
@[simp] theorem faultRegsOf_errarg (e : Code) (w : Word64) : (faultRegsOf e w).errarg = argField w := rfl
@[simp] theorem faultPin_eq (s : State) : s.faultPin = s.flt.fault := rfl

@[simp] theorem resetWith_params (p : Params) : (State.resetWith p).params = p := rfl
@[simp] theorem resetWith_fmu (p : Params) : (State.resetWith p).fmu = Fmu.reset := rfl
@[simp] theorem resetWith_enc (p : Params) : (State.resetWith p).enc = Enc.reset := rfl
@[simp] theorem resetWith_dec (p : Params) : (State.resetWith p).dec = Dec.reset := rfl
@[simp] theorem resetWith_flt (p : Params) : (State.resetWith p).flt = FaultRegs.reset := rfl
@[simp] theorem resetWith_inbox (p : Params) : (State.resetWith p).inbox = [] := rfl
@[simp] theorem resetWith_rsps (p : Params) : (State.resetWith p).rsps = [] := rfl
@[simp] theorem resetWith_out (p : Params) : (State.resetWith p).out = [] := rfl
@[simp] theorem resetWith_inp (p : Params) : (State.resetWith p).inp = [] := rfl
@[simp] theorem resetWith_inPos (p : Params) : (State.resetWith p).inPos = 0 := rfl

end Sys2Proof.Machine
end

