-- ==== Sys2Proof/Laws/Ops.lean ====
section
/-! SUPPORT. What each shared operation can do, said once: the outcomes of a response, of fault entry and
of the check of FAULT, and what a register holds once written. -/

namespace Sys2Proof.Machine

theorem answer_eq (v : Word32) (s : State) : answer v s = .next (respond .ok v s) := rfl

theorem raise_eq (e : Code) (w : Word64) (s : State) : raise e w s = .next (faultEntry e w s) := rfl

theorem unlessFaulted_running {s : State} (h : s.flt.fault = false)
    (run : Host.Outcome State Fault Refusal) : unlessFaulted s run = run := by
  simp [unlessFaulted, h]

theorem unlessFaulted_faulted {s : State} (h : s.flt.fault = true)
    (run : Host.Outcome State Fault Refusal) : unlessFaulted s run = .next (respond .faulted 0#32 s) := by
  simp [unlessFaulted, h]

/-- The one inversion of the first global check: refused while faulted, or the command's own outcome. -/
theorem unlessFaulted_cases {s t : State} {run : Host.Outcome State Fault Refusal}
    (h : unlessFaulted s run = .next t) :
    (s.flt.fault = true ∧ t = respond .faulted 0#32 s) ∨ (s.flt.fault = false ∧ run = .next t) := by
  unfold unlessFaulted at h
  split at h
  · next hf =>
    cases h
    exact .inl ⟨hf, rfl⟩
  · next hf => exact .inr ⟨by simpa using hf, h⟩

/-- A register that is written with a value that fits holds it. -/
theorem regOf_toNat {width v : Nat} (hw : width ≤ 32) (hv : v < 2 ^ width) : (regOf width v).toNat = v := by
  have h32 : v < 2 ^ 32 := Nat.lt_of_lt_of_le hv (Nat.pow_le_pow_right (by decide) hw)
  rw [regOf, Nat.mod_eq_of_lt hv, BitVec.toNat_ofNat, Nat.mod_eq_of_lt h32]

/-- A register never holds more than its width. -/
theorem regOf_lt (width v : Nat) : (regOf width v).toNat < 2 ^ width := by
  have h : v % 2 ^ width < 2 ^ width := Nat.mod_lt _ (Nat.two_pow_pos width)
  exact Nat.lt_of_le_of_lt (by simp [regOf, Nat.mod_le]) h

/-- What a legal instance is, as inequalities. -/
theorem Params.legal_iff (p : Params) : p.legal = true ↔
    1 ≤ p.nmax ∧ p.nmax ≤ 32 ∧ 1 ≤ p.amax ∧ p.amax ≤ 2 ^ 24 - 1 ∧ 1 ≤ p.pbw ∧ p.pbw ≤ 32 := by
  simp [Params.legal]

end Sys2Proof.Machine
end

