-- ==== Sys2Proof/Laws/Coder.lean ====
section
/-! SUPPORT. The coder core in plain arithmetic: what each class tells of the bounds, the shifts without
their mask (41_coder_core.md R136, R141), and one round of the renormalisation loop. -/

namespace Sys2Proof.Machine

theorem two_pow_eq_two_half {N : Nat} (h : 1 ≤ N) : 2 ^ N = 2 * halfRange N := by
  obtain ⟨k, rfl⟩ : ∃ k, N = k + 1 := ⟨N - 1, by omega⟩
  simp [halfRange, Nat.pow_succ, Nat.mul_comm]

theorem half_eq_two_quarter {N : Nat} (h : 2 ≤ N) : halfRange N = 2 * quarterRange N := by
  obtain ⟨k, rfl⟩ : ∃ k, N = k + 2 := ⟨N - 2, by omega⟩
  simp [halfRange, quarterRange, Nat.pow_succ, Nat.mul_comm]

theorem half_pos (N : Nat) : 0 < halfRange N := Nat.two_pow_pos _

/-- The mask of 41_coder_core.md R136 keeps what is below the full range. -/
theorem and_stateMask {N v : Nat} (h : v < 2 ^ N) : v &&& stateMask N = v := by
  simp [stateMask, Nat.and_two_pow_sub_one_eq_mod, Nat.mod_eq_of_lt h]

theorem double_or_one (v : Nat) : (2 * v) ||| 1 = 2 * v + 1 := by
  have := Nat.two_pow_add_eq_or_of_lt (i := 1) (b := 1) (by decide) v
  simpa using this.symm

theorem double_or_bit (v : Nat) (b : Bit) : (2 * v) ||| b.toNat = 2 * v + b.toNat := by
  cases b
  · simp
  · simpa using double_or_one v

/-- What 41_coder_core.md R141 says is below half may be doubled: the mask then removes nothing. -/
theorem doubled_masked {N v : Nat} (hN : 1 ≤ N) (h : v < halfRange N) : (v <<< 1) &&& stateMask N = 2 * v := by
  rw [Nat.shiftLeft_eq, Nat.pow_one, Nat.mul_comm]
  exact and_stateMask (by rw [two_pow_eq_two_half hN]; omega)

theorem shiftLow_eq {N v : Nat} {c : RenormClass} (hN : 1 ≤ N) (h : v - c.sub N < halfRange N) :
    shiftLow N c v = 2 * (v - c.sub N) := doubled_masked hN h

theorem shiftHigh_eq {N v : Nat} {c : RenormClass} (hN : 1 ≤ N) (h : v - c.sub N < halfRange N) :
    shiftHigh N c v = 2 * (v - c.sub N) + 1 := by
  rw [shiftHigh, doubled_masked hN h, double_or_one]

theorem shiftCode_eq {N v : Nat} {c : RenormClass} (b : Bit) (hN : 1 ≤ N) (h : v - c.sub N < halfRange N) :
    shiftCode N c v b = 2 * (v - c.sub N) + b.toNat := by
  rw [shiftCode, doubled_masked hN h, double_or_bit]

/-- The four cases of the renormalisation test (41_coder_core.md R135), each with all it tells. -/
theorem renormClass_cases (N low high : Nat) :
    (renormClass N low high = .Z ∧ high < halfRange N) ∨
    (renormClass N low high = .O ∧ halfRange N ≤ high ∧ halfRange N ≤ low) ∨
    (renormClass N low high = .U ∧ halfRange N ≤ high ∧ low < halfRange N ∧
      quarterRange N ≤ low ∧ high < 3 * quarterRange N) ∨
    (renormClass N low high = .S ∧ halfRange N ≤ high ∧ low < halfRange N ∧
      (low < quarterRange N ∨ 3 * quarterRange N ≤ high)) := by
  unfold renormClass
  split
  · exact .inl ⟨rfl, by assumption⟩
  · split
    · exact .inr (.inl ⟨rfl, by omega, by assumption⟩)
    · split
      · exact .inr (.inr (.inl ⟨rfl, by omega, by omega, by omega, by omega⟩))
      · exact .inr (.inr (.inr ⟨rfl, by omega, by omega, by omega⟩))

section loop

variable {σ : Type} (N : Nat) (act : RenormClass → σ → Option σ) (fuel low high : Nat) (acc : σ)

theorem renormLoop_stop (h : renormClass N low high = .S) :
    renormLoop N act fuel low high acc = .stop low high acc := by
  unfold renormLoop
  simp [h]

theorem renormLoop_step {acc' : σ} (h : renormClass N low high ≠ .S)
    (ha : act (renormClass N low high) acc = some acc') :
    renormLoop N act (fuel + 1) low high acc =
      renormLoop N act fuel (shiftLow N (renormClass N low high) low)
        (shiftHigh N (renormClass N low high) high) acc' := by
  rw [renormLoop]
  simp [h, ha]

theorem renormLoop_abort (h : renormClass N low high ≠ .S) (ha : act (renormClass N low high) acc = none) :
    renormLoop N act (fuel + 1) low high acc = .abort := by
  rw [renormLoop]
  simp [h, ha]

end loop

end Sys2Proof.Machine
end

