-- ==== Sys2Proof/Laws/Decode.lean ====
section
/-! SUPPORT. The fields of a word put together from an opcode, 24 zeros and an operand
(30_encoding.md R90, R93). -/

namespace Sys2Proof

/-- A word of the layout of 30_encoding.md R90 as a natural. -/
theorem word_toNat (o : Byte) (a : Word32) :
    (o ++ (0#24 ++ a) : BitVec (8 + (24 + 32))).toNat = o.toNat * 2 ^ 56 + a.toNat := by
  have ha := a.isLt
  rw [BitVec.toNat_append, BitVec.toNat_append]
  simp only [BitVec.toNat_ofNat, Nat.zero_mod, Nat.zero_shiftLeft, Nat.zero_or]
  rw [← Nat.shiftLeft_add_eq_or_of_lt (by omega), Nat.shiftLeft_eq]

theorem opcField_append (o : Byte) (a : Word32) :
    opcField (o ++ (0#24 ++ a) : BitVec (8 + (24 + 32))) = o := by
  have ho := o.isLt
  have ha := a.isLt
  apply BitVec.eq_of_toNat_eq
  rw [opcField, BitVec.extractLsb'_toNat]
  erw [word_toNat]
  simp only [Nat.shiftRight_eq_div_pow]
  omega

theorem rsvField_append (o : Byte) (a : Word32) :
    rsvField (o ++ (0#24 ++ a) : BitVec (8 + (24 + 32))) = 0#24 := by
  have ho := o.isLt
  have ha := a.isLt
  apply BitVec.eq_of_toNat_eq
  rw [rsvField, BitVec.extractLsb'_toNat]
  erw [word_toNat]
  simp only [Nat.shiftRight_eq_div_pow, BitVec.toNat_ofNat]
  omega

theorem argField_append (o : Byte) (a : Word32) :
    argField (o ++ (0#24 ++ a) : BitVec (8 + (24 + 32))) = a := by
  have ho := o.isLt
  have ha := a.isLt
  apply BitVec.eq_of_toNat_eq
  rw [argField, BitVec.extractLsb'_toNat]
  erw [word_toNat]
  simp only [Nat.shiftRight_eq_div_pow]
  omega

@[simp] theorem opcField_encode (i : Instr) : opcField (encode i) = i.opcode := opcField_append _ _

@[simp] theorem rsvField_encode (i : Instr) : rsvField (encode i) = 0#24 := rsvField_append _ _

@[simp] theorem argField_encode (i : Instr) : argField (encode i) = i.arg := argField_append _ _

end Sys2Proof
end

