-- ==== Sys2Proof/Laws/PerInstr.lean ====
section
/-! SUPPORT. What is said of every command as syntax, one lemma per constructor. -/

/-- The word of the command has the opcode and the format of its row, and its reserved field is 0
(30_encoding.md R90, R91, R96). -/
def Sys2Proof.Laws.EncodedFields.Statement (i : Sys2Proof.Instr) : Prop :=
  Sys2Proof.formatOfOpcode i.opcode = some i.format ∧ Sys2Proof.opcField (Sys2Proof.encode i) = i.opcode ∧
    Sys2Proof.rsvField (Sys2Proof.encode i) = 0#24 ∧ Sys2Proof.argField (Sys2Proof.encode i) = i.arg ∧
    (i.format = .Z → i.arg = 0#32)

namespace Sys2Proof.Laws.EncodedFields

theorem fields_of {i : Instr} (h : formatOfOpcode i.opcode = some i.format) (hz : i.format = .Z → i.arg = 0#32) :
    Statement i :=
  ⟨h, opcField_encode i, rsvField_encode i, argField_encode i, hz⟩

theorem sysReset : Statement .sysReset := fields_of (by decide) (fun _ => rfl)

theorem sysRdreg (r : Word32) : Statement (.sysRdreg r) :=
  fields_of (by simp only [Instr.opcode, Instr.format]; decide) (by simp [Instr.format])

theorem fmClear : Statement .fmClear := fields_of (by decide) (fun _ => rfl)

theorem fmPush (c : Word32) : Statement (.fmPush c) :=
  fields_of (by simp only [Instr.opcode, Instr.format]; decide) (by simp [Instr.format])

theorem fmSeal : Statement .fmSeal := fields_of (by decide) (fun _ => rfl)

theorem fmNsym : Statement .fmNsym := fields_of (by decide) (fun _ => rfl)

theorem fmLow (s : Word32) : Statement (.fmLow s) :=
  fields_of (by simp only [Instr.opcode, Instr.format]; decide) (by simp [Instr.format])

theorem fmHigh (s : Word32) : Statement (.fmHigh s) :=
  fields_of (by simp only [Instr.opcode, Instr.format]; decide) (by simp [Instr.format])

theorem fmTotal : Statement .fmTotal := fields_of (by decide) (fun _ => rfl)

theorem encInit (n : Word32) : Statement (.encInit n) :=
  fields_of (by simp only [Instr.opcode, Instr.format]; decide) (by simp [Instr.format])

theorem encWrite (s : Word32) : Statement (.encWrite s) :=
  fields_of (by simp only [Instr.opcode, Instr.format]; decide) (by simp [Instr.format])

theorem encFinish : Statement .encFinish := fields_of (by decide) (fun _ => rfl)

theorem decInit (n : Word32) : Statement (.decInit n) :=
  fields_of (by simp only [Instr.opcode, Instr.format]; decide) (by simp [Instr.format])

theorem decRead : Statement .decRead := fields_of (by decide) (fun _ => rfl)

end Sys2Proof.Laws.EncodedFields
end

