-- ==== Sys2Proof/Laws/Step.lean ====
section
/-! SUPPORT. What one step can be, said once (20_memory.md R80; log 1). -/

namespace Sys2Proof.Machine

/-- The one inversion of `step`: idle, a command, an illegal word, or one of the host's acts. -/
theorem step_cases {s t : State} (h : step s = .next t) :
    (s.inbox = [] ∧ t = s) ∨
    (∃ w rest i, s.inbox = .command w :: rest ∧ decode w = .command i ∧ exec i (takeEvent rest s) = .next t) ∨
    (∃ w rest why, s.inbox = .command w :: rest ∧ decode w = .illegal why ∧
      illegalCommand w (takeEvent rest s) = .next t) ∨
    (∃ rest, s.inbox = .hardwareReset :: rest ∧ t = resetBlock (takeEvent rest s)) ∨
    (∃ bits rest, s.inbox = .supplyBits bits :: rest ∧ t = { takeEvent rest s with inp := s.inp ++ bits }) ∨
    (∃ bits rest, s.inbox = .replaceSource bits :: rest ∧
      t = { takeEvent rest s with inp := bits, inPos := 0 }) ∨
    (∃ rest, s.inbox = .emptySink :: rest ∧ t = { takeEvent rest s with out := [] }) := by
  unfold step at h
  split at h
  · next hi => exact .inl ⟨hi, by cases h; rfl⟩
  · next w rest hi =>
    split at h
    · next i hd => exact .inr (.inl ⟨w, rest, i, hi, hd, h⟩)
    · next why hd => exact .inr (.inr (.inl ⟨w, rest, why, hi, hd, h⟩))
  · next rest hi => exact .inr (.inr (.inr (.inl ⟨rest, hi, by cases h; rfl⟩)))
  · next bits rest hi => exact .inr (.inr (.inr (.inr (.inl ⟨bits, rest, hi, by cases h; rfl⟩))))
  · next bits rest hi => exact .inr (.inr (.inr (.inr (.inr (.inl ⟨bits, rest, hi, by cases h; rfl⟩)))))
  · next rest hi => exact .inr (.inr (.inr (.inr (.inr (.inr ⟨rest, hi, by cases h; rfl⟩)))))

end Sys2Proof.Machine
end

