-- ==== Sys2Proof/Tests/Slice0.lean ====
section
/-! SUPPORT. The model's own tests: smoke tests of WellFormed, words written out bit by bit from
30_encoding.md R90 and R96, one-step tests whose expected values are the spec's worked examples and
vectors, and for every statement with hypotheses a state and operands that meet them. -/

namespace Sys2Proof.Tests

open Sys2Proof Sys2Proof.Machine

/-! ## Helpers -/

/-- The next state of an outcome, if it is one. -/
def nextOf : Host.Outcome State Fault Refusal → Option State
  | .next t => some t
  | .fault _ => none
  | .refused _ => none

theorem exists_of_nextOf {o : Host.Outcome State Fault Refusal} (h : (nextOf o).isSome = true) :
    ∃ t, o = .next t := by
  cases o with
  | next t => exact ⟨t, rfl⟩
  | fault r => cases h
  | refused r => cases h

/-- The same, with something that is seen of the next state. -/
theorem exists_of_seen {o : Host.Outcome State Fault Refusal} (q : State → Bool)
    (h : (nextOf o).any q = true) : ∃ t, o = .next t ∧ q t = true := by
  cases o with
  | next t => exact ⟨t, rfl, by simpa [nextOf] using h⟩
  | fault r => cases h
  | refused r => cases h

/-- What is seen of the next state of a command. -/
def after {α : Type} (o : Host.Outcome State Fault Refusal) (f : State → α) : Option α := (nextOf o).map f

/-- A small instance: 8-bit coders, four symbols, a 3-bit pending counter. -/
def small : Params := { nmax := 8, amax := 4, pbw := 3 }

/-- The small instance after reset. -/
def fresh : State := .resetWith small

/-- The table of the counts 2, 0, 1 (40_fm.md R112's example). -/
def table201 : Fmu :=
  { cnt := [(0, 2#32), (1, 0#32), (2, 1#32)], cum := [(0, 0#32), (1, 2#32), (2, 2#32), (3, 3#32)],
    nsym := 3#32, total := 3#32, phase := .sealed }

/-- The table of the counts 1, 1, 1 (95_test_vectors.md V9). -/
def table111 : Fmu :=
  { cnt := [(0, 1#32), (1, 1#32), (2, 1#32)], cum := [(0, 0#32), (1, 1#32), (2, 2#32), (3, 3#32)],
    nsym := 3#32, total := 3#32, phase := .sealed }

/-- The table of the counts 1, 1, 1, 1 (45_properties.md R200). -/
def table1111 : Fmu :=
  { cnt := [(0, 1#32), (1, 1#32), (2, 1#32), (3, 1#32)],
    cum := [(0, 0#32), (1, 1#32), (2, 2#32), (3, 3#32), (4, 4#32)],
    nsym := 4#32, total := 4#32, phase := .sealed }

/-- An encoder in a session of width 8. -/
def encAt (low high pend : Word32) : Enc := { nbits := 8#6, low := low, high := high, pend := pend, phase := .active }

/-- A decoder in a session of width 8. -/
def decAt (low high code : Word32) : Dec := { nbits := 8#6, low := low, high := high, code := code, phase := .active }

/-- The small instance with a sealed table, no session. -/
def sealedAt (f : Fmu) : State := { fresh with fmu := f }

/-- The small instance with the table still BUILDING. -/
def buildingAt (f : Fmu) : State := { fresh with fmu := { f with phase := .building } }

/-- Both sessions active over the counts 2, 0, 1 at width 8, the encoder with `pend` deferred bits. -/
def coding (pend : Word32) : State :=
  { fresh with
    fmu := table201
    enc := encAt 0#32 255#32 pend
    dec := decAt 0#32 255#32 108#32
    out := [true], inp := [false, true, true, false, true, true, false, false, true], inPos := 8 }

/-- A faulted block: ERR_PHASE of `ENC.WRITE 5`, with the session active. -/
def faulted : State :=
  { coding 0#32 with flt := { fault := true, errcode := 0x07#8, erropc := 0x21#8, errarg := 5#32 } }

/-- The state with events waiting. -/
def waiting (events : List HostEvent) (s : State) : State := { s with inbox := events }

/-! ### The invariant as a check -/

def stepCheck (f : Fmu) (i : Nat) : Bool :=
  match memRead f.cum i, memRead f.cnt i, memRead f.cum (i + 1) with
  | some a, some c, some b => b.toNat == a.toNat + c.toNat
  | _, _, _ => false

def fmuCheck (p : Params) (f : Fmu) : Bool :=
  decide (f.cnt.wf = true ∧ f.cum.wf = true ∧ (∀ e ∈ f.cnt, e.1 < p.amax) ∧ (∀ e ∈ f.cum, e.1 ≤ p.amax) ∧
    f.nsym.toNat ≤ p.amax ∧ memRead f.cum 0 = some 0#32 ∧ (∀ i < f.nsym.toNat, stepCheck f i = true) ∧
    memRead f.cum f.nsym.toNat = some f.total ∧ (f.phase = .empty → f.nsym = 0#32) ∧
    (f.phase = .sealed → 0 < f.total.toNat))

def intervalCheck (N low high total : Nat) : Bool :=
  decide (low < halfRange N ∧ halfRange N ≤ high ∧ high ≤ stateMask N ∧
    (low < quarterRange N ∨ 3 * quarterRange N ≤ high) ∧ minimumRange N ≤ high - low + 1 ∧ total ≤ minimumRange N)

def encCheck (p : Params) (f : Fmu) (e : Enc) : Bool :=
  decide (e.nbits.toNat ≤ p.nmax ∧ e.low.toNat < 2 ^ p.nmax ∧ e.high.toNat < 2 ^ p.nmax ∧ e.pend.toNat ≤ p.pmax ∧
    (e.phase ≠ .idle → f.phase = .sealed ∧ 1 ≤ e.nbits.toNat ∧
      intervalCheck e.nbits.toNat e.low.toNat e.high.toNat f.total.toNat = true))

def decCheck (p : Params) (f : Fmu) (d : Dec) : Bool :=
  decide (d.nbits.toNat ≤ p.nmax ∧ d.low.toNat < 2 ^ p.nmax ∧ d.high.toNat < 2 ^ p.nmax ∧ d.code.toNat < 2 ^ p.nmax ∧
    (d.phase ≠ .idle → f.phase = .sealed ∧ 1 ≤ d.nbits.toNat ∧
      intervalCheck d.nbits.toNat d.low.toNat d.high.toNat f.total.toNat = true ∧
      d.low.toNat ≤ d.code.toNat ∧ d.code.toNat ≤ d.high.toNat))

def faultCheck (r : FaultRegs) : Bool :=
  decide ((r.fault = false → r = FaultRegs.reset) ∧ (r.fault = true → r.errcode = Code.phase.byte))

theorem fmuInv_of_check {p : Params} {f : Fmu} (h : fmuCheck p f = true) : FmuInv p f := by
  obtain ⟨h1, h2, h3, h4, h5, h6, h7, h8, h9, h10⟩ := of_decide_eq_true h
  refine ⟨h1, h2, h3, h4, h5, h6, fun i hi => ?_, h8, h9, h10⟩
  have hs := h7 i hi
  unfold stepCheck at hs
  split at hs
  · next a c b ha hc hb => exact ⟨a, c, b, ha, hc, hb, by simpa using hs⟩
  · cases hs

theorem intervalInv_of_check {N low high total : Nat} (h : intervalCheck N low high total = true) :
    IntervalInv N low high total := by
  obtain ⟨h1, h2, h3, h4, h5, h6⟩ := of_decide_eq_true h
  exact ⟨h1, h2, h3, h4, h5, h6⟩

theorem inv_of_checks {s : State} (hp : s.params.legal = true) (hf : fmuCheck s.params s.fmu = true)
    (he : encCheck s.params s.fmu s.enc = true) (hd : decCheck s.params s.fmu s.dec = true)
    (hr : faultCheck s.flt = true) : s.Inv := by
  obtain ⟨e1, e2, e3, e4, e5⟩ := of_decide_eq_true he
  obtain ⟨d1, d2, d3, d4, d5⟩ := of_decide_eq_true hd
  obtain ⟨r1, r2⟩ := of_decide_eq_true hr
  exact ⟨hp, fmuInv_of_check hf,
    ⟨e1, e2, e3, e4, fun h => ⟨(e5 h).1, (e5 h).2.1, intervalInv_of_check (e5 h).2.2⟩⟩,
    ⟨d1, d2, d3, d4, fun h => ⟨(d5 h).1, (d5 h).2.1, intervalInv_of_check (d5 h).2.2.1, (d5 h).2.2.2⟩⟩,
    ⟨r1, fun h => ⟨.phase, by simp [Code.recordable], r2 h⟩⟩⟩

theorem fresh_inv : fresh.Inv := inv_of_checks (by decide) (by decide) (by decide) (by decide) (by decide)
theorem sealed_inv : (sealedAt table201).Inv :=
  inv_of_checks (by decide) (by decide) (by decide) (by decide) (by decide)
theorem building_inv : (buildingAt table201).Inv :=
  inv_of_checks (by decide) (by decide) (by decide) (by decide) (by decide)
theorem coding_inv : (coding 0#32).Inv :=
  inv_of_checks (by decide) (by decide) (by decide) (by decide) (by decide)
theorem coding_full_inv : (coding 7#32).Inv :=
  inv_of_checks (by decide) (by decide) (by decide) (by decide) (by decide)
theorem faulted_inv : faulted.Inv :=
  inv_of_checks (by decide) (by decide) (by decide) (by decide) (by decide)


/-! ## WellFormed: one ill-formed word for each check (30_encoding.md R93; 95_test_vectors.md V33) -/

theorem test_wellFormed_refuses_unassigned_opcode :
    opcodeAssigned 0x1700000000000000#64 = false ∧ wellFormedWord 0x1700000000000000#64 = false ∧
      wellFormedWord 0x0000000000000000#64 = false ∧ wellFormedWord 0xFF00000000000000#64 = false := by decide

theorem test_wellFormed_refuses_reserved_bits :
    reservedZero 0x1100000100000001#64 = false ∧ wellFormedWord 0x1100000100000001#64 = false ∧
      wellFormedWord 0x1180000000000001#64 = false := by decide

theorem test_wellFormed_refuses_operand_of_format_Z :
    operandFitsFormat 0x2200000000000005#64 = false ∧ wellFormedWord 0x2200000000000005#64 = false ∧
      wellFormedWord 0x1000000080000000#64 = false := by decide

theorem test_wellFormed_accepts_commands :
    wellFormedWord 0x2200000000000000#64 = true ∧ wellFormedWord 0x11000000FFFFFFFF#64 = true := by decide

/-! ## Decoding: one word for every command, written bit by bit as OPC, RSV, ARG -/

/-- 30_encoding.md R90, R96: `SYS.RESET`. -/
theorem test_decode_sysReset :
    decode 0b00000001_000000000000000000000000_00000000000000000000000000000000#64 = .command .sysReset := by decide

/-- 30_encoding.md R90, R96: `SYS.RDREG 35`. -/
theorem test_decode_sysRdreg :
    decode 0b00000010_000000000000000000000000_00000000000000000000000000100011#64 = .command (.sysRdreg 35#32) := by decide

/-- 30_encoding.md R90, R96: `FM.CLEAR`. -/
theorem test_decode_fmClear :
    decode 0b00010000_000000000000000000000000_00000000000000000000000000000000#64 = .command .fmClear := by decide

/-- 30_encoding.md R90, R96: `FM.PUSH 65`. -/
theorem test_decode_fmPush :
    decode 0b00010001_000000000000000000000000_00000000000000000000000001000001#64 = .command (.fmPush 65#32) := by decide

/-- 30_encoding.md R90, R96: `FM.SEAL`. -/
theorem test_decode_fmSeal :
    decode 0b00010010_000000000000000000000000_00000000000000000000000000000000#64 = .command .fmSeal := by decide

/-- 30_encoding.md R90, R96: `FM.NSYM`. -/
theorem test_decode_fmNsym :
    decode 0b00010011_000000000000000000000000_00000000000000000000000000000000#64 = .command .fmNsym := by decide

/-- 30_encoding.md R90, R96: `FM.LOW 2`. -/
theorem test_decode_fmLow :
    decode 0b00010100_000000000000000000000000_00000000000000000000000000000010#64 = .command (.fmLow 2#32) := by decide

/-- 30_encoding.md R90, R96: `FM.HIGH 4294967295`. -/
theorem test_decode_fmHigh :
    decode 0b00010101_000000000000000000000000_11111111111111111111111111111111#64 = .command (.fmHigh 4294967295#32) := by decide

/-- 30_encoding.md R90, R96: `FM.TOTAL`. -/
theorem test_decode_fmTotal :
    decode 0b00010110_000000000000000000000000_00000000000000000000000000000000#64 = .command .fmTotal := by decide

/-- 30_encoding.md R90, R96: `ENC.INIT 32`. -/
theorem test_decode_encInit :
    decode 0b00100000_000000000000000000000000_00000000000000000000000000100000#64 = .command (.encInit 32#32) := by decide

/-- 30_encoding.md R90, R96: `ENC.WRITE 999`. -/
theorem test_decode_encWrite :
    decode 0b00100001_000000000000000000000000_00000000000000000000001111100111#64 = .command (.encWrite 999#32) := by decide

/-- 30_encoding.md R90, R96: `ENC.FINISH`. -/
theorem test_decode_encFinish :
    decode 0b00100010_000000000000000000000000_00000000000000000000000000000000#64 = .command .encFinish := by decide

/-- 30_encoding.md R90, R96: `DEC.INIT 8`. -/
theorem test_decode_decInit :
    decode 0b00110000_000000000000000000000000_00000000000000000000000000001000#64 = .command (.decInit 8#32) := by decide

/-- 30_encoding.md R90, R96: `DEC.READ`. -/
theorem test_decode_decRead :
    decode 0b00110001_000000000000000000000000_00000000000000000000000000000000#64 = .command .decRead := by decide

theorem test_decodeTableWord :
    decodeTableWord 64 0x1100000000000041 = some (.fmPush 65#32) ∧ decodeTableWord 64 0x1700000000000000 = none := by
  decide

/-- The row's word is run by the very next step: FM.CLEAR from reset answers OK and STATUS reads 2 (R111). -/
theorem test_withFetchWord_runs_next :
    after (step (State.reset.withFetchWord 64 0x1000000000000000)) (fun t => (statusWord t, t.rsps, t.inbox)) =
      some (2#32, [0#64], []) := by decide

/-! ## One step of each command; the expected values are the spec's own -/

/-- 44_sys.md R181: after a fault, SYS.RESET responds OK and register 0 reads 0. -/
theorem test_sysReset_clears_fault :
    after (exec .sysReset faulted) (fun t => (t.rsps, readRegister t 0#32, t.flt.errcode)) =
      some ([0#64], some 0#32, 0#8) := by decide

/-- 44_sys.md R181, 70_reset_and_hazards.md R242: the streams stay, the sessions end. -/
theorem test_sysReset_keeps_streams :
    after (exec .sysReset (coding 5#32)) (fun t => (t.out, t.inPos, t.enc.pend, t.fmu.nsym)) =
      some ([true], 8, 0#32, 0#32) := by decide

/-- 44_sys.md R182: `SYS.RDREG 3` of the default instance. -/
theorem test_sysRdreg_cap :
    after (exec (.sysRdreg 3#32) State.reset) (fun t => t.rsps) = some [0x0000000000010020#64] := by decide

/-- 10_state.md R47 and 60_exceptions.md R227: ERRINFO of ENC.WRITE refused with ERR_PHASE, read while faulted. -/
theorem test_sysRdreg_errinfo_while_faulted :
    after (exec (.sysRdreg 1#32) faulted) (fun t => t.rsps) = some [0x0000000000002107#64] := by decide

/-- 40_fm.md R111: from reset, responds OK and STATUS reads 0x02. -/
theorem test_fmClear_from_reset :
    after (exec .fmClear State.reset) (fun t => (t.rsps, statusWord t)) = some ([0#64], 2#32) := by decide

/-- 40_fm.md R111: it ends a coder session without a flush; the coder registers stay. -/
theorem test_fmClear_ends_sessions :
    after (exec .fmClear (coding 5#32)) (fun t => (t.enc.phase, t.dec.phase, t.enc.pend, t.out)) =
      some (.idle, .idle, 5#32, [true]) := by decide

/-- 40_fm.md R112: the third push of the example 2, 0, 1. -/
theorem test_fmPush_appends :
    after (exec (.fmPush 1#32) (buildingAt
        { table201 with cnt := [(0, 2#32), (1, 0#32)], cum := [(0, 0#32), (1, 2#32), (2, 2#32)], nsym := 2#32, total := 2#32 }))
      (fun t => t.fmu) = some { table201 with phase := .building } := by decide

/-- 40_fm.md R112, 60_exceptions.md R219: a fifth symbol does not fit a table of four. -/
theorem test_fmPush_table_full :
    after (exec (.fmPush 7#32) (buildingAt table1111)) (fun t => (t.rsps, t.fmu.nsym)) =
      some ([0x0800000000000000#64], 4#32) := by decide

/-- 40_fm.md R113: two zero counts respond ERR_ZERO_TOTAL and STATUS reads 0x03. -/
theorem test_fmSeal_zero_total :
    after (exec .fmSeal (buildingAt
        { table201 with cnt := [(0, 0#32), (1, 0#32)], cum := [(0, 0#32), (1, 0#32), (2, 0#32)], nsym := 2#32, total := 0#32 }))
      (fun t => (t.rsps, statusWord t)) = some ([0x0300000000000000#64], 3#32) := by decide

/-- 40_fm.md R113: a second FM.SEAL raises ERR_PHASE. -/
theorem test_fmSeal_twice :
    after (exec .fmSeal (sealedAt table201)) (fun t => t.rsps) = some [0x0700000000000000#64] := by decide

/-- 40_fm.md R114: after `FM.BUILD 2, 0, 1`. -/
theorem test_fmNsym :
    after (exec .fmNsym (sealedAt table201)) (fun t => t.rsps) = some [0x0000000000000003#64] := by decide

/-- 40_fm.md R115: `FM.LOW 2` after `FM.BUILD 2, 0, 1`. -/
theorem test_fmLow :
    after (exec (.fmLow 2#32) (sealedAt table201)) (fun t => t.rsps) = some [0x0000000000000002#64] := by decide

/-- 40_fm.md R115: s = NSYM is out of range even though CUM[NSYM] exists. -/
theorem test_fmLow_out_of_range :
    after (exec (.fmLow 3#32) (sealedAt table201)) (fun t => t.rsps) = some [0x0400000000000000#64] := by decide

/-- 40_fm.md R116: `FM.HIGH 1` after `FM.BUILD 2, 0, 1`. -/
theorem test_fmHigh :
    after (exec (.fmHigh 1#32) (sealedAt table201)) (fun t => t.rsps) = some [0x0000000000000002#64] := by decide

/-- 40_fm.md R117: after `FM.BUILD 2, 0, 1`. -/
theorem test_fmTotal :
    after (exec .fmTotal (sealedAt table201)) (fun t => t.rsps) = some [0x0000000000000003#64] := by decide

/-- 42_enc.md R151: `ENC.INIT 8` after `FM.BUILD 1, 1, 1, 1`. -/
theorem test_encInit :
    after (exec (.encInit 8#32) (sealedAt table1111)) (fun t => (t.rsps, t.enc.low, t.enc.high, t.enc.pend, statusWord t)) =
      some ([0#64], 0#32, 255#32, 0#32, 0x0C#32) := by decide

/-- 60_exceptions.md R228: from reset, `ENC.INIT 0` reports ERR_CONFIG, not ERR_PHASE. -/
theorem test_encInit_config_first :
    after (exec (.encInit 0#32) State.reset) (fun t => t.rsps) = some [0x0200000000000000#64] := by decide

/-- 42_enc.md R152's worked example: counts 1, 1, 1 at width 8, the first `ENC.WRITE 1`. -/
theorem test_encWrite_defers :
    after (exec (.encWrite 1#32) { sealedAt table111 with enc := encAt 0#32 255#32 0#32 })
      (fun t => (t.out, t.enc.low, t.enc.high, t.enc.pend)) = some ([], 42#32, 211#32, 1#32) := by decide

/-- 42_enc.md R152, 60_exceptions.md R226: the counter at PMAX, the command is refused as a whole. -/
theorem test_encWrite_pending_overflow :
    after (exec (.encWrite 1#32) { sealedAt table111 with enc := encAt 0#32 255#32 7#32 })
      (fun t => (t.rsps, t.out, t.enc.low, t.enc.pend)) = some ([0x0A00000000000000#64], [], 0#32, 7#32) := by decide

/-- 42_enc.md R154's worked example: low 8, high 235, three pending. -/
theorem test_encFinish :
    after (exec .encFinish { sealedAt table111 with enc := encAt 8#32 235#32 3#32 })
      (fun t => (t.out, t.enc.pend, t.enc.phase)) = some ([false, true, true, true, true], 0#32, .done) := by decide

/-- 43_dec.md R166's worked example. -/
theorem test_decInit :
    after (exec (.decInit 8#32)
        { sealedAt table1111 with
          inp := [false, false, false, true, true, false, true, true, false, false, false, true] })
      (fun t => (t.dec.code, t.inPos, t.dec.low, t.dec.high)) = some (27#32, 8, 0#32, 255#32) := by decide

/-- 43_dec.md R166: a source shorter than n bits gives its bits in the high positions and zeros below. -/
theorem test_decInit_short_source :
    after (exec (.decInit 8#32) { sealedAt table1111 with inp := [true, false, true] })
      (fun t => (t.dec.code, t.inPos)) = some (0b10100000#32, 8) := by decide

/-- 43_dec.md R167's worked example. -/
theorem test_decRead :
    after (exec .decRead
        { sealedAt table1111 with dec := decAt 0#32 255#32 108#32, inp := [false, true] })
      (fun t => (t.rsps, t.dec.code, t.dec.low, t.dec.high, t.inPos)) =
      some ([0x0000000000000001#64], 177#32, 0#32, 255#32, 2) := by decide

/-- 60_exceptions.md R222, R230: while faulted, ERR_FAULTED, and the recorded error stays. -/
theorem test_faulted_refuses :
    after (exec .decRead faulted) (fun t => (t.rsps, t.flt)) = some ([0x0B00000000000000#64], faulted.flt) := by decide

/-- 20_memory.md R70's example: twelve bits are the bytes 0x1B 0x10. -/
theorem test_pack :
    pack [false, false, false, true, true, false, true, true, false, false, false, true] = [0x1B#8, 0x10#8] := by decide

/-- 40_fm.md R120's worked example. -/
theorem test_findSymbol : findSymbol table201.cum 3 2 = some 2 := by decide

/-- 41_coder_core.md R142's two inverted intervals, outside the preconditions. -/
theorem test_narrow_inverts_outside_preconditions : narrow 63 128 0 1 67 = (63, 62) := by decide

/-- A table write keeps the canonical form, and equal tables are equal data whatever the order of writing. -/
theorem test_memWrite_canonical :
    memWrite (memWrite [] 2 5#32) 0 7#32 = memWrite (memWrite [] 0 7#32) 2 5#32 ∧
      (memWrite (memWrite [] 2 5#32) 0 7#32).wf = true := by decide

/-! ## Witnesses: for every statement with hypotheses, a state and operands that meet them; for one of
several clauses, each clause at a boundary of its range -/

theorem witness_WellFormedWordsAreExactlyTheCommands :
    wellFormedWord 0x11000000FFFFFFFF#64 = true ∧ wellFormedWord 0x1100000100000000#64 = false := by decide

theorem witness_StepRunsTheDecodedCommand :
    let s := waiting [.command 0x2100000000000000#64, .emptySink] (coding 0#32)
    s.inbox = .command 0x2100000000000000#64 :: [.emptySink] ∧
      decode 0x2100000000000000#64 = .command (.encWrite 0#32) := by decide

theorem witness_IllegalWordsRaiseIllegalCommand :
    let s := waiting [.command 0#64] (coding 0#32)
    s.inbox = .command 0#64 :: [] ∧ wellFormedWord 0#64 = false ∧ s.flt.fault = false := by decide

theorem witness_HostActsTouchOnlyTheHostSide :
    (coding 0#32).inbox = [] ∧
    (waiting [.supplyBits [true]] (coding 0#32)).inbox = .supplyBits [true] :: [] ∧
    (waiting [.replaceSource [true], .emptySink] (coding 0#32)).inbox = .replaceSource [true] :: [.emptySink] ∧
    (waiting [.emptySink] faulted).inbox = .emptySink :: [] := by decide

theorem witness_ResetStateHoldsTheSpecsValues :
    ({ nmax := 1, amax := 1, pbw := 1 } : Params).legal = true ∧ Config.defaults.legal = true := by decide

/-- The first and the last byte of two, and the first and the last bit of the second. -/
theorem witness_UnpackUndoesPackUpToZeros :
    (pack [true, false, true, true, false, false, false, true, true])[1]? = some 0x80#8 ∧
      ([0x1B#8, 0x10#8] : List Byte)[1]? = some 0x10#8 ∧ 0 < 8 ∧ 7 < 8 := by decide

theorem witness_HardwareResetActsAsSysResetWithoutResponse :
    (waiting [.hardwareReset, .emptySink] faulted).inbox = .hardwareReset :: [.emptySink] := by decide

/-- The smallest and the largest legal instance; ResetStateHoldsTheSpecsValues has the same hypothesis. -/
theorem witness_ResetStateMeetsTheInvariant :
    small.legal = true ∧ ({ nmax := 1, amax := 1, pbw := 1 } : Params).legal = true ∧
      ({ nmax := 32, amax := 2 ^ 24 - 1, pbw := 32 } : Params).legal = true := by decide

/-- A command of an active session, an illegal word, and a command while faulted. -/
theorem witness_EveryStepKeepsTheInvariant :
    ((waiting [.command 0x2100000000000000#64] (coding 0#32)).Inv ∧
      ∃ t, step (waiting [.command 0x2100000000000000#64] (coding 0#32)) = .next t) ∧
    (faulted.Inv ∧ ∃ t, step (waiting [.command 0#64] faulted) = .next t) := by
  refine ⟨⟨?_, exists_of_nextOf (by decide)⟩, faulted_inv, exists_of_nextOf (by decide)⟩
  exact inv_of_checks (by decide) (by decide) (by decide) (by decide) (by decide)

theorem witness_NoStepStopsUnderTheInvariant : (coding 7#32).Inv := coding_full_inv

/-- The coding state with other entries beyond the fill level. -/
def codingOther : State :=
  { coding 0#32 with
    fmu := { table201 with cnt := memWrite table201.cnt 3 9#32, cum := memWrite table201.cum 4 8#32 } }

theorem witness_UnreachableEntriesCannotBeObserved :
    let s := waiting [.command 0x3100000000000000#64] (coding 0#32)
    let s' := waiting [.command 0x3100000000000000#64] codingOther
    s.Inv ∧ s.Agree s' ∧ s ≠ s' ∧ ∃ t, step s = .next t := by
  refine ⟨?_, ⟨⟨by decide, by decide, by decide, by decide, by decide⟩, by decide⟩, by decide,
    exists_of_nextOf (by decide)⟩
  exact inv_of_checks (by decide) (by decide) (by decide) (by decide) (by decide)

theorem witness_EveryCommandAnswersOneResponseWord :
    (∃ t, exec .decRead (coding 0#32) = .next t) ∧ (∃ t, exec (.fmPush 1#32) faulted = .next t) :=
  ⟨exists_of_nextOf (by decide), exists_of_nextOf (by decide)⟩

/-- An illegal word, a register number that is none, and a command, while faulted. -/
theorem witness_FaultedBlockRefusesCommands :
    let s := waiting [.command 0x0200000000000007#64] faulted
    (s.inbox = .command 0x0200000000000007#64 :: [] ∧ s.flt.fault = true ∧
      decode 0x0200000000000007#64 ≠ .command .sysReset ∧
      ∀ r, decode 0x0200000000000007#64 = .command (.sysRdreg r) → readRegister s r = none) ∧
    (decode 0x0100000000000001#64 ≠ .command .sysReset ∧
      ∀ r, decode 0x0100000000000001#64 ≠ .command (.sysRdreg r)) := by
  refine ⟨⟨by decide, by decide, by decide, ?_⟩, by decide, ?_⟩
  · intro r h
    have hr : (.command (.sysRdreg 7#32) : Decoded) = .command (.sysRdreg r) := h ▸ by decide
    cases hr
    decide
  · intro r h
    have hr : (.illegal .operandInFormatZ : Decoded) = .command (.sysRdreg r) := h ▸ by decide
    cases hr

theorem witness_FailingCommandsChangeNothingElse :
    (coding 7#32).flt.fault = false ∧ ∃ t, exec .encFinish (coding 7#32) = .next t ∧ t.flt.fault = true :=
  ⟨by decide, exists_of_seen (fun t => t.flt.fault) (by decide)⟩

/-- A refused command, SYS.RESET and the hardware reset, while faulted. -/
theorem witness_FirstErrorIsKeptUntilReset :
    faulted.flt.fault = true ∧
    (∃ t, step (waiting [.command 0x3100000000000000#64] faulted) = .next t) ∧
    (∃ t, step (waiting [.command 0x0100000000000000#64] faulted) = .next t) ∧
    (∃ t, step (waiting [.hardwareReset] faulted) = .next t) :=
  ⟨by decide, exists_of_nextOf (by decide), exists_of_nextOf (by decide), exists_of_nextOf (by decide)⟩

/-- Both clauses: a check that fails (the second one, the first one passing), none that fails, and none that
fails in an ENC.WRITE whose counter is full. -/
theorem witness_FirstFailedCheckDecidesTheError :
    (sealedAt table1111).Inv ∧ (coding 0#32).Inv ∧ (sealedAt table1111).flt.fault = false ∧
    (coding 0#32).flt.fault = false ∧
    firstFailure (commandChecks (sealedAt table1111) (.fmLow 4#32)) = some 0x04#8 ∧
    firstFailure (commandChecks (sealedAt table1111) (.encInit 9#32)) = some 0x02#8 ∧
    firstFailure (commandChecks (coding 0#32) (.encWrite 1#32)) = some 0x05#8 ∧
    firstFailure (commandChecks (coding 0#32) (.encWrite 2#32)) = none ∧
    firstFailure (commandChecks { sealedAt table111 with enc := encAt 0#32 255#32 7#32 } (.encWrite 1#32)) = none := by
  refine ⟨?_, coding_inv, by decide, by decide, by decide, by decide, by decide, by decide, by decide⟩
  exact inv_of_checks (by decide) (by decide) (by decide) (by decide) (by decide)

theorem witness_SealedTableIsImmutable :
    (coding 0#32).fmu.phase = .sealed ∧ ∃ t, exec (.encWrite 0#32) (coding 0#32) = .next t :=
  ⟨by decide, exists_of_nextOf (by decide)⟩

theorem witness_PhasesMoveOnlyAsTheSpecSays :
    (∃ t, exec .fmSeal (buildingAt table201) = .next t ∧ (t.fmu.phase == .sealed) = true) ∧
    (∃ t, exec .encFinish (coding 6#32) = .next t ∧ (t.enc.phase == .done) = true) ∧
    (∃ t, exec (.decInit 8#32) (sealedAt table201) = .next t ∧ (t.dec.phase == .active) = true) :=
  ⟨exists_of_seen (fun t => t.fmu.phase == .sealed) (by decide),
    exists_of_seen (fun t => t.enc.phase == .done) (by decide),
    exists_of_seen (fun t => t.dec.phase == .active) (by decide)⟩

theorem witness_StreamsMoveOnlyAsTheSpecSays :
    (∃ t, exec .encFinish (coding 0#32) = .next t ∧ (t.out != [true]) = true) ∧
    (∃ t, exec (.decInit 8#32) (coding 0#32) = .next t ∧ (t.inPos != 8) = true) :=
  ⟨exists_of_seen (fun t => t.out != [true]) (by decide), exists_of_seen (fun t => t.inPos != 8) (by decide)⟩

theorem witness_CodersAreIndependent :
    (∃ t, exec (.encInit 8#32) (coding 0#32) = .next t) ∧ (∃ t, exec (.encWrite 0#32) (coding 0#32) = .next t) ∧
    (∃ t, exec .encFinish (coding 0#32) = .next t) ∧ (∃ t, exec (.decInit 8#32) (coding 0#32) = .next t) ∧
    (∃ t, exec .decRead (coding 0#32) = .next t) :=
  ⟨exists_of_nextOf (by decide), exists_of_nextOf (by decide), exists_of_nextOf (by decide),
    exists_of_nextOf (by decide), exists_of_nextOf (by decide)⟩

theorem witness_PaddingIsIndistinguishableFromZeros :
    ∃ t, exec (.decInit 8#32) { coding 0#32 with inp := [true, false, true], inPos := 0 } = .next t :=
  exists_of_nextOf (by decide)

theorem witness_SysRdregReadsTheRegisterMap :
    ∀ n ∈ [7, 15, 20, 31, 36, 2 ^ 32 - 1],
      ¬ ((BitVec.ofNat 32 n).toNat ≤ 6 ∨ (16 ≤ (BitVec.ofNat 32 n).toNat ∧ (BitVec.ofNat 32 n).toNat ≤ 19) ∨
        (32 ≤ (BitVec.ofNat 32 n).toNat ∧ (BitVec.ofNat 32 n).toNat ≤ 35)) := by decide

theorem witness_StatusWordsHoldTheirFields : faulted.params.legal = true := by decide

/-- A step that leaves both sessions active; the pending counter ends at its largest value. -/
theorem witness_RegistersFitTheirWidths :
    let s := waiting [.emptySink] (coding 7#32)
    s.Inv ∧ (∃ t, step s = .next t ∧ (t.enc.phase != .idle && t.dec.phase != .idle && t.enc.pend == 7#32) = true) ∧
      (0x13#32, 3) ∈ registerWidths s.params := by
  refine ⟨?_, exists_of_seen (fun t => t.enc.phase != .idle && t.dec.phase != .idle && t.enc.pend == 7#32) (by decide),
    by decide⟩
  exact inv_of_checks (by decide) (by decide) (by decide) (by decide) (by decide)

theorem witness_FmClearStartsAnEmptyTable : (coding 3#32).flt.fault = false := by decide

/-- A table still BUILDING, with the given fill level and total. -/
def pushing (nsym total : Word32) : State :=
  buildingAt { table201 with nsym := nsym, total := total }

/-- The four clauses: the phase, a full table, one more than fits, the largest that fits. -/
theorem witness_FmPushAppendsOneCount :
    small.legal = true ∧ (pushing 3#32 3#32).params = small ∧ (pushing 3#32 3#32).flt.fault = false ∧
    (sealedAt table201).fmu.phase ≠ .building ∧
    ((pushing 4#32 3#32).fmu.phase = .building ∧ small.amax ≤ (pushing 4#32 3#32).fmu.nsym.toNat) ∧
    ((pushing 3#32 3#32).fmu.nsym.toNat < small.amax ∧
      2 ^ 32 - 1 < (pushing 3#32 3#32).fmu.total.toNat + (0xFFFFFFFD#32).toNat) ∧
    ((pushing 3#32 3#32).fmu.phase = .building ∧
      (pushing 3#32 3#32).fmu.total.toNat + (0xFFFFFFFC#32).toNat ≤ 2 ^ 32 - 1) := by decide

theorem witness_FmSealCompletesThePositiveTable :
    (sealedAt table201).flt.fault = false ∧ (sealedAt table201).fmu.phase ≠ .building ∧
    ((pushing 3#32 0#32).flt.fault = false ∧ (pushing 3#32 0#32).fmu.phase = .building ∧
      (pushing 3#32 0#32).fmu.total.toNat = 0) ∧
    ((pushing 3#32 1#32).flt.fault = false ∧ (pushing 3#32 1#32).fmu.phase = .building ∧
      0 < (pushing 3#32 1#32).fmu.total.toNat) := by decide

/-- Both clauses: a table that is building, and a sealed one. -/
theorem witness_FmNsymAnswersTheAlphabetSize :
    ((buildingAt table201).Inv ∧ (buildingAt table201).flt.fault = false ∧ (buildingAt table201).fmu.phase ≠ .sealed) ∧
    ((sealedAt table201).Inv ∧ (sealedAt table201).flt.fault = false ∧ (sealedAt table201).fmu.phase = .sealed) :=
  ⟨⟨building_inv, by decide, by decide⟩, sealed_inv, by decide, by decide⟩

theorem witness_FmTotalAnswersTheTotal :
    (fresh.Inv ∧ fresh.flt.fault = false ∧ fresh.fmu.phase ≠ .sealed) ∧
    ((sealedAt table201).Inv ∧ (sealedAt table201).flt.fault = false ∧ (sealedAt table201).fmu.phase = .sealed) :=
  ⟨⟨fresh_inv, by decide, by decide⟩, sealed_inv, by decide, by decide⟩

/-- The three clauses: the phase, the first symbol out of range, the first and the last one in range. -/
theorem witness_FmLowAnswersTheLowerBound :
    ((buildingAt table201).Inv ∧ (buildingAt table201).flt.fault = false ∧ (buildingAt table201).fmu.phase ≠ .sealed) ∧
    ((sealedAt table201).Inv ∧ (sealedAt table201).flt.fault = false ∧ (sealedAt table201).fmu.phase = .sealed ∧
      (sealedAt table201).fmu.nsym.toNat ≤ (3#32).toNat ∧ (0#32).toNat < (sealedAt table201).fmu.nsym.toNat ∧
      (2#32).toNat < (sealedAt table201).fmu.nsym.toNat) :=
  ⟨⟨building_inv, by decide, by decide⟩, sealed_inv, by decide, by decide, by decide, by decide, by decide⟩

theorem witness_FmHighAnswersTheUpperBound :
    ((buildingAt table201).Inv ∧ (buildingAt table201).flt.fault = false ∧ (buildingAt table201).fmu.phase ≠ .sealed) ∧
    ((sealedAt table201).Inv ∧ (sealedAt table201).flt.fault = false ∧ (sealedAt table201).fmu.phase = .sealed ∧
      (sealedAt table201).fmu.nsym.toNat ≤ (3#32).toNat ∧ (0#32).toNat < (sealedAt table201).fmu.nsym.toNat ∧
      (2#32).toNat + 1 = (sealedAt table201).fmu.nsym.toNat) :=
  ⟨⟨building_inv, by decide, by decide⟩, sealed_inv, by decide, by decide, by decide, by decide, by decide⟩

/-- A table as long as the capacity, in the middle of sessions. -/
theorem witness_FmBuildLeavesTheModelOfTheCounts :
    let counts : List Word32 := [2#32, 0#32, 1#32, 0xFFFFFFFC#32]
    (coding 3#32).params.legal = true ∧ (coding 3#32).flt.fault = false ∧ 1 ≤ counts.length ∧
      counts.length ≤ (coding 3#32).params.amax ∧ 0 < (counts.map BitVec.toNat).sum ∧
      (counts.map BitVec.toNat).sum < 2 ^ 32 := by decide

/-- The range as small as the total. -/
theorem witness_NarrowStaysInsideTheInterval :
    63 ≤ 128 ∧ 0 < 66 ∧ 65 < 66 ∧ 66 ≤ 66 ∧ 66 ≤ 128 - 63 + 1 := by decide

/-- The smallest and the largest width, and a one-point interval. -/
theorem witness_RenormalisationEndsWideWithinNIterations :
    (1 ≤ 1 ∧ 0 ≤ 0 ∧ 0 ≤ stateMask 1) ∧ (1 ≤ 8 ∧ 85 ≤ 169 ∧ 169 ≤ stateMask 8) ∧
      (1 ≤ 32 ∧ 2 ^ 31 ≤ 2 ^ 31 ∧ 2 ^ 31 ≤ stateMask 32) := by decide

theorem witness_ScaledValueIsBelowTheTotal : 0 ≤ 255 ∧ 255 ≤ 255 ∧ 0 < 66 := by decide

theorem witness_FindSymbolAnswersTheUniqueSymbol :
    FmuInv small table201 ∧ 0 < table201.total.toNat ∧ 2 < table201.total.toNat :=
  ⟨fmuInv_of_check (by decide), by decide, by decide⟩

/-- A table whose total is one above what width 8 allows. -/
def table67 : Fmu :=
  { cnt := [(0, 67#32)], cum := [(0, 0#32), (1, 67#32)], nsym := 1#32, total := 67#32, phase := .sealed }

/-- The total at the bound of width 8. -/
def table66 : Fmu :=
  { cnt := [(0, 66#32)], cum := [(0, 0#32), (1, 66#32)], nsym := 1#32, total := 66#32, phase := .sealed }

/-- The four clauses: width 0 and one above NMAX, no table, a total one too large, a total at the bound. -/
theorem witness_EncInitStartsAFullInterval :
    small.legal = true ∧ (sealedAt table66).params = small ∧ (sealedAt table66).flt.fault = false ∧
    ((0#32).toNat = 0 ∧ small.nmax < (9#32).toNat) ∧
    (1 ≤ (8#32).toNat ∧ (8#32).toNat ≤ small.nmax ∧ (buildingAt table66).fmu.phase ≠ .sealed) ∧
    ((sealedAt table67).fmu.phase = .sealed ∧ minimumRange (8#32).toNat < (sealedAt table67).fmu.total.toNat) ∧
    ((sealedAt table66).fmu.phase = .sealed ∧ (sealedAt table66).fmu.total.toNat ≤ minimumRange (8#32).toNat) := by
  decide

theorem witness_DecInitPrimesTheCode :
    small.legal = true ∧ (sealedAt table66).params = small ∧ (sealedAt table66).flt.fault = false ∧
    ((0#32).toNat = 0 ∧ small.nmax < (9#32).toNat) ∧
    (1 ≤ (8#32).toNat ∧ (8#32).toNat ≤ small.nmax ∧ (buildingAt table66).fmu.phase ≠ .sealed) ∧
    ((sealedAt table67).fmu.phase = .sealed ∧ minimumRange (8#32).toNat < (sealedAt table67).fmu.total.toNat) ∧
    ((sealedAt table66).fmu.phase = .sealed ∧ (sealedAt table66).fmu.total.toNat ≤ minimumRange (8#32).toNat) := by
  decide

/-- The clauses: no session, the first symbol out of range, a zero count, a positive count; and, for the last
one, a trace of one deferring iteration with the counter full, and with room. -/
theorem witness_EncWriteNarrowsAndEmits :
    ((sealedAt table201).Inv ∧ (sealedAt table201).flt.fault = false ∧ (sealedAt table201).enc.phase ≠ .active) ∧
    ((coding 0#32).Inv ∧ (coding 0#32).flt.fault = false ∧ (coding 0#32).enc.phase = .active ∧
      (coding 0#32).fmu.nsym.toNat ≤ (3#32).toNat ∧ (1#32).toNat < (coding 0#32).fmu.nsym.toNat ∧
      memRead (coding 0#32).fmu.cnt (1#32).toNat = some 0#32 ∧
      (2#32).toNat < (coding 0#32).fmu.nsym.toNat ∧ memRead (coding 0#32).fmu.cnt (2#32).toNat ≠ some 0#32) ∧
    RenormTrace 8 85 169 [.U] 42 211 ∧ emission 7 [.U] 7 = none ∧ emission 7 [.U] 6 = some ([], 7) := by
  refine ⟨⟨sealed_inv, by decide, by decide⟩,
    ⟨coding_inv, by decide, by decide, by decide, by decide, by decide, by decide, by decide⟩, ?_, by decide, by decide⟩
  exact .under (by decide) (by decide) (by decide) (by decide)
    (.stop (by decide) (by decide) (by decide))

/-- Room for exactly N more deferred bits, with a wider counter. -/
def roomy : State :=
  { coding 247#32 with params := { small with pbw := 8 } }

theorem witness_EncWriteCompletesWithRoom :
    roomy.Inv ∧ roomy.flt.fault = false ∧ roomy.enc.phase = .active ∧ (2#32).toNat < roomy.fmu.nsym.toNat ∧
      memRead roomy.fmu.cnt (2#32).toNat ≠ some 0#32 ∧
      roomy.enc.pend.toNat + roomy.enc.nbits.toNat = roomy.params.pmax := by
  refine ⟨?_, by decide, by decide, by decide, by decide, by decide⟩
  exact inv_of_checks (by decide) (by decide) (by decide) (by decide) (by decide)

/-- The three clauses: no session, the counter at PMAX, the counter one below it. -/
theorem witness_EncFinishFlushesTheInterval :
    ((sealedAt table201).flt.fault = false ∧ (sealedAt table201).enc.phase ≠ .active) ∧
    ((coding 7#32).flt.fault = false ∧ (coding 7#32).enc.phase = .active ∧
      2 ^ (coding 7#32).params.pbw - 1 ≤ (coding 7#32).enc.pend.toNat) ∧
    ((coding 6#32).flt.fault = false ∧ (coding 6#32).enc.phase = .active ∧
      (coding 6#32).enc.pend.toNat < 2 ^ (coding 6#32).params.pbw - 1) := by decide

theorem witness_EncWriteAccountsForEveryIteration :
    (coding 0#32).Inv ∧ (coding 0#32).flt.fault = false ∧
      ∃ t, exec (.encWrite 2#32) (coding 0#32) = .next t ∧ (!t.flt.fault) = true :=
  ⟨coding_inv, by decide, exists_of_seen (fun t => !t.flt.fault) (by decide)⟩

theorem witness_DecReadAnswersTheSymbolOfTheCode :
    ((sealedAt table201).Inv ∧ (sealedAt table201).flt.fault = false ∧ (sealedAt table201).dec.phase ≠ .active) ∧
    ((coding 0#32).Inv ∧ (coding 0#32).flt.fault = false ∧ (coding 0#32).dec.phase = .active) :=
  ⟨⟨sealed_inv, by decide, by decide⟩, coding_inv, by decide, by decide⟩

theorem witness_NoSourceContentIsAnError :
    (coding 0#32).Inv ∧ (coding 0#32).flt.fault = false ∧ (coding 0#32).dec.phase = .active :=
  ⟨coding_inv, by decide, by decide⟩

/-- The total at the bound of the width, a zero count in the table, one more bit of room than the symbols need. -/
theorem witness_ValidEncodingSessionsAnswerOk :
    let p : Params := { nmax := 3, amax := 3, pbw := 3 }
    let counts : List Word32 := [3#32, 0#32, 1#32]
    let syms : List Word32 := [2#32, 0#32]
    p.legal = true ∧ 1 ≤ (3#32).toNat ∧ (3#32).toNat ≤ p.nmax ∧ 1 ≤ counts.length ∧ counts.length ≤ p.amax ∧
      0 < (counts.map BitVec.toNat).sum ∧ (counts.map BitVec.toNat).sum ≤ minimumRange (3#32).toNat ∧
      (3#32).toNat * syms.length < p.pmax ∧ ∀ a ∈ syms, ∃ c, counts[a.toNat]? = some c ∧ 0 < c.toNat := by
  refine ⟨by decide, by decide, by decide, by decide, by decide, by decide, by decide, by decide, ?_⟩
  intro a ha
  simp only [List.mem_cons, List.not_mem_nil, or_false] at ha
  rcases ha with rfl | rfl
  · exact ⟨1#32, by decide, by decide⟩
  · exact ⟨3#32, by decide, by decide⟩

/-- A session of two symbols that ends without a fault. -/
theorem witness_MessagesDecodeToTheirSymbols :
    small.legal = true ∧
      ∃ e, execAll (encodeSession [2#32, 0#32, 1#32] 4#32 [2#32, 0#32]) (State.resetWith small) = .next e ∧
        (!e.flt.fault) = true :=
  ⟨by decide, exists_of_seen (fun e => !e.flt.fault) (by decide +kernel)⟩

end Sys2Proof.Tests
end

section
/-! PROOFS. The status words (10_state.md R46 to R48) field by field, and the state after reset (R51). -/

namespace Sys2Proof.Machine

/-! ## The words as naturals -/

/-- A word put together from two parts, as a natural. -/
theorem toNat_append_eq_add {m n : Nat} (x : BitVec m) (y : BitVec n) :
    (x ++ y).toNat = x.toNat * 2 ^ n + y.toNat := by
  rw [BitVec.toNat_append, ← Nat.shiftLeft_add_eq_or_of_lt y.isLt, Nat.shiftLeft_eq]

/-- The value 3 of FM_PHASE never occurs (10_state.md R26; log 12). -/
theorem FmPhase.bits_le (p : FmPhase) : p.bits ≤ 2 := by cases p <;> decide

/-- The value 3 of E_PHASE never occurs (10_state.md R34; log 12). -/
theorem EncPhase.bits_le (p : EncPhase) : p.bits ≤ 2 := by cases p <;> decide

theorem DecPhase.bits_le (p : DecPhase) : p.bits ≤ 1 := by cases p <;> decide

theorem statusFields_le (s : State) : s.flt.fault.toNat ≤ 1 ∧ s.fmu.phase.bits ≤ 2 ∧
    s.enc.phase.bits ≤ 2 ∧ s.dec.phase.bits ≤ 1 :=
  ⟨s.flt.fault.toNat_le, s.fmu.phase.bits_le, s.enc.phase.bits_le, s.dec.phase.bits_le⟩

/-- No field of STATUS carries into the next one (10_state.md R46). -/
theorem statusWord_toNat (s : State) : (statusWord s).toNat =
    s.flt.fault.toNat + s.fmu.phase.bits * 2 + s.enc.phase.bits * 8 + s.dec.phase.bits * 32 := by
  obtain ⟨hfault, hfm, henc, hdec⟩ := statusFields_le s
  rw [statusWord, BitVec.toNat_ofNat]
  omega

/-- AMAX is below 2^24 and NMAX below 2^8 in a legal instance (00_scope.md R7), so CAP holds both whole. -/
theorem capWord_toNat {p : Params} (h : p.legal = true) : (capWord p).toNat = p.amax * 2 ^ 8 + p.nmax := by
  obtain ⟨-, hnmax, -, hamax, -, -⟩ := (Machine.Params.legal_iff p).mp h
  rw [capWord, toNat_append_eq_add, BitVec.toNat_ofNat, BitVec.toNat_ofNat]
  omega

/-- CAP2 holds CW = 32 and, PBW being at most 32 in a legal instance, PBW whole (00_scope.md R7). -/
theorem cap2Word_toNat {p : Params} (h : p.legal = true) : (cap2Word p).toNat = 32 * 2 ^ 8 + p.pbw := by
  obtain ⟨-, -, -, -, -, hpbw⟩ := (Machine.Params.legal_iff p).mp h
  rw [cap2Word, toNat_append_eq_add, toNat_append_eq_add]
  simp only [BitVec.toNat_ofNat, Config.CW]
  omega

/-! ## The fields of STATUS (10_state.md R46) -/

/-- A field of STATUS as a natural: shifted down and cut to its width. -/
theorem statusWord_field_toNat (s : State) (start len : Nat) :
    ((statusWord s).extractLsb' start len).toNat =
      (s.flt.fault.toNat + s.fmu.phase.bits * 2 + s.enc.phase.bits * 8 + s.dec.phase.bits * 32) /
        2 ^ start % 2 ^ len := by
  rw [BitVec.extractLsb'_toNat, statusWord_toNat, Nat.shiftRight_eq_div_pow]

theorem statusWord_fault (s : State) : (statusWord s).getLsbD 0 = s.flt.fault := by
  have hbit : (statusWord s).toNat / 2 ^ 0 % 2 = s.flt.fault.toNat := by
    have hfault := s.flt.fault.toNat_le
    rw [statusWord_toNat]
    omega
  rw [← BitVec.testBit_toNat, Nat.testBit_eq_decide_div_mod_eq, hbit]
  cases s.flt.fault <;> rfl

theorem statusWord_fmPhase (s : State) : (statusWord s).extractLsb' 1 2 = BitVec.ofNat 2 s.fmu.phase.bits := by
  obtain ⟨hfault, hfm, -, -⟩ := statusFields_le s
  apply BitVec.eq_of_toNat_eq
  rw [statusWord_field_toNat, BitVec.toNat_ofNat]
  omega

theorem statusWord_encPhase (s : State) : (statusWord s).extractLsb' 3 2 = BitVec.ofNat 2 s.enc.phase.bits := by
  obtain ⟨hfault, hfm, -, -⟩ := statusFields_le s
  apply BitVec.eq_of_toNat_eq
  rw [statusWord_field_toNat, BitVec.toNat_ofNat]
  omega

theorem statusWord_decPhase (s : State) : (statusWord s).getLsbD 5 = decide (s.dec.phase.bits = 1) := by
  obtain ⟨hfault, hfm, henc, hdec⟩ := statusFields_le s
  rw [← BitVec.testBit_toNat, statusWord_toNat, Nat.testBit_eq_decide_div_mod_eq]
  apply decide_eq_decide.mpr
  omega

theorem statusWord_unused (s : State) : (statusWord s).extractLsb' 6 26 = 0#26 := by
  obtain ⟨hfault, hfm, henc, hdec⟩ := statusFields_le s
  apply BitVec.eq_of_toNat_eq
  rw [statusWord_field_toNat, BitVec.toNat_ofNat]
  omega

/-! ## The fields of ERRINFO (10_state.md R47) -/

theorem errinfoWord_errcode (s : State) : (errinfoWord s).extractLsb' 0 8 = s.flt.errcode := by
  rw [errinfoWord, BitVec.extractLsb'_append_eq_of_add_le (by decide), BitVec.extractLsb'_append_eq_right]

theorem errinfoWord_erropc (s : State) : (errinfoWord s).extractLsb' 8 8 = s.flt.erropc := by
  rw [errinfoWord, BitVec.extractLsb'_append_eq_of_add_le (by decide), BitVec.extractLsb'_append_eq_left]

theorem errinfoWord_unused (s : State) : (errinfoWord s).extractLsb' 16 16 = 0#16 :=
  BitVec.extractLsb'_append_eq_left

/-- Settles O29: STATUS as a natural, whose fields do not overlap, and the other words part by part. -/
theorem statusWordsHoldTheirFields : Obligations.StatusWordsHoldTheirFields := by
  intro s hlegal
  refine ⟨statusWord_fault s, ?fmPhase, ?encPhase, ?decPhase, statusWord_unused s, errinfoWord_errcode s,
    errinfoWord_erropc s, errinfoWord_unused s, capWord_toNat hlegal, cap2Word_toNat hlegal⟩
  case fmPhase =>
    rw [statusWord_fmPhase]
    cases s.fmu.phase <;> rfl
  case encPhase =>
    rw [statusWord_encPhase]
    cases s.enc.phase <;> rfl
  case decPhase =>
    rw [statusWord_decPhase]
    cases s.dec.phase <;> rfl

/-! ## The state after reset (10_state.md R51) -/

theorem resetWith_holdsResetValues (p : Params) : HoldsResetValues (State.resetWith p) :=
  ⟨rfl, rfl, rfl, rfl, rfl, rfl, rfl⟩

/-- Register 3 is CAP (10_state.md R45). -/
theorem readRegister_cap (s : State) : readRegister s 3#32 = some (capWord s.params) := rfl

/-- Register 6 is CAP2 (10_state.md R45). -/
theorem readRegister_cap2 (s : State) : readRegister s 6#32 = some (cap2Word s.params) := rfl

/-- Settles O9: the reset values hold for all parameters, and CAP and CAP2 are those of a legal instance. -/
theorem resetStateHoldsTheSpecsValues : Obligations.ResetStateHoldsTheSpecsValues := by
  refine ⟨fun p hlegal => ⟨resetWith_holdsResetValues p, resetWith_params p, ?cap, ?cap2⟩, rfl, ?capDefault,
    ?cap2Default⟩
  case cap => exact ⟨capWord p, readRegister_cap _, capWord_toNat hlegal⟩
  case cap2 => exact ⟨cap2Word p, readRegister_cap2 _, cap2Word_toNat hlegal⟩
  case capDefault =>
    rw [readRegister_cap]
    decide
  case cap2Default =>
    rw [readRegister_cap2]
    decide

end Sys2Proof.Machine
end

section
/-! PROOFS. The byte packer and unpacker (20_memory.md R70, R71): both are read through the bits of single
bytes, and a packed sequence is what unpacks to the padded sequence. -/

namespace Sys2Proof.Machine

/-! ## The bits of one byte -/

@[simp] theorem bitsOfByte_length (b : Byte) : (bitsOfByte b).length = 8 := by simp [bitsOfByte]

theorem bitsOfByte_getElem? (b : Byte) {i : Nat} (hi : i < 8) :
    (bitsOfByte b)[i]? = some (b.getLsbD (7 - i)) := by
  rw [bitsOfByte, List.getElem?_map, List.getElem?_range hi, Option.map_some]

theorem byte_getLsbD_eq_decide (b : Byte) (k : Nat) :
    b.getLsbD k = decide (b.toNat / 2 ^ k % 2 = 1) := by
  rw [← BitVec.testBit_toNat, Nat.testBit_eq_decide_div_mod_eq]

/-- A byte is the sum of its bits, each by its weight. -/
theorem byte_toNat_eq_sum (b : Byte) :
    b.toNat = ((List.range 8).map fun i => (b.getLsbD (7 - i)).toNat * 2 ^ (7 - i)).sum := by
  have hbit (k : Nat) : (b.getLsbD k).toNat = b.toNat / 2 ^ k % 2 := by
    rw [← BitVec.testBit_toNat, Nat.toNat_testBit]
  have hlt := b.isLt
  simp only [hbit, List.range_eq_range', List.range', List.map_cons, List.map_nil, List.sum_cons, List.sum_nil]
  omega

/-- Reading a sequence first bit most significant puts its last bit at position 0. -/
theorem foldl_bits_testBit (bits : List Bit) (k : Nat) :
    (bits.foldl (fun v (b : Bit) => 2 * v + b.toNat) 0).testBit k = bits.reverse[k]?.getD false := by
  induction bits using List.reverseRecOn generalizing k with
  | nil => simp
  | append_singleton bits b ih =>
    rw [List.foldl_concat, ← Nat.bit_val, List.reverse_concat]
    cases k with
    | zero => simp
    | succ k => rw [Nat.testBit_bit_succ, ih, List.getElem?_cons_succ]

theorem byteOfBits_getLsbD (bits : List Bit) {k : Nat} (hk : k < 8) :
    (byteOfBits bits).getLsbD k = bits.reverse[k]?.getD false := by
  rw [byteOfBits, BitVec.getLsbD_ofNat, foldl_bits_testBit, decide_eq_true hk, Bool.true_and]

theorem bitsOfByte_byteOfBits {bits : List Bit} (hlen : bits.length = 8) : bitsOfByte (byteOfBits bits) = bits := by
  apply List.ext_getElem?
  intro i
  rcases Nat.lt_or_ge i 8 with hi | hi
  · have hrev : bits.reverse[7 - i]? = bits[i]? := by
      rw [List.getElem?_reverse (by omega), hlen, show 8 - 1 - (7 - i) = i by omega]
    have hsome : bits[i]? = some bits[i] := List.getElem?_eq_getElem (by omega)
    rw [bitsOfByte_getElem? _ hi, byteOfBits_getLsbD bits (by omega), hrev, hsome, Option.getD_some]
  · rw [List.getElem?_eq_none (by rwa [bitsOfByte_length]), List.getElem?_eq_none (by rwa [hlen])]

/-! ## Unpack (20_memory.md R71) -/

@[simp] theorem unpack_cons (b : Byte) (bytes : List Byte) : unpack (b :: bytes) = bitsOfByte b ++ unpack bytes := rfl

theorem unpack_length (bytes : List Byte) : (unpack bytes).length = 8 * bytes.length := by
  induction bytes with
  | nil => rfl
  | cons b bytes ih => rw [unpack_cons, List.length_append, bitsOfByte_length, ih, List.length_cons]; omega

/-- Bit `8j + i` of the unpacked sequence is bit `7 - i` of byte `j`. -/
theorem unpack_getElem? {bytes : List Byte} {j : Nat} {b : Byte} (hb : bytes[j]? = some b) {i : Nat} (hi : i < 8) :
    (unpack bytes)[8 * j + i]? = some (b.getLsbD (7 - i)) := by
  induction bytes generalizing j with
  | nil => simp at hb
  | cons c bytes ih =>
    rw [unpack_cons]
    cases j with
    | zero =>
      obtain rfl : c = b := by simpa using hb
      rw [Nat.mul_zero, Nat.zero_add, List.getElem?_append_left (by rwa [bitsOfByte_length]),
        bitsOfByte_getElem? c hi]
    | succ j =>
      rw [List.getElem?_append_right (by rw [bitsOfByte_length]; omega), bitsOfByte_length,
        show 8 * (j + 1) + i - 8 = 8 * j + i by omega]
      exact ih (by simpa using hb)

/-! ## Pack (20_memory.md R70) -/

theorem bytesOfBits_length (count : Nat) (bits : List Bit) : (bytesOfBits count bits).length = count := by
  induction count generalizing bits with
  | zero => rfl
  | succ count ih => rw [bytesOfBits, List.length_cons, ih]

theorem unpack_bytesOfBits {count : Nat} {bits : List Bit} (hlen : bits.length = 8 * count) :
    unpack (bytesOfBits count bits) = bits := by
  induction count generalizing bits with
  | zero => exact (List.eq_nil_of_length_eq_zero hlen).symm
  | succ count ih =>
    have htake : (bits.take 8).length = 8 := by rw [List.length_take]; omega
    have hdrop : (bits.drop 8).length = 8 * count := by rw [List.length_drop]; omega
    rw [bytesOfBits, unpack_cons, bitsOfByte_byteOfBits htake, ih hdrop, List.take_append_drop]

/-- The padding fills exactly the last byte. -/
theorem padded_length (out : List Bit) : (out ++ padding out).length = 8 * ((out.length + 7) / 8) := by
  rw [padding, List.length_append, List.length_replicate]
  omega

theorem pack_eq_bytesOfBits (out : List Bit) :
    pack out = bytesOfBits ((out.length + 7) / 8) (out ++ padding out) := by
  rw [pack, padded_length, Nat.mul_div_cancel_left _ (by decide)]

theorem pack_length (out : List Bit) : (pack out).length = (out.length + 7) / 8 := by
  rw [pack_eq_bytesOfBits, bytesOfBits_length]

theorem unpack_pack (out : List Bit) : unpack (pack out) = out ++ padding out := by
  rw [pack_eq_bytesOfBits, unpack_bytesOfBits (padded_length out)]

/-- Past the end of a sequence, its padding reads as the absent bits do: 0. -/
theorem padded_getElem?_getD (out : List Bit) (k : Nat) :
    (out ++ padding out)[k]?.getD false = out[k]?.getD false := by
  rcases Nat.lt_or_ge k out.length with hk | hk
  · rw [List.getElem?_append_left hk]
  · rw [List.getElem?_append_right hk, List.getElem?_eq_none hk, padding, List.getElem?_replicate]
    split <;> rfl

/-- Bit `7 - i` of byte `j` of the packed sequence is bit `8j + i` of the sequence, 0 past its end. -/
theorem pack_getLsbD {out : List Bit} {j : Nat} {b : Byte} (hb : (pack out)[j]? = some b) {i : Nat} (hi : i < 8) :
    b.getLsbD (7 - i) = out[8 * j + i]?.getD false := by
  rw [← padded_getElem?_getD, ← unpack_pack, unpack_getElem? hb hi, Option.getD_some]

/-- Settles O53: the packed bytes have the bits they unpack to, and these are the padded sequence. -/
theorem unpackUndoesPackUpToZeros : Obligations.UnpackUndoesPackUpToZeros := by
  refine ⟨fun out => ⟨pack_length out, fun j b hb => ?packed⟩,
    fun bytes => ⟨unpack_length bytes, fun j b hb i hi => ?unpacked⟩,
    fun out => ⟨(8 - out.length % 8) % 8, Nat.mod_lt _ (by decide), unpack_pack out⟩⟩
  case packed =>
    rw [byte_toNat_eq_sum b]
    congr 1
    apply List.map_congr_left
    intro i hi
    rw [pack_getLsbD hb (List.mem_range.mp hi)]
  case unpacked => rw [unpack_getElem? hb hi, byte_getLsbD_eq_decide]

end Sys2Proof.Machine
end

section
/-! PROOFS. The decoder against the encoder and against the spec's own words for it: the row's mask and
match (30_encoding.md R91), the well-formed words (R93). A word is its three fields (R90). -/

namespace Sys2Proof

/-! ## A word is its fields (30_encoding.md R90) -/

theorem word_eq_iff_fields (w v : Word64) :
    w = v ↔ opcField w = opcField v ∧ rsvField w = rsvField v ∧ argField w = argField v := by
  refine ⟨fun h => h ▸ ⟨rfl, rfl, rfl⟩, fun ⟨hopc, hrsv, harg⟩ => ?fieldsDetermine⟩
  have hw := w.isLt
  have hv := v.isLt
  have hopc := congrArg BitVec.toNat hopc
  have hrsv := congrArg BitVec.toNat hrsv
  have harg := congrArg BitVec.toNat harg
  simp only [opcField, rsvField, argField, BitVec.extractLsb'_toNat, Nat.shiftRight_eq_div_pow] at hopc hrsv harg
  apply BitVec.eq_of_toNat_eq
  omega

theorem eq_encode_iff (w : Word64) (i : Instr) :
    w = encode i ↔ opcField w = i.opcode ∧ rsvField w = 0#24 ∧ argField w = i.arg := by
  rw [word_eq_iff_fields, opcField_encode, rsvField_encode, argField_encode]

/-! ## The rows of the opcode table (30_encoding.md R96) -/

theorem encodedFields (i : Instr) : Laws.EncodedFields.Statement i := by
  cases i with
  | sysReset => exact Laws.EncodedFields.sysReset
  | sysRdreg r => exact Laws.EncodedFields.sysRdreg r
  | fmClear => exact Laws.EncodedFields.fmClear
  | fmPush c => exact Laws.EncodedFields.fmPush c
  | fmSeal => exact Laws.EncodedFields.fmSeal
  | fmNsym => exact Laws.EncodedFields.fmNsym
  | fmLow s => exact Laws.EncodedFields.fmLow s
  | fmHigh s => exact Laws.EncodedFields.fmHigh s
  | fmTotal => exact Laws.EncodedFields.fmTotal
  | encInit n => exact Laws.EncodedFields.encInit n
  | encWrite s => exact Laws.EncodedFields.encWrite s
  | encFinish => exact Laws.EncodedFields.encFinish
  | decInit n => exact Laws.EncodedFields.decInit n
  | decRead => exact Laws.EncodedFields.decRead

theorem Instr.formatOfOpcode_opcode (i : Instr) : formatOfOpcode i.opcode = some i.format := by
  obtain ⟨hformat, -⟩ := encodedFields i
  exact hformat

theorem Instr.arg_eq_zero_of_formatZ {i : Instr} (h : i.format = .Z) : i.arg = 0#32 := by
  obtain ⟨-, -, -, -, harg⟩ := encodedFields i
  exact harg h

/-- Every assigned opcode with every operand its format allows is the opcode and operand of a command. -/
theorem exists_instr_of_formatOfOpcode {opc : Byte} {f : Format} {a : Word32} (hf : formatOfOpcode opc = some f)
    (ha : f = .Z → a = 0#32) : ∃ i : Instr, i.opcode = opc ∧ i.arg = a := by
  unfold formatOfOpcode at hf
  split at hf
  case isTrue hmem =>
    obtain rfl : a = 0#32 := ha (Option.some.inj hf).symm
    simp only [List.mem_cons, List.not_mem_nil, or_false] at hmem
    rcases hmem with rfl | rfl | rfl | rfl | rfl | rfl | rfl
    exacts [⟨.sysReset, rfl, rfl⟩, ⟨.fmClear, rfl, rfl⟩, ⟨.fmSeal, rfl, rfl⟩, ⟨.fmNsym, rfl, rfl⟩,
      ⟨.fmTotal, rfl, rfl⟩, ⟨.encFinish, rfl, rfl⟩, ⟨.decRead, rfl, rfl⟩]
  case isFalse =>
    split at hf
    case isTrue hmem =>
      simp only [List.mem_cons, List.not_mem_nil, or_false] at hmem
      rcases hmem with rfl | rfl | rfl | rfl | rfl | rfl | rfl
      exacts [⟨.sysRdreg a, rfl, rfl⟩, ⟨.fmPush a, rfl, rfl⟩, ⟨.fmLow a, rfl, rfl⟩,
        ⟨.fmHigh a, rfl, rfl⟩, ⟨.encInit a, rfl, rfl⟩, ⟨.encWrite a, rfl, rfl⟩, ⟨.decInit a, rfl, rfl⟩]
    case isFalse => cases hf

/-! ## The decoder answers a command exactly on the command's own word (30_encoding.md R93) -/

theorem formatZ_eq_command_iff (w : Word64) (i j : Instr) :
    formatZ w i = .command j ↔ argField w = 0#32 ∧ i = j := by
  unfold formatZ
  split
  case isTrue harg => simp [harg]
  case isFalse harg => simp [harg]

theorem formatA_eq_command_iff (w : Word64) (i : Word32 → Instr) (j : Instr) :
    formatA w i = .command j ↔ i (argField w) = j := by
  rw [formatA, Decoded.command.injEq]

theorem decode_encode (i : Instr) : decode (encode i) = .command i := by
  unfold decode
  rw [rsvField_encode, opcField_encode, if_pos rfl]
  cases i with
  | sysReset | fmClear | fmSeal | fmNsym | fmTotal | encFinish | decRead =>
    exact (formatZ_eq_command_iff _ _ _).mpr ⟨argField_encode _, rfl⟩
  | sysRdreg a | fmPush a | fmLow a | fmHigh a | encInit a | encWrite a | decInit a =>
    exact (formatA_eq_command_iff _ _ _).mpr (congrArg _ (argField_encode _))

theorem eq_encode_of_decode {w : Word64} {i : Instr} (h : decode w = .command i) : w = encode i := by
  unfold decode at h
  split at h
  case isTrue hrsv =>
    rw [eq_encode_iff]
    split at h
    case h_15 => cases h
    case h_1 hopc | h_3 hopc | h_5 hopc | h_6 hopc | h_9 hopc | h_12 hopc | h_14 hopc =>
      obtain ⟨harg, rfl⟩ := (formatZ_eq_command_iff _ _ _).mp h
      exact ⟨BitVec.eq_of_toNat_eq hopc, hrsv, harg⟩
    case h_2 hopc | h_4 hopc | h_7 hopc | h_8 hopc | h_10 hopc | h_11 hopc | h_13 hopc =>
      obtain rfl := (formatA_eq_command_iff _ _ _).mp h
      exact ⟨BitVec.eq_of_toNat_eq hopc, hrsv, rfl⟩
  case isFalse => cases h

theorem decode_eq_command_iff (w : Word64) (i : Instr) : decode w = .command i ↔ w = encode i :=
  ⟨eq_encode_of_decode, fun h => h ▸ decode_encode i⟩

/-! ## Mask and match (30_encoding.md R91) -/

theorem rowMatch_eq_append (o : Byte) : rowMatch o = (o ++ (0#24 ++ 0#32) : BitVec (8 + (24 + 32))) := by
  have ho := o.isLt
  refine BitVec.eq_of_toNat_eq (Eq.trans ?_ (word_toNat o 0#32).symm)
  rw [rowMatch, BitVec.toNat_shiftLeft, BitVec.toNat_setWidth, Nat.shiftLeft_eq, BitVec.toNat_ofNat]
  omega

theorem rowMatch_fields (o : Byte) :
    opcField (rowMatch o) = o ∧ rsvField (rowMatch o) = 0#24 ∧ argField (rowMatch o) = 0#32 := by
  rw [rowMatch_eq_append]
  exact ⟨opcField_append o 0#32, rsvField_append o 0#32, argField_append o 0#32⟩

/-- The mask of a format keeps OPC and RSV, and ARG only in format Z. -/
theorem mask_fields (w : Word64) (f : Format) :
    opcField (w &&& f.mask) = opcField w ∧ rsvField (w &&& f.mask) = rsvField w ∧
      argField (w &&& f.mask) = if f = .Z then argField w else 0#32 := by
  have hones : opcField f.mask = BitVec.allOnes 8 ∧ rsvField f.mask = BitVec.allOnes 24 ∧
      argField f.mask = if f = .Z then BitVec.allOnes 32 else 0#32 := by cases f <;> decide
  obtain ⟨hopc, hrsv, harg⟩ := hones
  unfold opcField rsvField argField at *
  simp only [BitVec.extractLsb'_and, hopc, hrsv, harg, BitVec.and_allOnes, true_and]
  split
  · exact BitVec.and_allOnes
  · exact BitVec.and_zero

/-- A row selects the words with its opcode and RSV zero, and in format Z with ARG zero. -/
theorem and_mask_eq_rowMatch_iff (w : Word64) (f : Format) (o : Byte) :
    w &&& f.mask = rowMatch o ↔ opcField w = o ∧ rsvField w = 0#24 ∧ (f = .Z → argField w = 0#32) := by
  obtain ⟨hopcMask, hrsvMask, hargMask⟩ := mask_fields w f
  obtain ⟨hopcRow, hrsvRow, hargRow⟩ := rowMatch_fields o
  rw [word_eq_iff_fields, hopcMask, hrsvMask, hargMask, hopcRow, hrsvRow, hargRow]
  cases f <;> simp

theorem decode_eq_command_iff_mask_match (w : Word64) (i : Instr) :
    decode w = .command i ↔ w &&& i.format.mask = rowMatch i.opcode ∧ (i.format = .A → i.arg = argField w) := by
  rw [decode_eq_command_iff, eq_encode_iff, and_mask_eq_rowMatch_iff, and_assoc, and_assoc]
  refine and_congr_right fun _ => and_congr_right fun _ => ?operand
  cases hf : i.format with
  | Z => simp [Instr.arg_eq_zero_of_formatZ hf]
  | A => simp [eq_comm]

/-- Settles O2: both sides say that the word is the command's own, field by field. -/
theorem decodeSelectsRowsByMaskAndMatch : Obligations.DecodeSelectsRowsByMaskAndMatch :=
  decode_eq_command_iff_mask_match

/-! ## Well-formed words (30_encoding.md R93) -/

theorem wellFormedWord_iff_fields (w : Word64) : wellFormedWord w = true ↔
    ∃ f, formatOfOpcode (opcField w) = some f ∧ rsvField w = 0#24 ∧ (f = .Z → argField w = 0#32) := by
  simp only [wellFormedWord, opcodeAssigned, reservedZero, operandFitsFormat, Bool.and_eq_true,
    Option.isSome_iff_exists, decide_eq_true_eq]
  constructor
  · rintro ⟨⟨⟨f, hf⟩, hrsv⟩, harg⟩
    exact ⟨f, hf, hrsv, fun hz => harg (hz ▸ hf)⟩
  · rintro ⟨f, hf, hrsv, harg⟩
    exact ⟨⟨⟨f, hf⟩, hrsv⟩, fun hz => harg (Option.some.inj (hf.symm.trans hz))⟩

theorem wellFormedWord_iff_encode (w : Word64) : wellFormedWord w = true ↔ ∃ i, w = encode i := by
  rw [wellFormedWord_iff_fields]
  constructor
  · rintro ⟨f, hf, hrsv, harg⟩
    obtain ⟨i, hopc, hoperand⟩ := exists_instr_of_formatOfOpcode hf harg
    exact ⟨i, (eq_encode_iff w i).mpr ⟨hopc.symm, hrsv, hoperand.symm⟩⟩
  · rintro ⟨i, rfl⟩
    rw [opcField_encode, rsvField_encode, argField_encode]
    exact ⟨i.format, i.formatOfOpcode_opcode, rfl, Instr.arg_eq_zero_of_formatZ⟩

/-- Settles O3: the well-formed words are the encoded commands, on which alone the decoder answers a command. -/
theorem wellFormedWordsAreExactlyTheCommands : Obligations.WellFormedWordsAreExactlyTheCommands := by
  intro w
  constructor
  · intro hwf
    obtain ⟨i, rfl⟩ := (wellFormedWord_iff_encode w).mp hwf
    refine ⟨i, decode_encode i, fun j hj => ?unique⟩
    exact Decoded.command.inj (hj.symm.trans (decode_encode i))
  · intro hill
    cases hdec : decode w with
    | illegal why => exact ⟨why, rfl⟩
    | command i =>
      have hwf : wellFormedWord w = true := (wellFormedWord_iff_encode w).mpr ⟨i, eq_encode_of_decode hdec⟩
      exact absurd (hill.symm.trans hwf) Bool.false_ne_true

end Sys2Proof
end

section
/-! PROOFS. The FMU commands (40_fm.md R111 to R117): an equation for every case of every command, and what
the FMU invariant (10_state.md R27) says of the entries a sealed table is asked for. -/

namespace Sys2Proof.Machine

/-! ## Responses and command words as the statements spell them -/

/-- An OK response in the layout of 30_encoding.md R94 is the value under 32 zeros. -/
theorem responseWord_ok (v : Word32) : responseWord Code.ok.byte v = okWord v := by
  exact BitVec.append_assoc.symm

theorem answer_eq_okWord (v : Word32) (s : State) :
    answer v s = .next { s with rsps := s.rsps ++ [okWord v] } := by
  rw [answer_eq, respond, responseWord_ok]

/-- A command that returns no value answers the word 0 (30_encoding.md R94). -/
theorem answer_zero (s : State) : answer 0#32 s = .next { s with rsps := s.rsps ++ [0#64] } := answer_eq_okWord 0#32 s

/-- `raise` leaves exactly the state of 60_exceptions.md R225. -/
theorem raise_eq_refusedWith (e : Code) (w : Word64) (s : State) :
    raise e w s = .next (refusedWith s e.byte w) := rfl

/-- A command word is its upper half, OPC over 24 zeros, and its operand (30_encoding.md R90). -/
theorem append_arg_eq_encode {i : Instr} {upper : Word32} (h : upper = (i.opcode ++ 0#24 : BitVec (8 + 24))) :
    (upper ++ i.arg : BitVec (32 + 32)) = encode i := by
  rw [h]
  exact BitVec.append_assoc

theorem fmPush_word (c : Word32) : (0x11000000#32 ++ c : BitVec (32 + 32)) = encode (.fmPush c) :=
  append_arg_eq_encode (i := .fmPush c) (by rw [Instr.opcode]; decide)

theorem fmLow_word (a : Word32) : (0x14000000#32 ++ a : BitVec (32 + 32)) = encode (.fmLow a) :=
  append_arg_eq_encode (i := .fmLow a) (by rw [Instr.opcode]; decide)

theorem fmHigh_word (a : Word32) : (0x15000000#32 ++ a : BitVec (32 + 32)) = encode (.fmHigh a) :=
  append_arg_eq_encode (i := .fmHigh a) (by rw [Instr.opcode]; decide)

/-! ## The checks of the operands -/

theorem symbolInRange_eq_false_iff (s : State) (a : Word32) :
    symbolInRange s a = false ↔ s.fmu.nsym.toNat ≤ a.toNat := by
  rw [symbolInRange, decide_eq_false_iff_not, Nat.not_lt]

theorem countFits_eq_false_iff (s : State) (c : Word32) :
    countFits s c = false ↔ 2 ^ 32 - 1 < s.fmu.total.toNat + c.toNat := by
  rw [countFits, decide_eq_false_iff_not, Nat.not_le, Config.CW]

/-- A 32-bit register written with a sum of two words holds their sum as words. -/
theorem regOf_toNat_add (x y : Word32) : regOf 32 (x.toNat + y.toNat) = x + y := by
  apply BitVec.eq_of_toNat_eq
  rw [regOf, BitVec.toNat_ofNat, Nat.mod_mod, BitVec.toNat_add]

/-! ## What FM.CLEAR and FM.PUSH make of the FMU -/

/-- The empty table of 40_fm.md R111. -/
def Fmu.cleared (f : Fmu) : Fmu :=
  { f with cum := memWrite f.cum 0 0#32, nsym := 0#32, total := 0#32, phase := .building }

/-- The table with one more count `c` (40_fm.md R112). -/
def Fmu.pushed (f : Fmu) (c : Word32) : Fmu :=
  { f with
    cnt := memWrite f.cnt f.nsym.toNat c
    cum := memWrite f.cum (f.nsym.toNat + 1) (f.total + c)
    total := f.total + c
    nsym := f.nsym + 1#32 }

theorem Fmu.cleared_cum_zero (f : Fmu) : memRead f.cleared.cum 0 = some 0#32 := memRead_memWrite_same _ _ _

theorem Fmu.cleared_cum_other (f : Fmu) {i : Nat} (h : i ≠ 0) : memRead f.cleared.cum i = memRead f.cum i :=
  memRead_memWrite_other _ _ h

theorem Fmu.pushed_cnt_nsym (f : Fmu) (c : Word32) : memRead (f.pushed c).cnt f.nsym.toNat = some c :=
  memRead_memWrite_same _ _ _

theorem Fmu.pushed_cnt_other (f : Fmu) (c : Word32) {i : Nat} (h : i ≠ f.nsym.toNat) :
    memRead (f.pushed c).cnt i = memRead f.cnt i := memRead_memWrite_other _ _ h

theorem Fmu.pushed_cum_nsym_succ (f : Fmu) (c : Word32) :
    memRead (f.pushed c).cum (f.nsym.toNat + 1) = some (f.total + c) := memRead_memWrite_same _ _ _

theorem Fmu.pushed_cum_other (f : Fmu) (c : Word32) {i : Nat} (h : i ≠ f.nsym.toNat + 1) :
    memRead (f.pushed c).cum i = memRead f.cum i := memRead_memWrite_other _ _ h

theorem Fmu.pushed_total_toNat {f : Fmu} {c : Word32} (h : f.total.toNat + c.toNat ≤ 2 ^ 32 - 1) :
    (f.pushed c).total.toNat = f.total.toNat + c.toNat :=
  BitVec.toNat_add_of_lt (Nat.lt_of_le_sub_one (by decide) h)

/-- AMAX is below 2^24 (00_scope.md R7), so the fill level of a table with room does not wrap. -/
theorem Fmu.pushed_nsym_toNat {p : Params} (hlegal : p.legal = true) {f : Fmu} (c : Word32)
    (hroom : f.nsym.toNat < p.amax) : (f.pushed c).nsym.toNat = f.nsym.toNat + 1 := by
  obtain ⟨-, -, -, hamax, -, -⟩ := (Params.legal_iff p).mp hlegal
  exact BitVec.toNat_add_of_lt (y := 1#32) (show f.nsym.toNat + 1 < 2 ^ 32 by omega)

/-! ## The cases of each command while FAULT = 0 -/

section commands

variable {s : State} (hf : s.flt.fault = false)

include hf

theorem exec_fmClear_ok :
    exec .fmClear s = .next { s with
      fmu := s.fmu.cleared
      enc := { s.enc with phase := .idle }
      dec := { s.dec with phase := .idle }
      rsps := s.rsps ++ [0#64] } := by
  rw [exec, execFmClear, unlessFaulted_running hf, answer_zero, Fmu.cleared]

theorem exec_fmPush_wrongPhase (c : Word32) (hphase : s.fmu.phase ≠ .building) :
    exec (.fmPush c) s = .next (refusedWith s Code.phase.byte (encode (.fmPush c))) := by
  rw [exec, execFmPush, unlessFaulted_running hf, if_pos hphase, raise_eq_refusedWith]

theorem exec_fmPush_tableFull (c : Word32) (hphase : s.fmu.phase = .building)
    (hfull : s.params.amax ≤ s.fmu.nsym.toNat) :
    exec (.fmPush c) s = .next (refusedWith s Code.tableFull.byte (encode (.fmPush c))) := by
  rw [exec, execFmPush, unlessFaulted_running hf, if_neg (not_not.mpr hphase), if_pos hfull, raise_eq_refusedWith]

theorem exec_fmPush_countOvf {c : Word32} (hphase : s.fmu.phase = .building)
    (hroom : s.fmu.nsym.toNat < s.params.amax) (hovf : 2 ^ 32 - 1 < s.fmu.total.toNat + c.toNat) :
    exec (.fmPush c) s = .next (refusedWith s Code.countOvf.byte (encode (.fmPush c))) := by
  rw [exec, execFmPush, unlessFaulted_running hf, if_neg (not_not.mpr hphase), if_neg (Nat.not_le.mpr hroom),
    if_pos ((countFits_eq_false_iff s c).mpr hovf), raise_eq_refusedWith]

theorem exec_fmPush_ok {c : Word32} (hphase : s.fmu.phase = .building)
    (hroom : s.fmu.nsym.toNat < s.params.amax) (hfits : s.fmu.total.toNat + c.toNat ≤ 2 ^ 32 - 1) :
    exec (.fmPush c) s = .next { s with fmu := s.fmu.pushed c, rsps := s.rsps ++ [0#64] } := by
  have hcount : ¬ countFits s c = false := by rwa [countFits_eq_false_iff, Nat.not_lt]
  have hnsym : regOf 32 (s.fmu.nsym.toNat + 1) = s.fmu.nsym + 1#32 := regOf_toNat_add s.fmu.nsym 1#32
  rw [exec, execFmPush, unlessFaulted_running hf, if_neg (not_not.mpr hphase), if_neg (Nat.not_le.mpr hroom),
    if_neg hcount, answer_zero, Config.CW, regOf_toNat_add, hnsym, Fmu.pushed]

theorem exec_fmSeal_wrongPhase (hphase : s.fmu.phase ≠ .building) :
    exec .fmSeal s = .next (refusedWith s Code.phase.byte (encode .fmSeal)) := by
  rw [exec, execFmSeal, unlessFaulted_running hf, if_pos hphase, raise_eq_refusedWith]

theorem exec_fmSeal_zeroTotal (hphase : s.fmu.phase = .building) (hzero : s.fmu.total.toNat = 0) :
    exec .fmSeal s = .next (refusedWith s Code.zeroTotal.byte (encode .fmSeal)) := by
  rw [exec, execFmSeal, unlessFaulted_running hf, if_neg (not_not.mpr hphase),
    if_pos (BitVec.eq_of_toNat_eq hzero), raise_eq_refusedWith]

theorem exec_fmSeal_ok (hphase : s.fmu.phase = .building) (hpos : 0 < s.fmu.total.toNat) :
    exec .fmSeal s = .next { s with fmu := { s.fmu with phase := .sealed }, rsps := s.rsps ++ [0#64] } := by
  have hne : s.fmu.total ≠ 0#32 := fun h => Nat.ne_of_gt hpos (congrArg BitVec.toNat h)
  rw [exec, execFmSeal, unlessFaulted_running hf, if_neg (not_not.mpr hphase), if_neg hne, answer_zero]

theorem exec_fmNsym_wrongPhase (hphase : s.fmu.phase ≠ .sealed) :
    exec .fmNsym s = .next (refusedWith s Code.phase.byte (encode .fmNsym)) := by
  rw [exec, execFmNsym, unlessFaulted_running hf, if_pos hphase, raise_eq_refusedWith]

theorem exec_fmNsym_ok (hphase : s.fmu.phase = .sealed) :
    exec .fmNsym s = .next { s with rsps := s.rsps ++ [okWord s.fmu.nsym] } := by
  rw [exec, execFmNsym, unlessFaulted_running hf, if_neg (not_not.mpr hphase), answer_eq_okWord]

theorem exec_fmTotal_wrongPhase (hphase : s.fmu.phase ≠ .sealed) :
    exec .fmTotal s = .next (refusedWith s Code.phase.byte (encode .fmTotal)) := by
  rw [exec, execFmTotal, unlessFaulted_running hf, if_pos hphase, raise_eq_refusedWith]

theorem exec_fmTotal_ok (hphase : s.fmu.phase = .sealed) :
    exec .fmTotal s = .next { s with rsps := s.rsps ++ [okWord s.fmu.total] } := by
  rw [exec, execFmTotal, unlessFaulted_running hf, if_neg (not_not.mpr hphase), answer_eq_okWord]

theorem exec_fmLow_wrongPhase (a : Word32) (hphase : s.fmu.phase ≠ .sealed) :
    exec (.fmLow a) s = .next (refusedWith s Code.phase.byte (encode (.fmLow a))) := by
  rw [exec, execFmLow, unlessFaulted_running hf, if_pos hphase, raise_eq_refusedWith]

theorem exec_fmLow_symbolRange {a : Word32} (hphase : s.fmu.phase = .sealed)
    (hrange : s.fmu.nsym.toNat ≤ a.toNat) :
    exec (.fmLow a) s = .next (refusedWith s Code.symbolRange.byte (encode (.fmLow a))) := by
  rw [exec, execFmLow, unlessFaulted_running hf, if_neg (not_not.mpr hphase),
    if_pos ((symbolInRange_eq_false_iff s a).mpr hrange), raise_eq_refusedWith]

theorem exec_fmLow_ok {a v : Word32} (hphase : s.fmu.phase = .sealed) (hrange : a.toNat < s.fmu.nsym.toNat)
    (hread : memRead s.fmu.cum a.toNat = some v) :
    exec (.fmLow a) s = .next { s with rsps := s.rsps ++ [okWord v] } := by
  have hsym : ¬ symbolInRange s a = false := by rwa [symbolInRange_eq_false_iff, Nat.not_le]
  rw [exec, execFmLow, unlessFaulted_running hf, if_neg (not_not.mpr hphase), if_neg hsym, hread]
  exact answer_eq_okWord v s

theorem exec_fmHigh_wrongPhase (a : Word32) (hphase : s.fmu.phase ≠ .sealed) :
    exec (.fmHigh a) s = .next (refusedWith s Code.phase.byte (encode (.fmHigh a))) := by
  rw [exec, execFmHigh, unlessFaulted_running hf, if_pos hphase, raise_eq_refusedWith]

theorem exec_fmHigh_symbolRange {a : Word32} (hphase : s.fmu.phase = .sealed)
    (hrange : s.fmu.nsym.toNat ≤ a.toNat) :
    exec (.fmHigh a) s = .next (refusedWith s Code.symbolRange.byte (encode (.fmHigh a))) := by
  rw [exec, execFmHigh, unlessFaulted_running hf, if_neg (not_not.mpr hphase),
    if_pos ((symbolInRange_eq_false_iff s a).mpr hrange), raise_eq_refusedWith]

theorem exec_fmHigh_ok {a v : Word32} (hphase : s.fmu.phase = .sealed) (hrange : a.toNat < s.fmu.nsym.toNat)
    (hread : memRead s.fmu.cum (a.toNat + 1) = some v) :
    exec (.fmHigh a) s = .next { s with rsps := s.rsps ++ [okWord v] } := by
  have hsym : ¬ symbolInRange s a = false := by rwa [symbolInRange_eq_false_iff, Nat.not_le]
  rw [exec, execFmHigh, unlessFaulted_running hf, if_neg (not_not.mpr hphase), if_neg hsym, hread]
  exact answer_eq_okWord v s

end commands

/-! ## The table under the FMU invariant (10_state.md R27) -/

/-- With no symbol TOTAL would be CUM[0], which is 0, but a sealed table has a positive total. -/
theorem FmuInv.nsym_pos_of_sealed {p : Params} {f : Fmu} (hinv : FmuInv p f) (hphase : f.phase = .sealed) :
    1 ≤ f.nsym.toNat := by
  by_contra hnone
  have hnsym : f.nsym.toNat = 0 := by omega
  have htotal : f.total = 0#32 := by
    have hcum := hinv.cumTotal
    rw [hnsym, hinv.cumZero] at hcum
    exact (Option.some.inj hcum).symm
  have hpos := hinv.sealedTotal hphase
  rw [htotal] at hpos
  exact absurd hpos (by decide)

theorem FmuInv.cum_zero_eq {p : Params} {f : Fmu} (hinv : FmuInv p f) {v : Word32}
    (hread : memRead f.cum 0 = some v) : v = 0#32 :=
  Option.some.inj (hread.symm.trans hinv.cumZero)

theorem FmuInv.cum_nsym_eq {p : Params} {f : Fmu} (hinv : FmuInv p f) {v : Word32}
    (hread : memRead f.cum f.nsym.toNat = some v) : v = f.total :=
  Option.some.inj (hread.symm.trans hinv.cumTotal)

/-! ## The obligations -/

/-- Settles O32: the four cases of FM.PUSH, and the two writes of the table read back. -/
theorem fmPushAppendsOneCount : Obligations.FmPushAppendsOneCount := by
  refine ⟨fun c => fmPush_word c ▸ decode_encode (.fmPush c), fun c s hlegal hf => ?_⟩
  rw [fmPush_word]
  refine ⟨exec_fmPush_wrongPhase hf c, exec_fmPush_tableFull hf c, exec_fmPush_countOvf hf, ?appended⟩
  intro hphase hroom hfits
  exact ⟨_, exec_fmPush_ok hf hphase hroom hfits, s.fmu.pushed_cnt_nsym c, fun i => s.fmu.pushed_cnt_other c,
    s.fmu.pushed_cum_nsym_succ c, fun i => s.fmu.pushed_cum_other c, Fmu.pushed_total_toNat hfits,
    Fmu.pushed_nsym_toNat hlegal c hroom, hphase, rfl⟩

/-- Settles O31: FM.CLEAR has one case, and its one write is CUM[0]. -/
theorem fmClearStartsAnEmptyTable : Obligations.FmClearStartsAnEmptyTable :=
  ⟨decode_encode .fmClear, fun s hf => ⟨_, exec_fmClear_ok hf, rfl, rfl, rfl, s.fmu.cleared_cum_zero,
    fun _ => s.fmu.cleared_cum_other, rfl, rfl⟩⟩

/-- Settles O33: the three cases of FM.SEAL. -/
theorem fmSealCompletesThePositiveTable : Obligations.FmSealCompletesThePositiveTable :=
  ⟨decode_encode .fmSeal, fun _ hf => ⟨exec_fmSeal_wrongPhase hf, exec_fmSeal_zeroTotal hf, exec_fmSeal_ok hf⟩⟩

/-- Settles O34: the two cases of FM.NSYM; a sealed table has a symbol because its total is positive. -/
theorem fmNsymAnswersTheAlphabetSize : Obligations.FmNsymAnswersTheAlphabetSize :=
  ⟨decode_encode .fmNsym, fun _ hinv hf => ⟨exec_fmNsym_wrongPhase hf, fun hphase =>
    ⟨hinv.fmu.nsym_pos_of_sealed hphase, exec_fmNsym_ok hf hphase⟩⟩⟩

/-- Settles O35: the two cases of FM.TOTAL; a sealed table has a positive total by the invariant. -/
theorem fmTotalAnswersTheTotal : Obligations.FmTotalAnswersTheTotal :=
  ⟨decode_encode .fmTotal, fun _ hinv hf => ⟨exec_fmTotal_wrongPhase hf, fun hphase =>
    ⟨hinv.fmu.sealedTotal hphase, exec_fmTotal_ok hf hphase⟩⟩⟩

/-- Settles O36: the three cases of FM.LOW; the invariant has CUM[s] written for every symbol in range. -/
theorem fmLowAnswersTheLowerBound : Obligations.FmLowAnswersTheLowerBound := by
  refine ⟨fun a => fmLow_word a ▸ decode_encode (.fmLow a), fun a s hinv hf => ?_⟩
  rw [fmLow_word]
  refine ⟨exec_fmLow_wrongPhase hf a, exec_fmLow_symbolRange hf, ?answered⟩
  intro hphase hrange
  obtain ⟨low, -, -, hlow, -⟩ := hinv.fmu.cumStep a.toNat hrange
  refine ⟨low, hlow, ?symbolZero, exec_fmLow_ok hf hphase hrange hlow⟩
  rintro rfl
  exact hinv.fmu.cum_zero_eq hlow

/-- Settles O37: the three cases of FM.HIGH; the invariant has CUM[s + 1] = CUM[s] + CNT[s] written. -/
theorem fmHighAnswersTheUpperBound : Obligations.FmHighAnswersTheUpperBound := by
  refine ⟨fun a => fmHigh_word a ▸ decode_encode (.fmHigh a), fun a s hinv hf => ?_⟩
  rw [fmHigh_word]
  refine ⟨exec_fmHigh_wrongPhase hf a, exec_fmHigh_symbolRange hf, ?answered⟩
  intro hphase hrange
  obtain ⟨low, count, high, hlow, hcount, hhigh, hsum⟩ := hinv.fmu.cumStep a.toNat hrange
  refine ⟨high, low, count, hhigh, hlow, hcount, hsum, ?lastSymbol, exec_fmHigh_ok hf hphase hrange hhigh⟩
  intro hlast
  exact hinv.fmu.cum_nsym_eq (hlast ▸ hhigh)

end Sys2Proof.Machine
end

section
/-! PROOFS. The coder core under its preconditions: Narrow (41_coder_core.md R134, R142), and the
renormalisation loop as the sequence of its classes (R137, R143), whatever the bit actions gather. -/

namespace Sys2Proof.Machine

/-! ## Narrowing (41_coder_core.md R142) -/

/-- Within its preconditions Narrow gives a non-empty interval that does not pass the old upper bound. -/
theorem narrow_bounds {low high symlow symhigh total : Nat} (hle : low ≤ high) (hpos : 0 < total)
    (hslice : symlow < symhigh) (hsym : symhigh ≤ total) (htotal : total ≤ high - low + 1) :
    (narrow low high symlow symhigh total).1 ≤ (narrow low high symlow symhigh total).2 ∧
      (narrow low high symlow symhigh total).2 ≤ high := by
  have hnonempty : (high - low + 1) * symlow / total + 1 ≤ (high - low + 1) * symhigh / total := by
    rw [← Nat.add_div_right _ hpos]
    refine Nat.div_le_div_right ?_
    calc (high - low + 1) * symlow + total
        ≤ (high - low + 1) * symlow + (high - low + 1) := Nat.add_le_add_left htotal _
      _ = (high - low + 1) * (symlow + 1) := (Nat.mul_succ _ _).symm
      _ ≤ (high - low + 1) * symhigh := Nat.mul_le_mul_left _ hslice
  have hinside : (high - low + 1) * symhigh / total ≤ high - low + 1 :=
    Nat.div_le_of_le_mul (Nat.mul_comm total _ ▸ Nat.mul_le_mul_left _ hsym)
  simp only [narrow]
  omega

/-! ## One iteration (41_coder_core.md R136, R141, R143) -/

/-- What a class subtracts is not more than `low`, and leaves `high` below half of the range. -/
theorem renormClass_sub_bounds {N low high : Nat} (hN : 1 ≤ N) (hle : low ≤ high) (hhigh : high < 2 ^ N)
    (hgo : renormClass N low high ≠ .S) :
    (renormClass N low high).sub N ≤ low ∧ high - (renormClass N low high).sub N < halfRange N := by
  rw [two_pow_eq_two_half hN] at hhigh
  rcases renormClass_cases N low high with ⟨hc, hZ⟩ | ⟨hc, -, hO⟩ | ⟨hc, -, -, hU, hU'⟩ | ⟨hc, -⟩
  · simpa [hc, RenormClass.sub] using hZ
  · simp only [hc, RenormClass.sub]
    omega
  · have hwide : 2 ≤ N := by
      by_contra hnarrow
      rw [quarterRange, if_neg hnarrow] at hU'
      omega
    have hhalf := half_eq_two_quarter hwide
    simp only [hc, RenormClass.sub]
    omega
  · exact absurd hc hgo

/-- At class S the loop has no iteration. -/
theorem renormTrace_nil {N low high : Nat} (hstop : renormClass N low high = .S) :
    RenormTrace N low high [] low high := by
  rcases renormClass_cases N low high with ⟨hc, -⟩ | ⟨hc, -⟩ | ⟨hc, -⟩ | ⟨-, notZ, notO, notU⟩
  · exact absurd (hc.symm.trans hstop) nofun
  · exact absurd (hc.symm.trans hstop) nofun
  · exact absurd (hc.symm.trans hstop) nofun
  · exact .stop notZ notO notU

/-- At any other class the loop rescales the bounds by that class and goes on. -/
theorem renormTrace_cons {N low high l h : Nat} {cs : List RenormClass} (hgo : renormClass N low high ≠ .S)
    (rest : RenormTrace N (2 * (low - (renormClass N low high).sub N))
      (2 * (high - (renormClass N low high).sub N) + 1) cs l h) :
    RenormTrace N low high (renormClass N low high :: cs) l h := by
  rcases renormClass_cases N low high with ⟨hc, isZ⟩ | ⟨hc, notZ, isO⟩ | ⟨hc, notZ, notO, isU, isU'⟩ | ⟨hc, -⟩
  · rw [hc] at rest ⊢
    exact .zero isZ rest
  · rw [hc] at rest ⊢
    exact .one notZ isO rest
  · rw [hc] at rest ⊢
    exact .under notZ notO isU isU' rest
  · exact absurd hc hgo

/-- Only the full range is as wide as the state, and the full range is of class S. -/
theorem renormClass_fullRange {N low high : Nat} (hN : 1 ≤ N) (hhigh : high < 2 ^ N)
    (hwide : 2 ^ N ≤ high - low + 1) : renormClass N low high = .S := by
  have hfull := two_pow_eq_two_half hN
  have hpos := half_pos N
  rcases renormClass_cases N low high with ⟨-, hZ⟩ | ⟨-, -, hO⟩ | ⟨-, -, -, hU, hU'⟩ | ⟨hc, -⟩
  · omega
  · omega
  · omega
  · exact hc

/-! ## The whole loop (41_coder_core.md R137, R143) -/

/-- How the loop ends at `(low, high)` once its bit actions have given `acc`, `none` where one refused. -/
def LoopEnd.ofActions {σ : Type} (low high : Nat) : Option σ → LoopEnd σ
  | none => .abort
  | some acc => .stop low high acc

/-- The loop from `(low, high)` with `fuel` iterations at most: it runs through the classes `cs` to the
interval `[l, h]` of the width, and its outcome is that of the bit actions of `cs` in order. -/
structure RenormRun (N fuel low high : Nat) (cs : List RenormClass) (l h : Nat) : Prop where
  trace : RenormTrace N low high cs l h
  length_le : cs.length ≤ fuel
  low_le_high : l ≤ h
  high_lt : h < 2 ^ N
  loop : ∀ {σ : Type} (act : RenormClass → σ → Option σ) (acc : σ),
    renormLoop N act fuel low high acc = .ofActions l h (cs.foldlM (fun a c => act c a) acc)

theorem renormRun_nil {N low high : Nat} (fuel : Nat) (hle : low ≤ high) (hhigh : high < 2 ^ N)
    (hstop : renormClass N low high = .S) : RenormRun N fuel low high [] low high where
  trace := renormTrace_nil hstop
  length_le := Nat.zero_le fuel
  low_le_high := hle
  high_lt := hhigh
  loop act acc := renormLoop_stop N act fuel low high acc hstop

theorem renormRun_cons {N fuel low high l h : Nat} {cs : List RenormClass} (hN : 1 ≤ N) (hle : low ≤ high)
    (hhigh : high < 2 ^ N) (hgo : renormClass N low high ≠ .S)
    (rest : RenormRun N fuel (2 * (low - (renormClass N low high).sub N))
      (2 * (high - (renormClass N low high).sub N) + 1) cs l h) :
    RenormRun N (fuel + 1) low high (renormClass N low high :: cs) l h where
  trace := renormTrace_cons hgo rest.trace
  length_le := Nat.succ_le_succ rest.length_le
  low_le_high := rest.low_le_high
  high_lt := rest.high_lt
  loop act acc := by
    obtain ⟨-, hhalf⟩ := renormClass_sub_bounds hN hle hhigh hgo
    rw [List.foldlM_cons]
    cases hact : act (renormClass N low high) acc with
    | none => exact renormLoop_abort N act fuel low high acc hgo hact
    | some acc' =>
      rw [renormLoop_step N act fuel low high acc hgo hact, shiftHigh_eq hN hhalf,
        shiftLow_eq hN (by omega)]
      exact rest.loop act acc'

/-- Every iteration doubles the range (41_coder_core.md R143), so an interval that `fuel` doublings would
bring to the full range reaches class S within `fuel` iterations. -/
theorem exists_renormRun {N fuel low high : Nat} (hN : 1 ≤ N) (hle : low ≤ high) (hhigh : high < 2 ^ N)
    (hfuel : 2 ^ N ≤ 2 ^ fuel * (high - low + 1)) : ∃ cs l h, RenormRun N fuel low high cs l h := by
  induction fuel generalizing low high with
  | zero =>
    have hstop := renormClass_fullRange hN hhigh (by rwa [Nat.pow_zero, Nat.one_mul] at hfuel)
    exact ⟨[], low, high, renormRun_nil 0 hle hhigh hstop⟩
  | succ fuel ih =>
    by_cases hstop : renormClass N low high = .S
    · exact ⟨[], low, high, renormRun_nil (fuel + 1) hle hhigh hstop⟩
    · obtain ⟨hlow, hhalf⟩ := renormClass_sub_bounds hN hle hhigh hstop
      have hfull := two_pow_eq_two_half hN
      generalize hsub : (renormClass N low high).sub N = sub at hlow hhalf
      have hdouble : 2 * (high - sub) + 1 - 2 * (low - sub) + 1 = 2 * (high - low + 1) := by omega
      obtain ⟨cs, l, h, rest⟩ := ih (low := 2 * (low - sub)) (high := 2 * (high - sub) + 1)
        (by omega) (by omega) (by rwa [hdouble, ← Nat.mul_assoc, ← Nat.pow_succ])
      subst hsub
      exact ⟨_, l, h, renormRun_cons hN hle hhigh hstop rest⟩

/-- 41_coder_core.md R143: N iterations do for any non-empty interval of the width. -/
theorem exists_renormRun_width {N low high : Nat} (hN : 1 ≤ N) (hle : low ≤ high) (hhigh : high < 2 ^ N) :
    ∃ cs l h, RenormRun N N low high cs l h :=
  exists_renormRun hN hle hhigh (Nat.le_mul_of_pos_right _ (Nat.succ_pos _))

end Sys2Proof.Machine
end

section
/-! PROOFS. ENC.WRITE and ENC.FINISH (42_enc.md R152 to R154): the bits the loop's actions gather are those of
`emission`, the slice a symbol narrows to is within R142, and an equation for every case of both commands. -/

namespace Sys2Proof.Machine

theorem encWrite_word (a : Word32) : (0x21000000#32 ++ a : BitVec (32 + 32)) = encode (.encWrite a) :=
  append_arg_eq_encode (i := .encWrite a) (by rw [Instr.opcode]; decide)

/-! ## The bits of a sequence of classes (42_enc.md R152, R153) -/

@[simp] theorem encodeBit_Z (pmax pend : Nat) (out : List Bit) :
    encodeBit pmax .Z (out, pend) = some (out ++ false :: List.replicate pend true, 0) := by
  simp [encodeBit, emit]

@[simp] theorem encodeBit_O (pmax pend : Nat) (out : List Bit) :
    encodeBit pmax .O (out, pend) = some (out ++ true :: List.replicate pend false, 0) := by
  simp [encodeBit, emit]

@[simp] theorem encodeBit_U (pmax pend : Nat) (out : List Bit) :
    encodeBit pmax .U (out, pend) = if pend = pmax then none else some (out, pend + 1) := rfl

@[simp] theorem encodeBit_S (pmax : Nat) (acc : List Bit × Nat) : encodeBit pmax .S acc = some acc := rfl

/-- The encoder's bit actions over `cs` put behind `out` what `emission` says. -/
theorem foldlM_encodeBit (pmax : Nat) (cs : List RenormClass) (out : List Bit) (pend : Nat) :
    cs.foldlM (fun acc c => encodeBit pmax c acc) (out, pend) =
      (emission pmax cs pend).map fun r => (out ++ r.1, r.2) := by
  induction cs generalizing out pend with
  | nil => simp [emission]
  | cons c cs ih =>
    rw [List.foldlM_cons]
    cases c with
    | Z => simp [emission, ih, Function.comp_def]
    | O => simp [emission, ih, Function.comp_def]
    | U =>
      by_cases hfull : pend = pmax
      · simp [emission, hfull]
      · simp [emission, hfull, ih]
    | S => simp [emission, ih]

/-- The counter does not pass PMAX (42_enc.md R152). -/
theorem emission_pend_le {pmax pend pend' : Nat} {cs : List RenormClass} {bits : List Bit} (hpend : pend ≤ pmax)
    (h : emission pmax cs pend = some (bits, pend')) : pend' ≤ pmax := by
  induction cs generalizing pend bits with
  | nil =>
    simp only [emission, Option.some.injEq, Prod.mk.injEq] at h
    omega
  | cons c cs ih =>
    cases c with
    | Z =>
      simp only [emission, Option.map_eq_some_iff, Prod.mk.injEq] at h
      obtain ⟨⟨rest, _⟩, hrest, -, rfl⟩ := h
      exact ih (Nat.zero_le pmax) hrest
    | O =>
      simp only [emission, Option.map_eq_some_iff, Prod.mk.injEq] at h
      obtain ⟨⟨rest, _⟩, hrest, -, rfl⟩ := h
      exact ih (Nat.zero_le pmax) hrest
    | U =>
      simp only [emission, Option.ite_none_left_eq_some] at h
      obtain ⟨hroom, hrest⟩ := h
      exact ih (by omega) hrest
    | S => exact ih hpend h

/-- Each class defers at most one bit, so with room for as many as there are classes none is refused. -/
theorem emission_ne_none {pmax pend : Nat} {cs : List RenormClass} (hroom : pend + cs.length ≤ pmax) :
    emission pmax cs pend ≠ none := by
  induction cs generalizing pend with
  | nil => exact Option.some_ne_none _
  | cons c cs ih =>
    rw [List.length_cons] at hroom
    cases c with
    | Z =>
      rw [emission, ne_eq, Option.map_eq_none_iff]
      exact ih (by omega)
    | O =>
      rw [emission, ne_eq, Option.map_eq_none_iff]
      exact ih (by omega)
    | U =>
      rw [emission, if_neg (by omega)]
      exact ih (by omega)
    | S => exact ih (by omega)

/-! ## The slice of a symbol under the invariant (10_state.md R27; 45_properties.md R192) -/

/-- The running sums of the counts end at TOTAL and none is above it. -/
theorem FmuInv.cum_le_total {p : Params} {f : Fmu} (hinv : FmuInv p f) {i : Nat} {v : Word32}
    (hi : i ≤ f.nsym.toNat) (hread : memRead f.cum i = some v) : v.toNat ≤ f.total.toNat := by
  induction hgap : f.nsym.toNat - i generalizing i v with
  | zero =>
    obtain rfl : i = f.nsym.toNat := by omega
    rw [hinv.cum_nsym_eq hread]
  | succ gap ih =>
    obtain ⟨low, count, high, hlow, -, hhigh, hsum⟩ := hinv.cumStep i (by omega)
    obtain rfl : v = low := Option.some.inj (hread.symm.trans hlow)
    have hnext := ih (by omega) hhigh (by omega)
    omega

/-- What ENC.WRITE reads for a symbol of positive count: its slice, not empty and within TOTAL. -/
theorem FmuInv.slice {p : Params} {f : Fmu} (hinv : FmuInv p f) {i : Nat} (hi : i < f.nsym.toNat)
    (hcount : memRead f.cnt i ≠ some 0#32) :
    ∃ symlow count symhigh, memRead f.cum i = some symlow ∧ memRead f.cnt i = some count ∧ count ≠ 0#32 ∧
      memRead f.cum (i + 1) = some symhigh ∧ symlow.toNat < symhigh.toNat ∧
      symhigh.toNat ≤ f.total.toNat := by
  obtain ⟨symlow, count, symhigh, hlow, hcnt, hhigh, hsum⟩ := hinv.cumStep i hi
  have hne : count ≠ 0#32 := fun hzero => hcount (hzero ▸ hcnt)
  have hpos : 0 < count.toNat := Nat.pos_of_ne_zero fun hzero => hne (BitVec.eq_of_toNat_eq hzero)
  exact ⟨symlow, count, symhigh, hlow, hcnt, hne, hhigh, by omega, hinv.cum_le_total hi hhigh⟩

/-- The interval of a coder session narrowed to a slice is renormalised within N iterations. -/
theorem IntervalInv.exists_renormRun_narrow {N low high total symlow symhigh : Nat}
    (hinv : IntervalInv N low high total) (hN : 1 ≤ N) (hslice : symlow < symhigh) (hsym : symhigh ≤ total) :
    ∃ cs l h, RenormRun N N (narrow low high symlow symhigh total).1
      (narrow low high symlow symhigh total).2 cs l h := by
  obtain ⟨hlow, hhalf, hmask, -, hwide, hfits⟩ := hinv
  have hhigh : high < 2 ^ N := Nat.lt_of_le_sub_one (Nat.two_pow_pos N) hmask
  obtain ⟨hle, hupper⟩ := narrow_bounds (by omega) (by omega) hslice hsym (hfits.trans hwide)
  exact exists_renormRun_width hN hle (hupper.trans_lt hhigh)

/-! ## The cases of each command while FAULT = 0 -/

section commands

variable {s : State} (hf : s.flt.fault = false)

include hf

theorem exec_encWrite_wrongPhase (a : Word32) (hphase : s.enc.phase ≠ .active) :
    exec (.encWrite a) s = .next (refusedWith s Code.phase.byte (encode (.encWrite a))) := by
  rw [exec, execEncWrite, unlessFaulted_running hf, if_pos hphase, raise_eq_refusedWith]

theorem exec_encWrite_symbolRange {a : Word32} (hphase : s.enc.phase = .active)
    (hrange : s.fmu.nsym.toNat ≤ a.toNat) :
    exec (.encWrite a) s = .next (refusedWith s Code.symbolRange.byte (encode (.encWrite a))) := by
  rw [exec, execEncWrite, unlessFaulted_running hf, if_neg (not_not.mpr hphase),
    if_pos ((symbolInRange_eq_false_iff s a).mpr hrange), raise_eq_refusedWith]

theorem exec_encWrite_zeroFreq {a : Word32} (hphase : s.enc.phase = .active)
    (hrange : a.toNat < s.fmu.nsym.toNat) (hcount : memRead s.fmu.cnt a.toNat = some 0#32) :
    exec (.encWrite a) s = .next (refusedWith s Code.zeroFreq.byte (encode (.encWrite a))) := by
  have hsym : ¬ symbolInRange s a = false := by rwa [symbolInRange_eq_false_iff, Nat.not_le]
  rw [exec, execEncWrite, unlessFaulted_running hf, if_neg (not_not.mpr hphase), if_neg hsym, hcount]
  exact raise_eq_refusedWith _ _ _

section loop

variable {a symlow count symhigh : Word32} {cs : List RenormClass} {low high : Nat}
  (hphase : s.enc.phase = .active) (hrange : a.toNat < s.fmu.nsym.toNat)
  (hcnt : memRead s.fmu.cnt a.toNat = some count) (hcount : count ≠ 0#32)
  (hlow : memRead s.fmu.cum a.toNat = some symlow) (hhigh : memRead s.fmu.cum (a.toNat + 1) = some symhigh)
  (hrun : RenormRun s.enc.nbits.toNat s.enc.nbits.toNat
    (narrow s.enc.low.toNat s.enc.high.toNat symlow.toNat symhigh.toNat s.fmu.total.toNat).1
    (narrow s.enc.low.toNat s.enc.high.toNat symlow.toNat symhigh.toNat s.fmu.total.toNat).2 cs low high)

include hphase hrange hcnt hcount hlow hhigh hrun

theorem exec_encWrite_pendingOvf (hovf : emission s.params.pmax cs s.enc.pend.toNat = none) :
    exec (.encWrite a) s = .next (refusedWith s Code.pendingOvf.byte (encode (.encWrite a))) := by
  have hsym : ¬ symbolInRange s a = false := by rwa [symbolInRange_eq_false_iff, Nat.not_le]
  rw [exec, execEncWrite, unlessFaulted_running hf, if_neg (not_not.mpr hphase), if_neg hsym, hcnt, hlow, hhigh]
  simp only [if_neg hcount, hrun.loop, foldlM_encodeBit, hovf]
  exact raise_eq_refusedWith _ _ _

theorem exec_encWrite_ok {bits : List Bit} {pend : Nat}
    (hemit : emission s.params.pmax cs s.enc.pend.toNat = some (bits, pend)) :
    exec (.encWrite a) s = .next { s with
      enc := { s.enc with
        low := regOf s.params.nmax low
        high := regOf s.params.nmax high
        pend := regOf s.params.pbw pend }
      out := s.out ++ bits
      rsps := s.rsps ++ [0#64] } := by
  have hsym : ¬ symbolInRange s a = false := by rwa [symbolInRange_eq_false_iff, Nat.not_le]
  rw [exec, execEncWrite, unlessFaulted_running hf, if_neg (not_not.mpr hphase), if_neg hsym, hcnt, hlow, hhigh]
  simp only [if_neg hcount, hrun.loop, foldlM_encodeBit, hemit]
  exact answer_zero _

end loop

theorem exec_encFinish_wrongPhase (hphase : s.enc.phase ≠ .active) :
    exec .encFinish s = .next (refusedWith s Code.phase.byte (encode .encFinish)) := by
  rw [exec, execEncFinish, unlessFaulted_running hf, if_pos hphase, raise_eq_refusedWith]

theorem exec_encFinish_pendingOvf (hphase : s.enc.phase = .active) (hfull : s.params.pmax ≤ s.enc.pend.toNat) :
    exec .encFinish s = .next (refusedWith s Code.pendingOvf.byte (encode .encFinish)) := by
  rw [exec, execEncFinish, unlessFaulted_running hf, if_neg (not_not.mpr hphase), if_pos hfull,
    raise_eq_refusedWith]

/-- The flush bit of 42_enc.md R154, 0 exactly in the lowest quarter. -/
theorem exec_encFinish_ok {b : Bit} (hphase : s.enc.phase = .active) (hroom : s.enc.pend.toNat < s.params.pmax)
    (hb : b = decide (¬ s.enc.low.toNat < quarterRange s.enc.nbits.toNat)) :
    exec .encFinish s = .next { s with
      enc := { s.enc with pend := 0#32, phase := .done }
      out := s.out ++ b :: List.replicate (s.enc.pend.toNat + 1) (!b)
      rsps := s.rsps ++ [0#64] } := by
  rw [exec, execEncFinish, unlessFaulted_running hf, if_neg (not_not.mpr hphase), if_neg (Nat.not_le.mpr hroom),
    hb]
  exact answer_zero _

end commands

/-! ## The obligations -/

/-- Settles O44: the slice of the symbol is within the preconditions of Narrow, the narrowed interval is
renormalised within N iterations, and the loop's outcome is the emission of its classes. -/
theorem encWriteNarrowsAndEmits : Obligations.EncWriteNarrowsAndEmits := by
  refine ⟨fun a => encWrite_word a ▸ decode_encode (.encWrite a), fun a s hinv hf => ?_⟩
  rw [encWrite_word]
  refine ⟨exec_encWrite_wrongPhase hf a, exec_encWrite_symbolRange hf, exec_encWrite_zeroFreq hf, ?loop⟩
  intro hphase hrange hcount
  obtain ⟨symlow, count, symhigh, hlow, hcnt, hne, hhigh, hslice, hsym⟩ := hinv.fmu.slice hrange hcount
  obtain ⟨-, hN, hinterval⟩ := hinv.enc.session (hphase ▸ by decide)
  obtain ⟨cs, low, high, hrun⟩ := hinterval.exists_renormRun_narrow hN hslice hsym
  refine ⟨symlow, symhigh, cs, low, high, hlow, hhigh, hrun.trace, hrun.length_le,
    exec_encWrite_pendingOvf hf hphase hrange hcnt hne hlow hhigh hrun, ?committed, ?room⟩
  case committed =>
    intro bits pend hemit
    obtain ⟨-, hnmax, -, -, -, hpbw⟩ := (Params.legal_iff _).mp hinv.params
    have hhighFits : high < 2 ^ s.params.nmax :=
      hrun.high_lt.trans_le (Nat.pow_le_pow_right (by decide) hinv.enc.nbitsLegal)
    have hpendFits : pend < 2 ^ s.params.pbw :=
      Nat.lt_of_le_sub_one (Nat.two_pow_pos _) (emission_pend_le hinv.enc.pendWidth hemit)
    exact ⟨_, exec_encWrite_ok hf hphase hrange hcnt hne hlow hhigh hrun hemit,
      regOf_toNat hnmax (hrun.low_le_high.trans_lt hhighFits), regOf_toNat hnmax hhighFits,
      regOf_toNat hpbw hpendFits, rfl, hphase, rfl⟩
  case room =>
    intro hroom
    have hlength := hrun.length_le
    exact emission_ne_none (by omega)

/-- Settles O46: the three cases of ENC.FINISH; at N = 1 the quarter is 0, which nothing lies below. -/
theorem encFinishFlushesTheInterval : Obligations.EncFinishFlushesTheInterval := by
  refine ⟨decode_encode .encFinish, fun s hf =>
    ⟨exec_encFinish_wrongPhase hf, exec_encFinish_pendingOvf hf, fun hphase hroom => ?flushed⟩⟩
  refine ⟨_, ?quarter, ?widthOne, exec_encFinish_ok hf hphase hroom rfl⟩
  case quarter => rw [decide_eq_false_iff_not, not_not]
  case widthOne =>
    intro hone
    rw [hone]
    exact decide_eq_true (Nat.not_lt_zero _)

end Sys2Proof.Machine
end

section
/-! PROOFS. DEC.READ (43_dec.md R167 to R169): the search answers a symbol whose slice holds the scaled value,
narrowing to that slice keeps `code` inside the interval, and so does every iteration, whose shift of `code`
therefore loses nothing to the mask. -/

namespace Sys2Proof.Machine

/-! ## The symbol of a value (40_fm.md R119 to R121; 43_dec.md R169) -/

/-- 43_dec.md R169: a code inside the interval scales to a value below the total. -/
theorem scaledValue_lt_total {low high code total : Nat} (hle : low ≤ code) (hge : code ≤ high) (hpos : 0 < total) :
    scaledValue low high code total < total := by
  have hinside : (code - low + 1) * total ≤ (high - low + 1) * total := Nat.mul_le_mul_right total (by omega)
  have hnonempty : 0 < (code - low + 1) * total := Nat.mul_pos (Nat.succ_pos _) hpos
  exact Nat.div_lt_of_lt_mul (by omega)

/-- The search keeps CUM[start] ≤ value < CUM[stop], so where it ends at neighbours it has found a slice that
holds the value; each round halves the range, so `fuel` rounds do for a range of `2 ^ fuel`. -/
theorem searchSymbol_slice {cum : Memory} {value fuel start stop : Nat} {a b : Word32}
    (hread : ∀ i < stop, ∃ v, memRead cum i = some v) (hlt : start < stop) (hfuel : stop ≤ start + 2 ^ fuel)
    (ha : memRead cum start = some a) (hb : memRead cum stop = some b)
    (hlow : a.toNat ≤ value) (hhigh : value < b.toNat) :
    ∃ sym symlow symhigh, searchSymbol cum value fuel start stop = some sym ∧ sym < stop ∧
      memRead cum sym = some symlow ∧ memRead cum (sym + 1) = some symhigh ∧
      symlow.toNat ≤ value ∧ value < symhigh.toNat := by
  induction fuel generalizing start stop a b with
  | zero =>
    obtain rfl : stop = start + 1 := by omega
    exact ⟨start, a, b, rfl, hlt, ha, hb, hlow, hhigh⟩
  | succ fuel ih =>
    rw [Nat.pow_succ] at hfuel
    by_cases hgap : stop - start > 1
    · generalize hmid : (start + stop) >>> 1 = mid
      rw [Nat.shiftRight_one] at hmid
      obtain ⟨c, hc⟩ := hread mid (by omega)
      by_cases hleft : c.toNat > value
      · have hnext : searchSymbol cum value (fuel + 1) start stop = searchSymbol cum value fuel start mid := by
          simp only [searchSymbol, Nat.shiftRight_one, hmid, hc, if_pos hgap, if_pos hleft]
        obtain ⟨sym, symlow, symhigh, hfind, hsym, hslice⟩ :=
          ih (fun i hi => hread i (by omega)) (by omega) (by omega) ha hc hlow hleft
        exact ⟨sym, symlow, symhigh, hnext.trans hfind, by omega, hslice⟩
      · have hnext : searchSymbol cum value (fuel + 1) start stop = searchSymbol cum value fuel mid stop := by
          simp only [searchSymbol, Nat.shiftRight_one, hmid, hc, if_pos hgap, if_neg hleft]
        rw [hnext]
        exact ih hread (by omega) (by omega) hc hb (Nat.not_lt.mp hleft) hhigh
    · obtain rfl : stop = start + 1 := by omega
      exact ⟨start, a, b, by rw [searchSymbol, if_neg hgap], hlt, ha, hb, hlow, hhigh⟩

/-- 40_fm.md R119, R120: below the total the search answers a symbol whose slice holds the value. -/
theorem FmuInv.findSymbol_slice {p : Params} {f : Fmu} (hinv : FmuInv p f) {value : Nat}
    (hvalue : value < f.total.toNat) :
    ∃ sym symlow symhigh, findSymbol f.cum f.nsym.toNat value = some sym ∧ sym < f.nsym.toNat ∧
      memRead f.cum sym = some symlow ∧ memRead f.cum (sym + 1) = some symhigh ∧
      symlow.toNat ≤ value ∧ value < symhigh.toNat := by
  have hsome : 0 < f.nsym.toNat := by
    refine Nat.pos_of_ne_zero fun hnone => ?_
    have htotal : f.total = 0#32 := hinv.cum_zero_eq (hnone ▸ hinv.cumTotal)
    rw [htotal] at hvalue
    exact Nat.not_lt_zero value hvalue
  have hread : ∀ i < f.nsym.toNat, ∃ v, memRead f.cum i = some v := fun i hi => by
    obtain ⟨v, -, -, hv, -⟩ := hinv.cumStep i hi
    exact ⟨v, hv⟩
  have hrounds : f.nsym.toNat ≤ 0 + 2 ^ 32 := by
    have hnsym := f.nsym.isLt
    omega
  exact searchSymbol_slice hread hsome hrounds hinv.cumZero hinv.cumTotal (Nat.zero_le value) hvalue

/-- 40_fm.md R121: a symbol whose slice holds a value has a positive count. -/
theorem FmuInv.count_pos_of_slice {p : Params} {f : Fmu} (hinv : FmuInv p f) {sym : Nat} {symlow symhigh : Word32}
    (hsym : sym < f.nsym.toNat) (hlow : memRead f.cum sym = some symlow)
    (hhigh : memRead f.cum (sym + 1) = some symhigh) (hslice : symlow.toNat < symhigh.toNat) :
    ∃ count, memRead f.cnt sym = some count ∧ 0 < count.toNat := by
  obtain ⟨a, count, b, ha, hcnt, hb, hsum⟩ := hinv.cumStep sym hsym
  obtain rfl : symlow = a := Option.some.inj (hlow.symm.trans ha)
  obtain rfl : symhigh = b := Option.some.inj (hhigh.symm.trans hb)
  exact ⟨count, hcnt, by omega⟩

/-! ## The window stays in the interval (45_properties.md R193) -/

/-- Narrowing to the slice that holds the scaled value of `code` keeps `code` inside the interval. -/
theorem code_mem_narrow {low high code symlow symhigh total : Nat} (hle : low ≤ code) (hpos : 0 < total)
    (hlow : symlow ≤ scaledValue low high code total) (hhigh : scaledValue low high code total < symhigh) :
    (narrow low high symlow symhigh total).1 ≤ code ∧ code ≤ (narrow low high symlow symhigh total).2 := by
  have hnonempty : 0 < (code - low + 1) * total := Nat.mul_pos (Nat.succ_pos _) hpos
  simp only [scaledValue, Nat.le_div_iff_mul_le (Nat.succ_pos _), Nat.div_lt_iff_lt_mul (Nat.succ_pos _),
    Nat.mul_comm _ (high - low + 1)] at hlow hhigh
  have hbelow : (high - low + 1) * symlow / total < code - low + 1 :=
    (Nat.div_lt_iff_lt_mul hpos).mpr (by omega)
  have habove : code - low + 1 ≤ (high - low + 1) * symhigh / total :=
    (Nat.le_div_iff_mul_le hpos).mpr (by omega)
  simp only [narrow]
  omega

/-- The interval of a coder session narrowed to a slice stays within the state width (41_coder_core.md R142). -/
theorem IntervalInv.narrow_high_lt {N low high total symlow symhigh : Nat} (hinv : IntervalInv N low high total)
    (hslice : symlow < symhigh) (hsym : symhigh ≤ total) : (narrow low high symlow symhigh total).2 < 2 ^ N := by
  obtain ⟨hlow, hhalf, hmask, -, hwide, hfits⟩ := hinv
  obtain ⟨-, hupper⟩ := narrow_bounds (by omega) (by omega) hslice hsym (hfits.trans hwide)
  exact Nat.lt_of_le_sub_one (Nat.two_pow_pos N) (hupper.trans hmask)

/-- The first iteration of a trace is that of the class of its bounds. -/
theorem RenormTrace.cons_inv {N low high l h : Nat} {c : RenormClass} {cs : List RenormClass}
    (htrace : RenormTrace N low high (c :: cs) l h) :
    renormClass N low high = c ∧ c ≠ .S ∧
      RenormTrace N (2 * (low - c.sub N)) (2 * (high - c.sub N) + 1) cs l h := by
  cases htrace with
  | zero isZ rest => exact ⟨if_pos isZ, nofun, rest⟩
  | one notZ isO rest => exact ⟨(if_neg (Nat.not_lt.mpr notZ)).trans (if_pos isO), nofun, rest⟩
  | under notZ notO isU isU' rest =>
    exact ⟨(if_neg (Nat.not_lt.mpr notZ)).trans ((if_neg (Nat.not_le.mpr notO)).trans (if_pos ⟨isU, isU'⟩)),
      nofun, rest⟩

theorem windowAfter_cons (N : Nat) (inp : List Bit) (c : RenormClass) (cs : List RenormClass) (code pos : Nat) :
    windowAfter N inp (c :: cs) code pos =
      windowAfter N inp cs (2 * (code - c.sub N) + (srcBit inp pos).toNat) (pos + 1) := by
  cases c <;> rfl

/-- From a code inside the interval the decoder's bit actions give the window of 43_dec.md R167, one source bit
an iteration, inside the interval the loop stops at. -/
theorem RenormTrace.foldlM_decodeBit {N low high l h : Nat} {cs : List RenormClass} (inp : List Bit)
    {code : Nat} (pos : Nat) (hN : 1 ≤ N) (htrace : RenormTrace N low high cs l h) (hle : low ≤ code)
    (hge : code ≤ high) (hhigh : high < 2 ^ N) :
    cs.foldlM (fun acc c => decodeBit N inp c acc) (code, pos) =
        some (windowAfter N inp cs code pos, pos + cs.length) ∧
      l ≤ windowAfter N inp cs code pos ∧ windowAfter N inp cs code pos ≤ h := by
  induction cs generalizing low high code pos with
  | nil =>
    cases htrace with
    | stop => exact ⟨rfl, hle, hge⟩
  | cons c cs ih =>
    obtain ⟨rfl, hgo, rest⟩ := htrace.cons_inv
    obtain ⟨hlow, hhalf⟩ := renormClass_sub_bounds hN (hle.trans hge) hhigh hgo
    have hfull := two_pow_eq_two_half hN
    have hbit := (srcBit inp pos).toNat_le
    rw [windowAfter_cons, List.foldlM_cons, List.length_cons, Nat.add_comm cs.length, ← Nat.add_assoc, decodeBit,
      shiftCode_eq _ hN (by omega)]
    exact ih (pos + 1) rest (by omega) (by omega) (by omega)

/-! ## The cases of DEC.READ while FAULT = 0 -/

section commands

variable {s : State} (hf : s.flt.fault = false)

include hf

theorem exec_decRead_wrongPhase (hphase : s.dec.phase ≠ .active) :
    exec .decRead s = .next (refusedWith s Code.phase.byte (encode .decRead)) := by
  rw [exec, execDecRead, unlessFaulted_running hf, if_pos hphase, raise_eq_refusedWith]

theorem exec_decRead_ok {sym : Nat} {symlow symhigh : Word32} {cs : List RenormClass} {low high code pos : Nat}
    (hphase : s.dec.phase = .active)
    (hfind : findSymbol s.fmu.cum s.fmu.nsym.toNat
      (scaledValue s.dec.low.toNat s.dec.high.toNat s.dec.code.toNat s.fmu.total.toNat) = some sym)
    (hlow : memRead s.fmu.cum sym = some symlow) (hhigh : memRead s.fmu.cum (sym + 1) = some symhigh)
    (hrun : RenormRun s.dec.nbits.toNat s.dec.nbits.toNat
      (narrow s.dec.low.toNat s.dec.high.toNat symlow.toNat symhigh.toNat s.fmu.total.toNat).1
      (narrow s.dec.low.toNat s.dec.high.toNat symlow.toNat symhigh.toNat s.fmu.total.toNat).2 cs low high)
    (hbits : cs.foldlM (fun acc c => decodeBit s.dec.nbits.toNat s.inp c acc) (s.dec.code.toNat, s.inPos) =
      some (code, pos)) :
    exec .decRead s = .next { s with
      dec := { s.dec with
        low := regOf s.params.nmax low
        high := regOf s.params.nmax high
        code := regOf s.params.nmax code }
      inPos := pos
      rsps := s.rsps ++ [okWord (BitVec.ofNat 32 sym)] } := by
  rw [exec, execDecRead, unlessFaulted_running hf, if_neg (not_not.mpr hphase)]
  simp only [hfind, hlow, hhigh, hrun.loop, hbits]
  exact answer_eq_okWord _ _

end commands

/-! ## The obligation -/

/-- Settles O49: the scaled value of a code inside the interval has a symbol, the narrowed interval holds the code
and is renormalised within N iterations, and each of them shifts one source bit into the code. -/
theorem decReadAnswersTheSymbolOfTheCode : Obligations.DecReadAnswersTheSymbolOfTheCode := by
  refine ⟨decode_encode .decRead, fun s hinv hf => ⟨exec_decRead_wrongPhase hf, fun hphase => ?answered⟩⟩
  obtain ⟨hsealed, hN, hinterval, hle, hge⟩ := hinv.dec.session (hphase ▸ by decide)
  have hpos := hinv.fmu.sealedTotal hsealed
  obtain ⟨sym, symlow, symhigh, hfind, hsym, hlow, hhigh, hvalue, hvalue'⟩ :=
    hinv.fmu.findSymbol_slice (scaledValue_lt_total hle hge hpos)
  have hslice := hvalue.trans_lt hvalue'
  obtain ⟨count, hcnt, hcount⟩ := hinv.fmu.count_pos_of_slice hsym hlow hhigh hslice
  have htotal := hinv.fmu.cum_le_total hsym hhigh
  obtain ⟨cs, low, high, hrun⟩ := hinterval.exists_renormRun_narrow hN hslice htotal
  obtain ⟨hcodeLow, hcodeHigh⟩ := code_mem_narrow hle hpos hvalue hvalue'
  obtain ⟨hbits, -, hcode⟩ := hrun.trace.foldlM_decodeBit s.inp s.inPos hN hcodeLow hcodeHigh
    (hinterval.narrow_high_lt hslice htotal)
  obtain ⟨-, hnmax, -, -, -, -⟩ := (Params.legal_iff _).mp hinv.params
  have hhighFits : high < 2 ^ s.params.nmax :=
    hrun.high_lt.trans_le (Nat.pow_le_pow_right (by decide) hinv.dec.nbitsLegal)
  exact ⟨sym, symlow, symhigh, count, cs, low, high, _, hsym, hlow, hhigh, hvalue, hvalue', hcnt, hcount,
    hrun.trace, hrun.length_le, exec_decRead_ok hf hphase hfind hlow hhigh hrun hbits,
    regOf_toNat hnmax (hrun.low_le_high.trans_lt hhighFits), regOf_toNat hnmax hhighFits,
    regOf_toNat hnmax (hcode.trans_lt hhighFits), rfl, hphase, rfl⟩

end Sys2Proof.Machine
end

section
/-! PROOFS. The system commands (44_sys.md R181, R182): what the reset makes of the block, and the register map
of 10_state.md R45 number by number. -/

namespace Sys2Proof.Machine

/-! ## SYS.RESET -/

theorem resetBlock_holdsResetValues (s : State) : HoldsResetValues (resetBlock s) :=
  ⟨rfl, rfl, rfl, memRead_memWrite_same _ _ _, rfl, rfl, rfl⟩

theorem resetBlock_cum_other (s : State) {i : Nat} (h : i ≠ 0) :
    memRead (resetBlock s).fmu.cum i = memRead s.fmu.cum i := memRead_memWrite_other _ _ h

/-- SYS.RESET is accepted whether FAULT is 0 or 1 (60_exceptions.md R227). -/
theorem exec_sysReset (s : State) : exec .sysReset s = .next { resetBlock s with rsps := s.rsps ++ [0#64] } :=
  answer_zero (resetBlock s)

/-- Settles O10: the reset of the block, whose only write to a table is CUM[0], answered with OK. -/
theorem sysResetReturnsTheBlockToReset : Obligations.SysResetReturnsTheBlockToReset :=
  ⟨decode_encode .sysReset, fun s => ⟨_, exec_sysReset s, resetBlock_holdsResetValues s, rfl,
    fun _ hi => resetBlock_cum_other s hi, rfl, rfl, rfl, rfl, rfl, rfl⟩⟩

/-! ## SYS.RDREG -/

theorem sysRdreg_word (r : Word32) : (0x02000000#32 ++ r : BitVec (32 + 32)) = encode (.sysRdreg r) :=
  append_arg_eq_encode (i := .sysRdreg r) (by rw [Instr.opcode]; decide)

/-- The rows of the register map of 10_state.md R45: each register number with its content. -/
def registerRows (s : State) : List (Word32 × Word32) :=
  [(0x00#32, statusWord s), (0x01#32, errinfoWord s), (0x02#32, s.flt.errarg), (0x03#32, capWord s.params),
    (0x04#32, s.fmu.nsym), (0x05#32, s.fmu.total), (0x06#32, cap2Word s.params),
    (0x10#32, s.enc.nbits.setWidth 32), (0x11#32, s.enc.low), (0x12#32, s.enc.high), (0x13#32, s.enc.pend),
    (0x20#32, s.dec.nbits.setWidth 32), (0x21#32, s.dec.low), (0x22#32, s.dec.high), (0x23#32, s.dec.code)]

theorem readRegister_of_mem_registerRows {s : State} {p : Word32 × Word32} (h : p ∈ registerRows s) :
    readRegister s p.1 = some p.2 := by
  have hrows : (registerRows s).map (fun q => readRegister s q.1) = (registerRows s).map (fun q => some q.2) := rfl
  exact List.map_inj_left.mp hrows p h

/-- The numbers without a register are those outside the three blocks of 10_state.md R45. -/
theorem readRegister_eq_none_iff (s : State) (r : Word32) : readRegister s r = none ↔
    ¬ (r.toNat ≤ 6 ∨ (16 ≤ r.toNat ∧ r.toNat ≤ 19) ∨ (32 ≤ r.toNat ∧ r.toNat ≤ 35)) := by
  unfold readRegister
  split <;> simp only [imp_false, reduceCtorEq, true_iff, false_iff] at * <;> omega

/-- A register that exists is read whether FAULT is 0 or 1, and the read has no side effect (44_sys.md R182). -/
theorem exec_sysRdreg_valid {s : State} {r v : Word32} (h : readRegister s r = some v) :
    exec (.sysRdreg r) s = .next { s with rsps := s.rsps ++ [okWord v] } := by
  simp only [exec, execSysRdreg, h, answer_eq_okWord]

/-- A number without a register is refused, and recorded as ERR_BAD_REG only while FAULT = 0
(60_exceptions.md R223, R228). -/
theorem exec_sysRdreg_invalid {s : State} {r : Word32} (h : readRegister s r = none) :
    exec (.sysRdreg r) s =
      if s.flt.fault then .next (respond .faulted 0#32 s)
      else .next (refusedWith s Code.badReg.byte (encode (.sysRdreg r))) := by
  simp only [exec, execSysRdreg, h, unlessFaulted, raise_eq_refusedWith]

/-- Settles O28: a number of the map is answered without a look at FAULT, every other number after one. -/
theorem sysRdregReadsTheRegisterMap : Obligations.SysRdregReadsTheRegisterMap := by
  refine ⟨fun r => ?decoded, fun s =>
    ⟨fun p hp => exec_sysRdreg_valid (readRegister_of_mem_registerRows hp), fun r hr => ?refused⟩⟩
  case decoded =>
    rw [sysRdreg_word]
    exact decode_encode (.sysRdreg r)
  case refused =>
    rw [sysRdreg_word]
    exact exec_sysRdreg_invalid ((readRegister_eq_none_iff s r).mpr hr)

end Sys2Proof.Machine
end

section
/-! PROOFS. Whole encoding sessions (45_properties.md R190): the FMU commands build a table of the given counts,
ENC.INIT opens a session over it, and every ENC.WRITE keeps the interval and adds at most N deferred bits. -/

namespace Sys2Proof.Machine

/-! ## Command sequences -/

/-- A command that ends in a next state hands it to the commands after it. -/
theorem execAll_cons {i : Instr} {is : List Instr} {s t : State} (h : exec i s = .next t) :
    execAll (i :: is) s = execAll is t := by
  rw [execAll, h]

theorem execAll_append {is js : List Instr} {s t : State} (h : execAll is s = .next t) :
    execAll (is ++ js) s = execAll js t := by
  induction is generalizing s with
  | nil =>
    obtain rfl := Host.Outcome.next.inj h
    rfl
  | cons i is ih =>
    rw [List.cons_append]
    cases hexec : exec i s with
    | next u =>
      rw [execAll_cons hexec] at h ⊢
      exact ih h
    | fault r =>
      rw [execAll, hexec] at h
      cases h
    | refused r =>
      rw [execAll, hexec] at h
      cases h

theorem execAll_singleton (i : Instr) (s : State) : execAll [i] s = exec i s := by
  rw [execAll]
  cases exec i s <;> rfl

/-! ## The FMU invariant (10_state.md R27) through a build -/

theorem FmuInv.reset (p : Params) : FmuInv p Fmu.reset where
  cntWf := reset_tables_wf.1
  cumWf := reset_tables_wf.2
  cntExtent := nofun
  cumExtent e he := by
    obtain rfl := List.mem_singleton.mp he
    exact Nat.zero_le _
  nsymLegal := Nat.zero_le _
  cumZero := rfl
  cumStep _ hi := absurd hi (Nat.not_lt_zero _)
  cumTotal := rfl
  emptyPhase _ := rfl
  sealedTotal := nofun

theorem FmuInv.cleared {p : Params} {f : Fmu} (hinv : FmuInv p f) : FmuInv p f.cleared where
  cntWf := hinv.cntWf
  cumWf := memWrite_keeps_wf _ _ _ hinv.cumWf
  cntExtent := hinv.cntExtent
  cumExtent e he := by
    rcases mem_memWrite he with rfl | hold
    · exact Nat.zero_le _
    · exact hinv.cumExtent e hold
  nsymLegal := Nat.zero_le _
  cumZero := f.cleared_cum_zero
  cumStep _ hi := absurd hi (Nat.not_lt_zero _)
  cumTotal := f.cleared_cum_zero
  emptyPhase _ := rfl
  sealedTotal := nofun

/-- The pushed count lies between the old total, now CUM[NSYM], and the new one. -/
theorem FmuInv.pushed_cumStep {p : Params} {f : Fmu} {c : Word32} (hinv : FmuInv p f)
    (hfits : f.total.toNat + c.toNat ≤ 2 ^ 32 - 1) {i : Nat} (hi : i < f.nsym.toNat + 1) :
    ∃ a d b : Word32, memRead (f.pushed c).cum i = some a ∧ memRead (f.pushed c).cnt i = some d ∧
      memRead (f.pushed c).cum (i + 1) = some b ∧ b.toNat = a.toNat + d.toNat := by
  rcases Nat.lt_succ_iff_lt_or_eq.mp hi with hold | rfl
  · obtain ⟨a, d, b, ha, hd, hb, hsum⟩ := hinv.cumStep i hold
    refine ⟨a, d, b, ?low, ?count, ?high, hsum⟩
    case low => rwa [f.pushed_cum_other c (by omega)]
    case count => rwa [f.pushed_cnt_other c (by omega)]
    case high => rwa [f.pushed_cum_other c (by omega)]
  · refine ⟨f.total, c, f.total + c, ?total, f.pushed_cnt_nsym c, f.pushed_cum_nsym_succ c,
      Fmu.pushed_total_toNat hfits⟩
    rw [f.pushed_cum_other c (by omega)]
    exact hinv.cumTotal

theorem FmuInv.pushed {p : Params} {f : Fmu} {c : Word32} (hlegal : p.legal = true) (hinv : FmuInv p f)
    (hphase : f.phase = .building) (hroom : f.nsym.toNat < p.amax)
    (hfits : f.total.toNat + c.toNat ≤ 2 ^ 32 - 1) : FmuInv p (f.pushed c) := by
  have hnsym := Fmu.pushed_nsym_toNat hlegal c hroom
  constructor
  case cntWf => exact memWrite_keeps_wf _ _ _ hinv.cntWf
  case cumWf => exact memWrite_keeps_wf _ _ _ hinv.cumWf
  case cntExtent =>
    intro e he
    rcases mem_memWrite he with rfl | hold
    · exact hroom
    · exact hinv.cntExtent e hold
  case cumExtent =>
    intro e he
    rcases mem_memWrite he with rfl | hold
    · exact hroom
    · exact hinv.cumExtent e hold
  case nsymLegal => omega
  case cumZero =>
    rw [f.pushed_cum_other c (by omega)]
    exact hinv.cumZero
  case cumStep =>
    rw [hnsym]
    exact fun i hi => hinv.pushed_cumStep hfits hi
  case cumTotal =>
    rw [hnsym]
    exact f.pushed_cum_nsym_succ c
  case emptyPhase => exact fun hempty => absurd (hphase.symm.trans hempty) nofun
  case sealedTotal => exact fun hsealed => absurd (hphase.symm.trans hsealed) nofun

theorem FmuInv.sealed {p : Params} {f : Fmu} (hinv : FmuInv p f) (hpos : 0 < f.total.toNat) :
    FmuInv p { f with phase := .sealed } :=
  { hinv with
    emptyPhase := nofun
    sealedTotal := fun _ => hpos }

/-! ## The table of a count sequence (40_fm.md R118) -/

/-- The FMU meets its invariant and its table is that of `counts`. -/
structure HoldsCounts (p : Params) (f : Fmu) (counts : List Word32) : Prop where
  inv : FmuInv p f
  nsym : f.nsym.toNat = counts.length
  total : f.total.toNat = (counts.map BitVec.toNat).sum
  cnt : ∀ i < counts.length, memRead f.cnt i = counts[i]?

theorem HoldsCounts.cleared {p : Params} {f : Fmu} (hinv : FmuInv p f) : HoldsCounts p f.cleared [] :=
  ⟨hinv.cleared, rfl, rfl, nofun⟩

theorem HoldsCounts.sealed {p : Params} {f : Fmu} {counts : List Word32} (h : HoldsCounts p f counts)
    (hpos : 0 < (counts.map BitVec.toNat).sum) : HoldsCounts p { f with phase := .sealed } counts :=
  ⟨h.inv.sealed (h.total ▸ hpos), h.nsym, h.total, h.cnt⟩

theorem HoldsCounts.pushed {p : Params} {f : Fmu} {counts : List Word32} {c : Word32} (hlegal : p.legal = true)
    (h : HoldsCounts p f counts) (hphase : f.phase = .building) (hroom : f.nsym.toNat < p.amax)
    (hfits : f.total.toNat + c.toNat ≤ 2 ^ 32 - 1) : HoldsCounts p (f.pushed c) (counts ++ [c]) where
  inv := h.inv.pushed hlegal hphase hroom hfits
  nsym := by rw [Fmu.pushed_nsym_toNat hlegal c hroom, h.nsym, List.length_append, List.length_singleton]
  total := by simp [Fmu.pushed_total_toNat hfits, h.total]
  cnt i hi := by
    rw [List.length_append, List.length_singleton, Nat.lt_succ_iff_lt_or_eq] at hi
    rcases hi with hold | rfl
    · rw [f.pushed_cnt_other c (by have := h.nsym; omega), h.cnt i hold, List.getElem?_append_left hold]
    · rw [← h.nsym, f.pushed_cnt_nsym, h.nsym, List.getElem?_concat_length]

/-- A symbol of the sequence with a positive count passes the checks of ENC.WRITE. -/
theorem HoldsCounts.writable {p : Params} {f : Fmu} {counts : List Word32} (h : HoldsCounts p f counts) {i : Nat}
    {c : Word32} (hget : counts[i]? = some c) (hpos : 0 < c.toNat) :
    i < f.nsym.toNat ∧ memRead f.cnt i ≠ some 0#32 := by
  obtain ⟨hi, -⟩ := List.getElem?_eq_some_iff.mp hget
  refine ⟨h.nsym ▸ hi, fun hzero => ?_⟩
  rw [h.cnt i hi, hget] at hzero
  obtain rfl := Option.some.inj hzero
  exact absurd hpos (Nat.lt_irrefl 0)

/-- FM.PUSH of every count after FM.CLEAR: each finds room for its count and for the running sum. -/
theorem execAll_fmPush {s : State} {counts : List Word32} (hlegal : s.params.legal = true)
    (hf : s.flt.fault = false) (hempty : HoldsCounts s.params s.fmu []) (hphase : s.fmu.phase = .building)
    (hlen : counts.length ≤ s.params.amax) (hsum : (counts.map BitVec.toNat).sum < 2 ^ 32) :
    ∃ f, execAll (counts.map .fmPush) s =
        .next { s with fmu := f, rsps := s.rsps ++ List.replicate counts.length 0#64 } ∧
      HoldsCounts s.params f counts ∧ f.phase = .building := by
  induction counts using List.reverseRecOn with
  | nil => exact ⟨s.fmu, by simp [execAll], hempty, hphase⟩
  | append_singleton counts c ih =>
    simp only [List.length_append, List.length_singleton] at hlen
    simp only [List.map_append, List.map_cons, List.map_nil, List.sum_append_nat, List.sum_singleton] at hsum
    obtain ⟨f, hexec, hcounts, hbuilding⟩ := ih (by omega) (by omega)
    have hroom : f.nsym.toNat < s.params.amax := by
      rw [hcounts.nsym]
      omega
    have hfits : f.total.toNat + c.toNat ≤ 2 ^ 32 - 1 := by
      rw [hcounts.total]
      omega
    refine ⟨f.pushed c, ?_, hcounts.pushed hlegal hbuilding hroom hfits, hbuilding⟩
    rw [List.map_append, execAll_append hexec, List.map_singleton, execAll_singleton,
      exec_fmPush_ok (by exact hf) hbuilding hroom hfits]
    simp [List.replicate_succ']

/-- FM.BUILD of a count sequence that fits (40_fm.md R118). -/
theorem execAll_fmBuild {s : State} {counts : List Word32} (hlegal : s.params.legal = true)
    (hf : s.flt.fault = false) (hinv : FmuInv s.params s.fmu) (hlen : counts.length ≤ s.params.amax)
    (hpos : 0 < (counts.map BitVec.toNat).sum) (hsum : (counts.map BitVec.toNat).sum < 2 ^ 32) :
    ∃ f, execAll (fmBuild counts) s = .next { s with
          fmu := f
          enc := { s.enc with phase := .idle }
          dec := { s.dec with phase := .idle }
          rsps := s.rsps ++ List.replicate (counts.length + 2) 0#64 } ∧
      HoldsCounts s.params f counts ∧ f.phase = .sealed := by
  rw [fmBuild, execAll_cons (exec_fmClear_ok hf)]
  obtain ⟨f, hexec, hcounts, hbuilding⟩ := execAll_fmPush (s := { s with
      fmu := s.fmu.cleared
      enc := { s.enc with phase := .idle }
      dec := { s.dec with phase := .idle }
      rsps := s.rsps ++ [0#64] }) hlegal hf (HoldsCounts.cleared hinv) rfl hlen hsum
  refine ⟨{ f with phase := .sealed }, ?_, hcounts.sealed hpos, rfl⟩
  have htotal : 0 < f.total.toNat := hcounts.total ▸ hpos
  rw [execAll_append hexec, execAll_singleton, exec_fmSeal_ok (by exact hf) hbuilding htotal]
  simp [← List.replicate_succ', ← List.replicate_succ]

/-! ## The interval of a session (45_properties.md R192) -/

/-- The full range of the width is renormalised and holds any total that fits (42_enc.md R151). -/
theorem IntervalInv.full {N total : Nat} (hN : 1 ≤ N) (hfits : total ≤ minimumRange N) :
    IntervalInv N 0 (stateMask N) total := by
  have hfull := two_pow_eq_two_half hN
  have hhalf := half_pos N
  have hquarter : 4 * quarterRange N ≤ 2 ^ N ∧ quarterRange N + 2 ≤ 2 ^ N := by
    by_cases hwide : 2 ≤ N
    · have htwice := half_eq_two_quarter hwide
      omega
    · rw [quarterRange, if_neg hwide]
      omega
  have hmask : stateMask N = 2 ^ N - 1 := rfl
  have hminimum : minimumRange N = quarterRange N + 2 := rfl
  constructor <;> omega

/-- Where the loop stops the bounds pass the three tests of class S (41_coder_core.md R135). -/
theorem RenormTrace.stopped {N low high l h : Nat} {cs : List RenormClass} (htrace : RenormTrace N low high cs l h) :
    l < halfRange N ∧ halfRange N ≤ h ∧ (l < quarterRange N ∨ 3 * quarterRange N ≤ h) := by
  induction htrace with
  | stop notZ notO notU => exact ⟨notO, notZ, notU⟩
  | zero _ _ ih => exact ih
  | one _ _ _ ih => exact ih
  | under _ _ _ _ _ ih => exact ih

/-- Bounds that pass the tests of class S are at least the minimum range apart (41_coder_core.md R138). -/
theorem minimumRange_le_of_stopped {N low high : Nat} (hlow : low < halfRange N) (hhigh : halfRange N ≤ high)
    (hstop : low < quarterRange N ∨ 3 * quarterRange N ≤ high) : minimumRange N ≤ high - low + 1 := by
  rw [minimumRange]
  by_cases hwide : 2 ≤ N
  · have hhalf := half_eq_two_quarter hwide
    omega
  · have hquarter : quarterRange N = 0 := if_neg hwide
    omega

theorem RenormRun.intervalInv {N fuel low high l h total : Nat} {cs : List RenormClass}
    (hrun : RenormRun N fuel low high cs l h) (hfits : total ≤ minimumRange N) : IntervalInv N l h total := by
  obtain ⟨hlow, hhigh, hstop⟩ := hrun.trace.stopped
  exact ⟨hlow, hhigh, Nat.le_sub_one_of_lt hrun.high_lt, hstop, minimumRange_le_of_stopped hlow hhigh hstop, hfits⟩

/-! ## ENC.INIT (42_enc.md R151) -/

/-- The encoder at the start of a session of width `n`. -/
def Enc.started (p : Params) (n : Word32) : Enc :=
  { nbits := BitVec.ofNat 6 n.toNat
    low := 0#32
    high := regOf p.nmax (stateMask n.toNat)
    pend := 0#32
    phase := .active }

section started

variable {p : Params} {n : Word32} (hlegal : p.legal = true) (hn : n.toNat ≤ p.nmax)

include hlegal hn

theorem Enc.started_nbits_toNat : (Enc.started p n).nbits.toNat = n.toNat := by
  obtain ⟨-, hnmax, -, -, -, -⟩ := (Params.legal_iff p).mp hlegal
  rw [Enc.started, BitVec.toNat_ofNat]
  omega

theorem Enc.started_high_toNat : (Enc.started p n).high.toNat = stateMask n.toNat := by
  obtain ⟨-, hnmax, -, -, -, -⟩ := (Params.legal_iff p).mp hlegal
  exact regOf_toNat hnmax
    (Nat.lt_of_lt_of_le (Nat.sub_one_lt (Nat.two_pow_pos _).ne') (Nat.pow_le_pow_right (by decide) hn))

theorem EncInv.started {f : Fmu} (hone : 1 ≤ n.toNat) (hphase : f.phase = .sealed)
    (hfits : f.total.toNat ≤ minimumRange n.toNat) : EncInv p f (Enc.started p n) := by
  have hnbits := Enc.started_nbits_toNat hlegal hn
  constructor
  case nbitsLegal => rwa [hnbits]
  case lowWidth => exact Nat.two_pow_pos _
  case highWidth => exact regOf_lt _ _
  case pendWidth => exact Nat.zero_le _
  case session =>
    intro _
    rw [hnbits, Enc.started_high_toNat hlegal hn]
    exact ⟨hphase, hone, IntervalInv.full hone hfits⟩

end started

theorem exec_encInit_ok {s : State} {n : Word32} (hf : s.flt.fault = false) (hone : 1 ≤ n.toNat)
    (hn : n.toNat ≤ s.params.nmax) (hphase : s.fmu.phase = .sealed)
    (hfits : s.fmu.total.toNat ≤ minimumRange n.toNat) :
    exec (.encInit n) s = .next { s with enc := Enc.started s.params n, rsps := s.rsps ++ [0#64] } := by
  have hwidth : ¬ widthLegal s n = false := by simp [widthLegal, hone, hn]
  have htotal : ¬ totalFits s n = false := by simp [totalFits, hfits]
  rw [exec, execEncInit, unlessFaulted_running hf, if_neg hwidth, if_neg (not_not.mpr hphase), if_neg htotal,
    answer_zero, Enc.started]

/-! ## ENC.WRITE with room in the counter (42_enc.md R152) -/

/-- Each class adds at most one deferred bit. -/
theorem emission_pend_le_add_length {pmax pend pend' : Nat} {cs : List RenormClass} {bits : List Bit}
    (h : emission pmax cs pend = some (bits, pend')) : pend' ≤ pend + cs.length := by
  induction cs generalizing pend bits with
  | nil =>
    simp only [emission, Option.some.injEq, Prod.mk.injEq] at h
    omega
  | cons c cs ih =>
    rw [List.length_cons]
    cases c with
    | Z =>
      simp only [emission, Option.map_eq_some_iff, Prod.mk.injEq] at h
      obtain ⟨⟨rest, _⟩, hrest, -, rfl⟩ := h
      exact (ih hrest).trans (by omega)
    | O =>
      simp only [emission, Option.map_eq_some_iff, Prod.mk.injEq] at h
      obtain ⟨⟨rest, _⟩, hrest, -, rfl⟩ := h
      exact (ih hrest).trans (by omega)
    | U =>
      simp only [emission, Option.ite_none_left_eq_some] at h
      obtain ⟨-, hrest⟩ := h
      exact (ih hrest).trans (by omega)
    | S => exact (ih h).trans (by omega)

/-- What ENC.WRITE commits keeps the encoder's invariant. -/
theorem EncInv.written {p : Params} {f : Fmu} {e : Enc} {fuel low high l h : Nat} {cs : List RenormClass}
    (hlegal : p.legal = true) (henc : EncInv p f e) (hphase : e.phase = .active)
    (hrun : RenormRun e.nbits.toNat fuel low high cs l h) (pend : Nat) :
    EncInv p f { e with low := regOf p.nmax l, high := regOf p.nmax h, pend := regOf p.pbw pend } := by
  obtain ⟨-, hnmax, -, -, -, -⟩ := (Params.legal_iff p).mp hlegal
  obtain ⟨hsealed, hone, hinterval⟩ := henc.session (hphase ▸ nofun)
  have hhigh : h < 2 ^ p.nmax := hrun.high_lt.trans_le (Nat.pow_le_pow_right (by decide) henc.nbitsLegal)
  constructor
  case nbitsLegal => exact henc.nbitsLegal
  case lowWidth => exact regOf_lt _ _
  case highWidth => exact regOf_lt _ _
  case pendWidth => exact Nat.le_sub_one_of_lt (regOf_lt _ _)
  case session =>
    intro _
    rw [regOf_toNat hnmax (hrun.low_le_high.trans_lt hhigh), regOf_toNat hnmax hhigh]
    exact ⟨hsealed, hone, hrun.intervalInv hinterval.totalFits⟩

/-- With room for N more deferred bits a symbol of positive count is written, and the session goes on. -/
theorem exec_encWrite_room {s : State} {a : Word32} (hlegal : s.params.legal = true) (hf : s.flt.fault = false)
    (hfmu : FmuInv s.params s.fmu) (henc : EncInv s.params s.fmu s.enc) (hphase : s.enc.phase = .active)
    (hrange : a.toNat < s.fmu.nsym.toNat) (hcount : memRead s.fmu.cnt a.toNat ≠ some 0#32)
    (hroom : s.enc.pend.toNat + s.enc.nbits.toNat ≤ s.params.pmax) :
    ∃ e bits, exec (.encWrite a) s =
        .next { s with enc := e, out := s.out ++ bits, rsps := s.rsps ++ [0#64] } ∧
      EncInv s.params s.fmu e ∧ e.phase = .active ∧ e.nbits = s.enc.nbits ∧
      e.pend.toNat ≤ s.enc.pend.toNat + s.enc.nbits.toNat := by
  obtain ⟨symlow, count, symhigh, hlow, hcnt, hne, hhigh, hslice, hsym⟩ := hfmu.slice hrange hcount
  obtain ⟨-, hone, hinterval⟩ := henc.session (hphase ▸ nofun)
  obtain ⟨cs, low, high, hrun⟩ := hinterval.exists_renormRun_narrow hone hslice hsym
  have hlength := hrun.length_le
  obtain ⟨⟨bits, pend⟩, hemit⟩ := Option.ne_none_iff_exists'.mp
    (emission_ne_none (pmax := s.params.pmax) (pend := s.enc.pend.toNat) (cs := cs) (by omega))
  have hpend := emission_pend_le_add_length hemit
  obtain ⟨-, -, -, -, -, hpbw⟩ := (Params.legal_iff _).mp hlegal
  have hpendFits : pend < 2 ^ s.params.pbw :=
    Nat.lt_of_le_sub_one (Nat.two_pow_pos _) (emission_pend_le henc.pendWidth hemit)
  refine ⟨_, bits, exec_encWrite_ok hf hphase hrange hcnt hne hlow hhigh hrun hemit,
    henc.written hlegal hphase hrun pend, hphase, rfl, ?_⟩
  rw [regOf_toNat hpbw hpendFits]
  omega

/-- Each symbol takes N of the room there is in the counter. -/
theorem execAll_encPut {s : State} {syms : List Word32} (hlegal : s.params.legal = true)
    (hf : s.flt.fault = false) (hfmu : FmuInv s.params s.fmu) (henc : EncInv s.params s.fmu s.enc)
    (hphase : s.enc.phase = .active)
    (hsyms : ∀ a ∈ syms, a.toNat < s.fmu.nsym.toNat ∧ memRead s.fmu.cnt a.toNat ≠ some 0#32)
    (hroom : s.enc.pend.toNat + s.enc.nbits.toNat * syms.length ≤ s.params.pmax) :
    ∃ e bits, execAll (encPut syms) s = .next { s with
          enc := e
          out := s.out ++ bits
          rsps := s.rsps ++ List.replicate syms.length 0#64 } ∧
      e.phase = .active ∧ e.pend.toNat ≤ s.enc.pend.toNat + s.enc.nbits.toNat * syms.length := by
  induction syms generalizing s with
  | nil => exact ⟨s.enc, [], by simp [encPut, execAll], hphase, Nat.le_add_right _ _⟩
  | cons a syms ih =>
    rw [List.length_cons, Nat.mul_succ] at hroom
    obtain ⟨⟨hrange, hcount⟩, hrest⟩ := List.forall_mem_cons.mp hsyms
    obtain ⟨e, bits, hexec, henc', hphase', hnbits, hpend⟩ :=
      exec_encWrite_room hlegal hf hfmu henc hphase hrange hcount (by omega)
    obtain ⟨e', bits', hexec', hphase'', hpend'⟩ :=
      ih (s := { s with enc := e, out := s.out ++ bits, rsps := s.rsps ++ [0#64] }) hlegal hf hfmu henc' hphase'
        hrest (by simp only [hnbits]; omega)
    refine ⟨e', bits ++ bits', ?_, hphase'', ?_⟩
    · rw [encPut, List.map_cons, execAll_cons hexec, ← encPut, hexec']
      simp [List.replicate_succ]
    · rw [List.length_cons, Nat.mul_succ]
      simp only [hnbits] at hpend'
      omega

/-! ## Whole sessions (45_properties.md R190) -/

/-- One message over a sealed table whose total fits the width: with more room in the counter than the symbols
can defer, ENC.FINISH finds room for its own bit. -/
theorem execAll_encMsg {s : State} {n : Word32} {syms : List Word32} (hlegal : s.params.legal = true)
    (hf : s.flt.fault = false) (hfmu : FmuInv s.params s.fmu) (hsealed : s.fmu.phase = .sealed)
    (hone : 1 ≤ n.toNat) (hn : n.toNat ≤ s.params.nmax) (hfits : s.fmu.total.toNat ≤ minimumRange n.toNat)
    (hsyms : ∀ a ∈ syms, a.toNat < s.fmu.nsym.toNat ∧ memRead s.fmu.cnt a.toNat ≠ some 0#32)
    (hroom : n.toNat * syms.length < s.params.pmax) :
    ∃ t, execAll (encMsg n syms) s = .next t ∧ t.flt = s.flt ∧ t.enc.phase = .done ∧
      t.rsps = s.rsps ++ List.replicate (syms.length + 2) 0#64 := by
  have hnbits := Enc.started_nbits_toNat hlegal hn
  have hpend : (Enc.started s.params n).pend.toNat = 0 := rfl
  obtain ⟨e, bits, hexec, hphase, hle⟩ :=
    execAll_encPut (s := { s with enc := Enc.started s.params n, rsps := s.rsps ++ [0#64] }) hlegal hf hfmu
      (EncInv.started hlegal hn hone hsealed hfits) rfl hsyms (by simp only [hnbits, hpend]; omega)
  simp only [hnbits, hpend] at hle
  have hfinish : e.pend.toNat < s.params.pmax := by omega
  refine ⟨_, (execAll_cons (exec_encInit_ok hf hone hn hsealed hfits)).trans ((execAll_append hexec).trans
    ((execAll_singleton _ _).trans (exec_encFinish_ok (by exact hf) hphase hfinish rfl))), rfl, rfl, ?_⟩
  simp [← List.replicate_succ', ← List.replicate_succ]

/-- A total that fits a legal width is below the limit of the TOTAL register (40_fm.md R112). -/
theorem minimumRange_lt_two_pow_32 {N : Nat} (hN : N ≤ 32) : minimumRange N < 2 ^ 32 := by
  have hquarter : quarterRange N ≤ 2 ^ 30 := by
    rw [quarterRange]
    split
    · exact Nat.pow_le_pow_right (by decide) (by omega)
    · exact Nat.zero_le _
  rw [minimumRange]
  omega

/-- Settles O51: FM.BUILD from reset leaves the sealed table of the counts, and one message follows over it. -/
theorem validEncodingSessionsAnswerOk : Obligations.ValidEncodingSessionsAnswerOk := by
  intro p counts syms n hlegal hone hn hcounts hlen hpos hfits hroom hsyms
  obtain ⟨-, hnmax, -, -, -, -⟩ := (Params.legal_iff p).mp hlegal
  obtain ⟨f, hbuild, htable, hsealed⟩ := execAll_fmBuild (s := State.resetWith p) hlegal rfl (FmuInv.reset p) hlen
    hpos (hfits.trans_lt (minimumRange_lt_two_pow_32 (hn.trans hnmax)))
  have hwritable : ∀ a ∈ syms, a.toNat < f.nsym.toNat ∧ memRead f.cnt a.toNat ≠ some 0#32 := by
    intro a ha
    obtain ⟨c, hget, hc⟩ := hsyms a ha
    exact htable.writable hget hc
  obtain ⟨t, hmsg, hflt, hdone, hrsps⟩ := execAll_encMsg (s := { State.resetWith p with
      fmu := f
      rsps := List.replicate (counts.length + 2) 0#64 }) hlegal rfl htable.inv hsealed hone hn
    (htable.total ▸ hfits) hwritable hroom
  refine ⟨t, (execAll_append hbuild).trans hmsg, congrArg FaultRegs.fault hflt, hdone, hrsps.trans ?_⟩
  rw [List.replicate_append_replicate]
  congr 1
  omega

end Sys2Proof.Machine
end

section
/-! PROOFS. Errors (60_exceptions.md R211 to R230): fault entry, what a command may make of the fault registers,
the illegal word, and the faulted block. -/

namespace Sys2Proof.Machine

/-! ## One step with a word on the command port -/

section words

variable {s : State} {w : Word64} {rest : List HostEvent} (hinbox : s.inbox = .command w :: rest)

include hinbox

theorem step_command {i : Instr} (hdec : decode w = .command i) : step s = exec i (takeEvent rest s) := by
  simp only [step, hinbox, hdec]

theorem step_illegal {why : Illegal} (hdec : decode w = .illegal why) :
    step s = illegalCommand w (takeEvent rest s) := by
  simp only [step, hinbox, hdec]

end words

/-! ## What a command may make of the fault registers (60_exceptions.md R225, R226, R230) -/

/-- An outcome for the word `w` in state `s` that is precise: the fault registers stay, or FAULT was 0 and an error
was recorded with no other effect, or the model stops. -/
inductive KeepsOrRaises (w : Word64) (s : State) : Host.Outcome State Fault Refusal → Prop
  | kept {t : State} (hflt : t.flt = s.flt) : KeepsOrRaises w s (.next t)
  | raised {e : Code} (hf : s.flt.fault = false) (he : e.recordable) :
      KeepsOrRaises w s (.next (refusedWith s e.byte w))
  | stopped (r : Fault) : KeepsOrRaises w s (.fault r)

namespace KeepsOrRaises

variable {w : Word64} {s : State} {run : Host.Outcome State Fault Refusal}

theorem ofAnswer {v : Word32} {u : State} (hflt : u.flt = s.flt) : KeepsOrRaises w s (answer v u) :=
  kept hflt

theorem ofRaise {e : Code} (hf : s.flt.fault = false) (he : e ≠ .ok ∧ e ≠ .faulted := by decide) :
    KeepsOrRaises w s (raise e w s) :=
  raised hf he

/-- One check of a command's list (60_exceptions.md R228). -/
theorem ofCheck {c : Prop} [Decidable c] {e : Code} (hf : s.flt.fault = false) (hpassed : KeepsOrRaises w s run)
    (he : e ≠ .ok ∧ e ≠ .faulted := by decide) : KeepsOrRaises w s (if c then raise e w s else run) := by
  split
  · exact ofRaise hf he
  · exact hpassed

/-- The first global check: what it refuses keeps the recorded error (60_exceptions.md R230). -/
theorem ofUnlessFaulted (hrun : s.flt.fault = false → KeepsOrRaises w s run) :
    KeepsOrRaises w s (unlessFaulted s run) := by
  cases hf : s.flt.fault with
  | true =>
    rw [unlessFaulted_faulted hf]
    exact kept rfl
  | false =>
    rw [unlessFaulted_running hf]
    exact hrun hf

end KeepsOrRaises

open KeepsOrRaises

theorem execSysRdreg_keepsOrRaises (r : Word32) (s : State) :
    KeepsOrRaises (encode (.sysRdreg r)) s (execSysRdreg r s) := by
  unfold execSysRdreg
  split
  · exact ofAnswer rfl
  · exact ofUnlessFaulted fun hf => ofRaise hf

/-- Nothing is committed before the loop has ended without an error (42_enc.md R152). -/
theorem execEncWrite_keepsOrRaises (a : Word32) (s : State) :
    KeepsOrRaises (encode (.encWrite a)) s (execEncWrite a s) := by
  refine ofUnlessFaulted fun hf => ofCheck hf <| ofCheck hf ?_
  split
  · exact stopped _
  · refine ofCheck hf ?_
    split
    · dsimp only
      split
      · exact ofAnswer rfl
      · exact ofRaise hf
      · exact stopped _
    · exact stopped _

theorem execDecRead_keepsOrRaises (s : State) : KeepsOrRaises (encode .decRead) s (execDecRead s) := by
  refine ofUnlessFaulted fun hf => ofCheck hf ?_
  dsimp only
  split
  · exact stopped _
  · split
    · split
      · exact ofAnswer rfl
      · exact stopped _
    · exact stopped _

/-- Every command but SYS.RESET is precise, faulted or not. -/
theorem exec_keepsOrRaises {i : Instr} (hreset : i ≠ .sysReset) (s : State) :
    KeepsOrRaises (encode i) s (exec i s) := by
  cases i with
  | sysReset => exact absurd rfl hreset
  | sysRdreg r => exact execSysRdreg_keepsOrRaises r s
  | fmClear => exact ofUnlessFaulted fun _ => ofAnswer rfl
  | fmPush c => exact ofUnlessFaulted fun hf => ofCheck hf <| ofCheck hf <| ofCheck hf <| ofAnswer rfl
  | fmSeal => exact ofUnlessFaulted fun hf => ofCheck hf <| ofCheck hf <| ofAnswer rfl
  | fmNsym | fmTotal => exact ofUnlessFaulted fun hf => ofCheck hf <| ofAnswer rfl
  | fmLow a | fmHigh a =>
    refine ofUnlessFaulted fun hf => ofCheck hf <| ofCheck hf ?_
    split
    · exact stopped _
    · exact ofAnswer rfl
  | encInit n | decInit n =>
    exact ofUnlessFaulted fun hf => ofCheck hf <| ofCheck hf <| ofCheck hf <| ofAnswer rfl
  | encWrite a => exact execEncWrite_keepsOrRaises a s
  | encFinish => exact ofUnlessFaulted fun hf => ofCheck hf <| ofCheck hf <| ofAnswer rfl
  | decRead => exact execDecRead_keepsOrRaises s

theorem illegalCommand_running {s : State} (hf : s.flt.fault = false) (w : Word64) :
    illegalCommand w s = .next (refusedWith s Code.illegalCmd.byte w) := by
  rw [illegalCommand, unlessFaulted_running hf, raise_eq_refusedWith]

theorem illegalCommand_keepsOrRaises (w : Word64) (s : State) : KeepsOrRaises w s (illegalCommand w s) :=
  ofUnlessFaulted fun hf => ofRaise hf

/-- A precise outcome of a faulted block has the recorded error (60_exceptions.md R230). -/
theorem KeepsOrRaises.flt_eq_of_faulted {w : Word64} {s t : State} (h : KeepsOrRaises w s (.next t))
    (hf : s.flt.fault = true) : t.flt = s.flt := by
  cases h with
  | kept hflt => exact hflt
  | raised hrunning _ => exact absurd (hrunning.symm.trans hf) Bool.false_ne_true

/-! ## The faulted block (60_exceptions.md R222) -/

theorem illegalCommand_faulted {s : State} (hf : s.flt.fault = true) (w : Word64) :
    illegalCommand w s = .next (respond .faulted 0#32 s) :=
  unlessFaulted_faulted hf _

/-- The two commands that a faulted block accepts apart (60_exceptions.md R222, R227). -/
theorem exec_faulted {i : Instr} {s : State} (hf : s.flt.fault = true) (hreset : i ≠ .sysReset)
    (hreg : ∀ r, i = .sysRdreg r → readRegister s r = none) : exec i s = .next (respond .faulted 0#32 s) := by
  cases i with
  | sysReset => exact absurd rfl hreset
  | sysRdreg r => rw [exec_sysRdreg_invalid (hreg r rfl), if_pos hf]
  | fmClear | fmPush | fmSeal | fmNsym | fmLow | fmHigh | fmTotal | encInit | encWrite | encFinish | decInit
  | decRead =>
    exact unlessFaulted_faulted hf _

/-! ## The obligations -/

/-- Settles O17: fault entry is two field writes, and its response is the code over zeros. -/
theorem faultEntryRecordsTheCommand : Obligations.FaultEntryRecordsTheCommand :=
  fun e w s => ⟨_, raise_eq_refusedWith e w s, rfl, rfl, rfl, rfl, rfl, rfl, rfl⟩

/-- Settles O7: the decoder finds the word illegal, and with FAULT = 0 the global check lets its error through. -/
theorem illegalWordsRaiseIllegalCommand : Obligations.IllegalWordsRaiseIllegalCommand := by
  intro s w rest hinbox hill hf
  obtain ⟨-, hillegal⟩ := wellFormedWordsAreExactlyTheCommands w
  obtain ⟨why, hdec⟩ := hillegal hill
  rw [step_illegal hinbox hdec]
  exact illegalCommand_running (s := takeEvent rest s) hf w

/-- Settles O19: a command other than the two accepted ones and an illegal word both stop at the global check. -/
theorem faultedBlockRefusesCommands : Obligations.FaultedBlockRefusesCommands := by
  intro s w rest hinbox hf hreset hreg
  have hresponse : respond .faulted 0#32 (takeEvent rest s) =
      { s with inbox := rest, rsps := s.rsps ++ [0x0B00000000000000#64] } := rfl
  rw [← hresponse]
  cases hdec : decode w with
  | command i =>
    rw [step_command hinbox hdec]
    exact exec_faulted hf (fun hi => hreset (hi ▸ hdec)) fun r hi => hreg r (hi ▸ hdec)
  | illegal why =>
    rw [step_illegal hinbox hdec]
    exact illegalCommand_faulted (s := takeEvent rest s) hf w

/-- Settles O20: of the outcomes of a precise command only fault entry sets FAULT, and SYS.RESET clears it. -/
theorem failingCommandsChangeNothingElse : Obligations.FailingCommandsChangeNothingElse := by
  intro i s t hf hexec hfault
  by_cases hreset : i = .sysReset
  · subst hreset
    rw [exec_sysReset] at hexec
    cases hexec
    exact absurd hfault Bool.false_ne_true
  · have hprecise := exec_keepsOrRaises hreset s
    rw [hexec] at hprecise
    cases hprecise with
    | kept hflt => exact absurd (hf.symm.trans (hflt ▸ hfault)) Bool.false_ne_true
    | raised _ he => exact ⟨_, he, rfl⟩

/-- Settles O21: words other than SYS.RESET are precise, so a faulted block keeps its error; of the host's
acts only the hardware reset touches the fault registers. -/
theorem firstErrorIsKeptUntilReset : Obligations.FirstErrorIsKeptUntilReset := by
  intro s t hf hstep
  rcases step_cases hstep with ⟨-, rfl⟩ | ⟨w, rest, i, hinbox, hdec, hexec⟩ |
    ⟨w, rest, why, -, -, hillegal⟩ | ⟨rest, hinbox, rfl⟩ | ⟨bits, rest, -, rfl⟩ |
    ⟨bits, rest, -, rfl⟩ | ⟨rest, -, rfl⟩
  · exact .inl rfl
  · by_cases hreset : i = .sysReset
    · subst hreset
      rw [exec_sysReset] at hexec
      cases hexec
      rw [eq_encode_of_decode hdec] at hinbox
      exact .inr ⟨rfl, rest, .inr hinbox⟩
    · exact .inl ((hexec ▸ exec_keepsOrRaises hreset (takeEvent rest s)).flt_eq_of_faulted hf)
  · exact .inl ((hillegal ▸ illegalCommand_keepsOrRaises w (takeEvent rest s)).flt_eq_of_faulted hf)
  · exact .inr ⟨rfl, rest, .inl hinbox⟩
  · exact .inl rfl
  · exact .inl rfl
  · exact .inl rfl

end Sys2Proof.Machine
end

section
/-! PROOFS. The encoding as a whole (30_encoding.md R90, R96, R100; 60_exceptions.md R211): the round trip, and the
fixed values of the spec, each of which the model computes. -/

namespace Sys2Proof

/-- Settles O1: `decode_encode` for every command and operand. -/
theorem encodedCommandsDecodeToThemselves : Obligations.EncodedCommandsDecodeToThemselves := decode_encode

/-- Settles O4: the words are closed terms, which the decoder evaluates. -/
theorem wordsOfTheSpecDecodeAsItSays : Obligations.WordsOfTheSpecDecodeAsItSays := by
  unfold Obligations.WordsOfTheSpecDecodeAsItSays
  decide

/-- Settles O5: the listing is a closed term, which the assembler evaluates. -/
theorem textAssemblesToCommandWords : Obligations.TextAssemblesToCommandWords := by
  unfold Obligations.TextAssemblesToCommandWords
  decide

/-- Settles O16: `Code.byte` row by row. -/
theorem errorCodesHaveTheirNumbers : Obligations.ErrorCodesHaveTheirNumbers :=
  ⟨rfl, rfl, rfl, rfl, rfl, rfl, rfl, rfl, rfl, rfl, rfl, rfl, rfl⟩

end Sys2Proof
end

section
/-! PROOFS. One step by the event at the head of the inbox (20_memory.md R80; log 1), and the invariant after
reset (10_state.md R51). -/

namespace Sys2Proof.Machine

/-- Settles O6: the step of a command event. -/
theorem stepRunsTheDecodedCommand : Obligations.StepRunsTheDecodedCommand :=
  fun _ _ _ _ hinbox hdec => step_command hinbox hdec

/-- Settles O8: the step of each host act is one update of the host side. -/
theorem hostActsTouchOnlyTheHostSide : Obligations.HostActsTouchOnlyTheHostSide := by
  refine fun s bits rest => ⟨?idle, ?supply, ?replace, ?empty⟩
  all_goals
    intro hinbox
    simp only [step, hinbox]
    rfl

theorem step_hardwareReset {s : State} {rest : List HostEvent} (hinbox : s.inbox = .hardwareReset :: rest) :
    step s = .next (resetBlock (takeEvent rest s)) := by
  simp only [step, hinbox]
  rfl

/-- Settles O11: both are `resetBlock`, which leaves the responses alone, and SYS.RESET adds one. -/
theorem hardwareResetActsAsSysResetWithoutResponse : Obligations.HardwareResetActsAsSysResetWithoutResponse :=
  fun _ _ hinbox => ⟨_, _, step_hardwareReset hinbox, exec_sysReset _, rfl⟩

theorem EncInv.reset (p : Params) (f : Fmu) : EncInv p f Enc.reset where
  nbitsLegal := Nat.zero_le _
  lowWidth := Nat.two_pow_pos _
  highWidth := Nat.two_pow_pos _
  pendWidth := Nat.zero_le _
  session hphase := absurd rfl hphase

theorem DecInv.reset (p : Params) (f : Fmu) : DecInv p f Dec.reset where
  nbitsLegal := Nat.zero_le _
  lowWidth := Nat.two_pow_pos _
  highWidth := Nat.two_pow_pos _
  codeWidth := Nat.two_pow_pos _
  session hphase := absurd rfl hphase

theorem FaultInv.reset : FaultInv FaultRegs.reset := ⟨fun _ => rfl, nofun⟩

theorem State.Inv.resetWith {p : Params} (hlegal : p.legal = true) : (State.resetWith p).Inv :=
  ⟨hlegal, FmuInv.reset p, EncInv.reset p _, DecInv.reset p _, FaultInv.reset⟩

/-- Settles O12: unit by unit, for all legal parameters; the defaults are legal. -/
theorem resetStateMeetsTheInvariant : Obligations.ResetStateMeetsTheInvariant :=
  ⟨State.Inv.resetWith (by decide), fun _ => State.Inv.resetWith⟩

end Sys2Proof.Machine
end

section
/-! PROOFS. What the coder core and the symbol search are held to (41_coder_core.md R137 to R143; 40_fm.md R119 to
R121; 43_dec.md R169): each iteration doubles the range, and the running sums rise. -/

namespace Sys2Proof.Machine

/-- Settles O41: the bound DEC.READ already rests on. -/
theorem scaledValueIsBelowTheTotal : Obligations.ScaledValueIsBelowTheTotal :=
  fun _ _ _ _ hle hge hpos => scaledValue_lt_total hle hge hpos

/-- Settles O39: `narrow_bounds`; the lower bound is `low` and a quotient. -/
theorem narrowStaysInsideTheInterval : Obligations.NarrowStaysInsideTheInterval :=
  fun _ _ _ _ _ hle hpos hslice hsym htotal =>
    ⟨Nat.le_add_right _ _, narrow_bounds hle hpos hslice hsym htotal⟩

/-! ## The range over a trace (41_coder_core.md R137) -/

theorem RenormTrace.range_eq {N low high l h : Nat} {cs : List RenormClass} (hN : 1 ≤ N)
    (htrace : RenormTrace N low high cs l h) (hle : low ≤ high) (hhigh : high < 2 ^ N) :
    h - l + 1 = 2 ^ cs.length * (high - low + 1) := by
  induction cs generalizing low high with
  | nil =>
    cases htrace with
    | stop => rw [List.length_nil, Nat.pow_zero, Nat.one_mul]
  | cons c cs ih =>
    obtain ⟨rfl, hgo, rest⟩ := htrace.cons_inv
    obtain ⟨hlow, hhalf⟩ := renormClass_sub_bounds hN hle hhigh hgo
    have hfull := two_pow_eq_two_half hN
    generalize (renormClass N low high).sub N = sub at hlow hhalf rest
    have hdouble : 2 * (high - sub) + 1 - 2 * (low - sub) + 1 = 2 * (high - low + 1) := by omega
    rw [ih rest (by omega) (by omega), hdouble, List.length_cons, Nat.pow_succ, Nat.mul_assoc]

/-- Settles O40: the run exists within N iterations, and where it stops the tests of class S give the minimum
range. -/
theorem renormalisationEndsWideWithinNIterations : Obligations.RenormalisationEndsWideWithinNIterations := by
  intro N low high hN hle hmask
  have hhigh : high < 2 ^ N := Nat.lt_of_le_sub_one (Nat.two_pow_pos N) hmask
  obtain ⟨cs, l, h, hrun⟩ := exists_renormRun_width hN hle hhigh
  obtain ⟨hlow, hhalf, hstop⟩ := hrun.trace.stopped
  refine ⟨cs, l, h, hrun.trace, hrun.length_le, hrun.trace.range_eq hN hle hhigh, hrun.low_le_high,
    Nat.le_sub_one_of_lt hrun.high_lt, minimumRange_le_of_stopped hlow hhalf hstop, ?gathered⟩
  intro σ f acc
  rw [hrun.loop]
  exact congrArg (LoopEnd.ofActions l h) List.foldlM_pure

/-! ## The symbol of a value (40_fm.md R121) -/

/-- The running sums rise. -/
theorem FmuInv.cum_mono {p : Params} {f : Fmu} (hinv : FmuInv p f) {i j : Nat} {a b : Word32} (hij : i ≤ j)
    (hj : j ≤ f.nsym.toNat) (ha : memRead f.cum i = some a) (hb : memRead f.cum j = some b) : a.toNat ≤ b.toNat := by
  induction j, hij using Nat.le_induction generalizing b with
  | base =>
    obtain rfl := Option.some.inj (ha.symm.trans hb)
    exact Nat.le_refl _
  | succ j hij ih =>
    obtain ⟨low, count, high, hlow, -, hhigh, hsum⟩ := hinv.cumStep j (by omega)
    obtain rfl := Option.some.inj (hb.symm.trans hhigh)
    have hle := ih (by omega) hlow
    omega

/-- Slices do not overlap, so a value lies in the slice of one symbol only. -/
theorem FmuInv.slice_unique {p : Params} {f : Fmu} (hinv : FmuInv p f) {i j value : Nat} {a b a' b' : Word32}
    (hi : i < f.nsym.toNat) (ha : memRead f.cum i = some a) (hb : memRead f.cum (i + 1) = some b)
    (hj : j < f.nsym.toNat) (ha' : memRead f.cum j = some a') (hb' : memRead f.cum (j + 1) = some b')
    (hlow : a.toNat ≤ value) (hhigh : value < b.toNat) (hlow' : a'.toNat ≤ value) (hhigh' : value < b'.toNat) :
    j = i := by
  rcases Nat.lt_trichotomy i j with hlt | heq | hgt
  · have hle := hinv.cum_mono (Nat.succ_le_of_lt hlt) (Nat.le_of_lt hj) hb ha'
    omega
  · exact heq.symm
  · have hle := hinv.cum_mono (Nat.succ_le_of_lt hgt) (Nat.le_of_lt hi) hb' ha
    omega

/-- Settles O42: the search finds a slice that holds the value, and slices do not overlap. -/
theorem findSymbolAnswersTheUniqueSymbol : Obligations.FindSymbolAnswersTheUniqueSymbol := by
  intro p f value hinv hvalue
  obtain ⟨sym, a, b, hfind, hsym, ha, hb, hlow, hhigh⟩ := hinv.findSymbol_slice hvalue
  obtain ⟨count, hcnt, hpos⟩ := hinv.count_pos_of_slice hsym ha hb (hlow.trans_lt hhigh)
  exact ⟨sym, a, b, count, hfind, hsym, ha, hb, hlow, hhigh, hcnt, hpos,
    fun _ _ _ hsym' ha' hb' hlow' hhigh' => hinv.slice_unique hsym ha hb hsym' ha' hb' hlow hhigh hlow' hhigh'⟩

end Sys2Proof.Machine
end

section
/-! PROOFS. What a command can do, said once (60_exceptions.md R222 to R228): it is accepted and has its own effect,
or the first check that fails refuses it, or the pending counter overflows during an ENC.WRITE, or the block is
faulted. The effects and refusals are those of `exec` exactly (`exec_eq_next_iff`). -/

namespace Sys2Proof.Machine

/-! ## The loops and the table reads of the coders -/

/-- The renormalisation of ENC.WRITE over the slice `[symlow, symhigh)` (42_enc.md R152). -/
def encLoop (s : State) (symlow symhigh : Word32) : LoopEnd (List Bit × Nat) :=
  let start := narrow s.enc.low.toNat s.enc.high.toNat symlow.toNat symhigh.toNat s.fmu.total.toNat
  renormLoop s.enc.nbits.toNat (encodeBit s.params.pmax) s.enc.nbits.toNat start.1 start.2 ([], s.enc.pend.toNat)

/-- The renormalisation of DEC.READ over the slice `[symlow, symhigh)` (43_dec.md R167). -/
def decLoop (s : State) (symlow symhigh : Word32) : LoopEnd (Nat × Nat) :=
  let start := narrow s.dec.low.toNat s.dec.high.toNat symlow.toNat symhigh.toNat s.fmu.total.toNat
  renormLoop s.dec.nbits.toNat (decodeBit s.dec.nbits.toNat s.inp) s.dec.nbits.toNat start.1 start.2
    (s.dec.code.toNat, s.inPos)

/-- The value DEC.READ searches for (43_dec.md R168). -/
def decValue (s : State) : Nat :=
  scaledValue s.dec.low.toNat s.dec.high.toNat s.dec.code.toNat s.fmu.total.toNat

/-- ENC.WRITE of `a` passes its checks and reads the slice `[symlow, symhigh)` (42_enc.md R152). -/
structure WritesSlice (s : State) (a symlow symhigh : Word32) : Prop where
  running : s.flt.fault = false
  phase : s.enc.phase = .active
  range : a.toNat < s.fmu.nsym.toNat
  count : ∃ c, memRead s.fmu.cnt a.toNat = some c ∧ c ≠ 0#32
  low : memRead s.fmu.cum a.toNat = some symlow
  high : memRead s.fmu.cum (a.toNat + 1) = some symhigh

/-- DEC.READ passes its check, finds `sym` and reads its slice `[symlow, symhigh)` (43_dec.md R167). -/
structure ReadsSlice (s : State) (sym : Nat) (symlow symhigh : Word32) : Prop where
  running : s.flt.fault = false
  phase : s.dec.phase = .active
  find : findSymbol s.fmu.cum s.fmu.nsym.toNat (decValue s) = some sym
  low : memRead s.fmu.cum sym = some symlow
  high : memRead s.fmu.cum (sym + 1) = some symhigh

/-- A width and a table over which a session may start (42_enc.md R151; 43_dec.md R166). -/
structure Startable (s : State) (n : Word32) : Prop where
  running : s.flt.fault = false
  one_le : 1 ≤ n.toNat
  le_nmax : n.toNat ≤ s.params.nmax
  phase : s.fmu.phase = .sealed
  fits : s.fmu.total.toNat ≤ minimumRange n.toNat

/-- The decoder at the start of a session of width `n`, primed with `code` (43_dec.md R166). -/
def Dec.started (p : Params) (n : Word32) (code : Nat) : Dec :=
  { nbits := BitVec.ofNat 6 n.toNat
    low := 0#32
    high := regOf p.nmax (stateMask n.toNat)
    code := regOf p.nmax code
    phase := .active }

section sessions

variable {s : State}

/-! ## The refusals of a session's start (42_enc.md R151; 43_dec.md R166) -/

section refused

variable {n : Word32} (hf : s.flt.fault = false)

theorem widthLegal_eq_false_iff (s : State) (n : Word32) :
    widthLegal s n = false ↔ ¬ (1 ≤ n.toNat ∧ n.toNat ≤ s.params.nmax) := by
  rw [widthLegal, decide_eq_false_iff_not]

theorem totalFits_eq_false_iff (s : State) (n : Word32) :
    totalFits s n = false ↔ minimumRange n.toNat < s.fmu.total.toNat := by
  rw [totalFits, decide_eq_false_iff_not, Nat.not_le]

include hf

theorem exec_encInit_config (hwidth : ¬ (1 ≤ n.toNat ∧ n.toNat ≤ s.params.nmax)) :
    exec (.encInit n) s = .next (refusedWith s Code.config.byte (encode (.encInit n))) := by
  rw [exec, execEncInit, unlessFaulted_running hf, if_pos ((widthLegal_eq_false_iff s n).mpr hwidth),
    raise_eq_refusedWith]

theorem exec_decInit_config (hwidth : ¬ (1 ≤ n.toNat ∧ n.toNat ≤ s.params.nmax)) :
    exec (.decInit n) s = .next (refusedWith s Code.config.byte (encode (.decInit n))) := by
  rw [exec, execDecInit, unlessFaulted_running hf, if_pos ((widthLegal_eq_false_iff s n).mpr hwidth),
    raise_eq_refusedWith]

variable (hwidth : 1 ≤ n.toNat ∧ n.toNat ≤ s.params.nmax)

include hwidth

theorem exec_encInit_wrongPhase (hphase : s.fmu.phase ≠ .sealed) :
    exec (.encInit n) s = .next (refusedWith s Code.phase.byte (encode (.encInit n))) := by
  rw [exec, execEncInit, unlessFaulted_running hf, if_neg ((widthLegal_eq_false_iff s n).not_left.mpr hwidth),
    if_pos hphase, raise_eq_refusedWith]

theorem exec_decInit_wrongPhase (hphase : s.fmu.phase ≠ .sealed) :
    exec (.decInit n) s = .next (refusedWith s Code.phase.byte (encode (.decInit n))) := by
  rw [exec, execDecInit, unlessFaulted_running hf, if_neg ((widthLegal_eq_false_iff s n).not_left.mpr hwidth),
    if_pos hphase, raise_eq_refusedWith]

theorem exec_encInit_totalRange (hphase : s.fmu.phase = .sealed) (hfits : minimumRange n.toNat < s.fmu.total.toNat) :
    exec (.encInit n) s = .next (refusedWith s Code.totalRange.byte (encode (.encInit n))) := by
  rw [exec, execEncInit, unlessFaulted_running hf, if_neg ((widthLegal_eq_false_iff s n).not_left.mpr hwidth),
    if_neg (not_not.mpr hphase), if_pos ((totalFits_eq_false_iff s n).mpr hfits), raise_eq_refusedWith]

theorem exec_decInit_totalRange (hphase : s.fmu.phase = .sealed) (hfits : minimumRange n.toNat < s.fmu.total.toNat) :
    exec (.decInit n) s = .next (refusedWith s Code.totalRange.byte (encode (.decInit n))) := by
  rw [exec, execDecInit, unlessFaulted_running hf, if_neg ((widthLegal_eq_false_iff s n).not_left.mpr hwidth),
    if_neg (not_not.mpr hphase), if_pos ((totalFits_eq_false_iff s n).mpr hfits), raise_eq_refusedWith]

end refused

/-! ## The start of a session -/

theorem exec_encInit_started {n : Word32} (h : Startable s n) :
    exec (.encInit n) s = answer 0#32 { s with enc := Enc.started s.params n } :=
  exec_encInit_ok h.running h.one_le h.le_nmax h.phase h.fits

theorem exec_decInit_started {n : Word32} (h : Startable s n) :
    exec (.decInit n) s = answer 0#32 { s with
      dec := Dec.started s.params n (primeCode s.inp n.toNat 0 s.inPos).1
      inPos := (primeCode s.inp n.toNat 0 s.inPos).2 } := by
  have hwidth : ¬ widthLegal s n = false := by simp [widthLegal, h.one_le, h.le_nmax]
  have htotal : ¬ totalFits s n = false := by simp [totalFits, h.fits]
  rw [exec, execDecInit, unlessFaulted_running h.running, if_neg hwidth, if_neg (not_not.mpr h.phase), if_neg htotal,
    Dec.started]

end sessions

/-! ## The end of the loops -/

/-- What ENC.WRITE makes of the end of its loop. -/
def writeOutcome (s : State) (a : Word32) : LoopEnd (List Bit × Nat) → Host.Outcome State Fault Refusal
  | .stop low high (bits, pend) => answer 0#32 (commitWrite low high pend bits s)
  | .abort => .next (refusedWith s Code.pendingOvf.byte (encode (.encWrite a)))
  | .stuck => .fault .renormNoStop

theorem WritesSlice.exec_eq {a symlow symhigh : Word32} (h : WritesSlice s a symlow symhigh) :
    exec (.encWrite a) s = writeOutcome s a (encLoop s symlow symhigh) := by
  obtain ⟨hf, hphase, hrange, ⟨c, hcnt, hc⟩, hlow, hhigh⟩ := h
  have hsym : ¬ symbolInRange s a = false := by rwa [symbolInRange_eq_false_iff, Nat.not_le]
  rw [exec, execEncWrite, unlessFaulted_running hf, if_neg (not_not.mpr hphase), if_neg hsym, hcnt, hlow, hhigh]
  simp only [if_neg hc]
  rfl

/-- What DEC.READ makes of the end of its loop. -/
def readOutcome (s : State) (sym : Nat) : LoopEnd (Nat × Nat) → Host.Outcome State Fault Refusal
  | .stop low high (code, pos) => answer (BitVec.ofNat 32 sym) (commitRead low high code pos s)
  | _ => .fault .renormNoStop

theorem ReadsSlice.exec_eq {sym : Nat} {symlow symhigh : Word32} (h : ReadsSlice s sym symlow symhigh) :
    exec .decRead s = readOutcome s sym (decLoop s symlow symhigh) := by
  obtain ⟨hf, hphase, hfind, hlow, hhigh⟩ := h
  simp only [decValue] at hfind
  rw [exec, execDecRead, unlessFaulted_running hf, if_neg (not_not.mpr hphase)]
  simp only [hfind, hlow, hhigh]
  rfl

/-! ## The effect of an accepted command -/

/-- The command is accepted in `s`: it answers OK with a value and leaves a state, here before its response. -/
inductive Effect (s : State) : Instr → Word32 → State → Prop
  | sysReset : Effect s .sysReset 0#32 (resetBlock s)
  | sysRdreg {r v : Word32} (hread : readRegister s r = some v) : Effect s (.sysRdreg r) v s
  | fmClear (hf : s.flt.fault = false) : Effect s .fmClear 0#32 { s with
      fmu := s.fmu.cleared
      enc := { s.enc with phase := .idle }
      dec := { s.dec with phase := .idle } }
  | fmPush {c : Word32} (hf : s.flt.fault = false) (hphase : s.fmu.phase = .building)
      (hroom : s.fmu.nsym.toNat < s.params.amax) (hfits : s.fmu.total.toNat + c.toNat ≤ 2 ^ 32 - 1) :
      Effect s (.fmPush c) 0#32 { s with fmu := s.fmu.pushed c }
  | fmSeal (hf : s.flt.fault = false) (hphase : s.fmu.phase = .building) (hpos : 0 < s.fmu.total.toNat) :
      Effect s .fmSeal 0#32 { s with fmu := { s.fmu with phase := .sealed } }
  | fmNsym (hf : s.flt.fault = false) (hphase : s.fmu.phase = .sealed) : Effect s .fmNsym s.fmu.nsym s
  | fmTotal (hf : s.flt.fault = false) (hphase : s.fmu.phase = .sealed) : Effect s .fmTotal s.fmu.total s
  | fmLow {a v : Word32} (hf : s.flt.fault = false) (hphase : s.fmu.phase = .sealed)
      (hrange : a.toNat < s.fmu.nsym.toNat) (hread : memRead s.fmu.cum a.toNat = some v) : Effect s (.fmLow a) v s
  | fmHigh {a v : Word32} (hf : s.flt.fault = false) (hphase : s.fmu.phase = .sealed)
      (hrange : a.toNat < s.fmu.nsym.toNat) (hread : memRead s.fmu.cum (a.toNat + 1) = some v) :
      Effect s (.fmHigh a) v s
  | encInit {n : Word32} (h : Startable s n) :
      Effect s (.encInit n) 0#32 { s with enc := Enc.started s.params n }
  | encWrite {a symlow symhigh : Word32} {low high pend : Nat} {bits : List Bit}
      (h : WritesSlice s a symlow symhigh) (hloop : encLoop s symlow symhigh = .stop low high (bits, pend)) :
      Effect s (.encWrite a) 0#32 (commitWrite low high pend bits s)
  | encFinish {b : Bit} (hf : s.flt.fault = false) (hphase : s.enc.phase = .active)
      (hroom : s.enc.pend.toNat < s.params.pmax)
      (hb : b = decide (¬ s.enc.low.toNat < quarterRange s.enc.nbits.toNat)) :
      Effect s .encFinish 0#32 (sinkPut (b :: List.replicate (s.enc.pend.toNat + 1) (!b))
        { s with enc := { s.enc with pend := 0#32, phase := .done } })
  | decInit {n : Word32} {code pos : Nat} (h : Startable s n)
      (hprime : primeCode s.inp n.toNat 0 s.inPos = (code, pos)) :
      Effect s (.decInit n) 0#32 { s with dec := Dec.started s.params n code, inPos := pos }
  | decRead {sym : Nat} {symlow symhigh : Word32} {low high code pos : Nat}
      (h : ReadsSlice s sym symlow symhigh) (hloop : decLoop s symlow symhigh = .stop low high (code, pos)) :
      Effect s .decRead (BitVec.ofNat 32 sym) (commitRead low high code pos s)

/-- An accepted command runs to its effect. -/
theorem Effect.exec_eq {s u : State} {i : Instr} {v : Word32} (h : Effect s i v u) : exec i s = answer v u := by
  cases h with
  | sysReset => rfl
  | sysRdreg hread => exact (exec_sysRdreg_valid hread).trans (answer_eq_okWord v s).symm
  | fmClear hf => exact exec_fmClear_ok hf
  | fmPush hf hphase hroom hfits => exact exec_fmPush_ok hf hphase hroom hfits
  | fmSeal hf hphase hpos => exact exec_fmSeal_ok hf hphase hpos
  | fmNsym hf hphase => exact (exec_fmNsym_ok hf hphase).trans (answer_eq_okWord _ s).symm
  | fmTotal hf hphase => exact (exec_fmTotal_ok hf hphase).trans (answer_eq_okWord _ s).symm
  | fmLow hf hphase hrange hread => exact (exec_fmLow_ok hf hphase hrange hread).trans (answer_eq_okWord v s).symm
  | fmHigh hf hphase hrange hread => exact (exec_fmHigh_ok hf hphase hrange hread).trans (answer_eq_okWord v s).symm
  | encInit h => exact exec_encInit_started h
  | encWrite h hloop => rw [h.exec_eq, hloop, writeOutcome]
  | encFinish hf hphase hroom hb => exact exec_encFinish_ok hf hphase hroom hb
  | decInit h hprime => rw [exec_decInit_started h, hprime]
  | decRead h hloop => rw [h.exec_eq, hloop, readOutcome]

/-! ## The refusals (60_exceptions.md R228) -/

theorem firstFailure_nil : firstFailure [] = none := rfl

theorem firstFailure_cons_eq_some_iff (c : Prop) [Decidable c] (e e' : Byte) (rest : List (Bool × Byte)) :
    firstFailure ((decide c, e) :: rest) = some e' ↔ (¬ c ∧ e = e') ∨ (c ∧ firstFailure rest = some e') := by
  by_cases hc : c <;> simp [firstFailure, hc]

theorem firstFailure_cons_eq_none_iff (c : Prop) [Decidable c] (e : Byte) (rest : List (Bool × Byte)) :
    firstFailure ((decide c, e) :: rest) = none ↔ c ∧ firstFailure rest = none := by
  by_cases hc : c <;> simp [firstFailure, hc]

/-- A check that fails refuses the command with its error, if all before it pass. -/
theorem exec_of_firstFailure {s : State} {i : Instr} {e : Byte} (hf : s.flt.fault = false)
    (h : firstFailure (commandChecks s i) = some e) : exec i s = .next (refusedWith s e (encode i)) := by
  cases i <;>
    simp only [commandChecks, firstFailure_cons_eq_some_iff, firstFailure_nil, reduceCtorEq, and_false, or_false,
      Nat.not_lt, Nat.not_le] at h
  case sysRdreg r =>
    obtain ⟨hnumber, rfl⟩ := h
    rw [exec_sysRdreg_invalid ((readRegister_eq_none_iff s r).mpr hnumber), hf]
    rfl
  case fmPush c =>
    rcases h with ⟨hphase, rfl⟩ | ⟨hphase, ⟨hfull, rfl⟩ | ⟨hroom, hovf, rfl⟩⟩
    · exact exec_fmPush_wrongPhase hf c hphase
    · exact exec_fmPush_tableFull hf c hphase hfull
    · exact exec_fmPush_countOvf hf hphase hroom (by omega)
  case fmSeal =>
    rcases h with ⟨hphase, rfl⟩ | ⟨hphase, hzero, rfl⟩
    · exact exec_fmSeal_wrongPhase hf hphase
    · exact exec_fmSeal_zeroTotal hf hphase (by omega)
  case fmNsym =>
    obtain ⟨hphase, rfl⟩ := h
    exact exec_fmNsym_wrongPhase hf hphase
  case fmTotal =>
    obtain ⟨hphase, rfl⟩ := h
    exact exec_fmTotal_wrongPhase hf hphase
  case fmLow a =>
    rcases h with ⟨hphase, rfl⟩ | ⟨hphase, hrange, rfl⟩
    · exact exec_fmLow_wrongPhase hf a hphase
    · exact exec_fmLow_symbolRange hf hphase hrange
  case fmHigh a =>
    rcases h with ⟨hphase, rfl⟩ | ⟨hphase, hrange, rfl⟩
    · exact exec_fmHigh_wrongPhase hf a hphase
    · exact exec_fmHigh_symbolRange hf hphase hrange
  case encInit n =>
    rcases h with ⟨hwidth, rfl⟩ | ⟨hwidth, ⟨hphase, rfl⟩ | ⟨hphase, hfits, rfl⟩⟩
    · exact exec_encInit_config hf hwidth
    · exact exec_encInit_wrongPhase hf hwidth hphase
    · exact exec_encInit_totalRange hf hwidth hphase hfits
  case encWrite a =>
    rcases h with ⟨hphase, rfl⟩ | ⟨hphase, ⟨hrange, rfl⟩ | ⟨hrange, hcount, rfl⟩⟩
    · exact exec_encWrite_wrongPhase hf a hphase
    · exact exec_encWrite_symbolRange hf hphase hrange
    · exact exec_encWrite_zeroFreq hf hphase hrange (not_not.mp hcount)
  case encFinish =>
    rcases h with ⟨hphase, rfl⟩ | ⟨hphase, hfull, rfl⟩
    · exact exec_encFinish_wrongPhase hf hphase
    · exact exec_encFinish_pendingOvf hf hphase hfull
  case decInit n =>
    rcases h with ⟨hwidth, rfl⟩ | ⟨hwidth, ⟨hphase, rfl⟩ | ⟨hphase, hfits, rfl⟩⟩
    · exact exec_decInit_config hf hwidth
    · exact exec_decInit_wrongPhase hf hwidth hphase
    · exact exec_decInit_totalRange hf hwidth hphase hfits
  case decRead =>
    obtain ⟨hphase, rfl⟩ := h
    exact exec_decRead_wrongPhase hf hphase

/-! ## The one inversion of `exec` -/

/-- The next states of command `i` in `s`. -/
inductive Executed (s : State) (i : Instr) : State → Prop
  | accepted {v : Word32} {u : State} (h : Effect s i v u) : Executed s i (respond .ok v u)
  | refused {e : Byte} (hf : s.flt.fault = false) (hfail : firstFailure (commandChecks s i) = some e) :
      Executed s i (refusedWith s e (encode i))
  | overflowed {a symlow symhigh : Word32} (hi : i = .encWrite a) (h : WritesSlice s a symlow symhigh)
      (hloop : encLoop s symlow symhigh = .abort) :
      Executed s i (refusedWith s Code.pendingOvf.byte (encode i))
  | faulted (hf : s.flt.fault = true) (hreset : i ≠ .sysReset)
      (hreg : ∀ r, i = .sysRdreg r → readRegister s r = none) : Executed s i (respond .faulted 0#32 s)

theorem Executed.exec_eq {s t : State} {i : Instr} (h : Executed s i t) : exec i s = .next t := by
  cases h with
  | accepted h => exact h.exec_eq
  | refused hf hfail => exact exec_of_firstFailure hf hfail
  | overflowed hi h hloop =>
    subst hi
    rw [h.exec_eq, hloop, writeOutcome]
  | faulted hf hreset hreg => exact exec_faulted hf hreset hreg

theorem Effect.executed {s t u : State} {i : Instr} {v : Word32} (h : Effect s i v u) (hexec : exec i s = .next t) :
    Executed s i t := by
  obtain rfl := Host.Outcome.next.inj (hexec.symm.trans h.exec_eq)
  exact .accepted h

/-- FM.LOW and FM.HIGH stop at an entry that was never written (log 4). -/
theorem exec_fmLow_unwritten {s : State} {a : Word32} (hf : s.flt.fault = false) (hphase : s.fmu.phase = .sealed)
    (hrange : a.toNat < s.fmu.nsym.toNat) (hread : memRead s.fmu.cum a.toNat = none) :
    exec (.fmLow a) s = .fault (.tableEntryEmpty .cum) := by
  have hsym : ¬ symbolInRange s a = false := by rwa [symbolInRange_eq_false_iff, Nat.not_le]
  rw [exec, execFmLow, unlessFaulted_running hf, if_neg (not_not.mpr hphase), if_neg hsym, hread]

theorem exec_fmHigh_unwritten {s : State} {a : Word32} (hf : s.flt.fault = false) (hphase : s.fmu.phase = .sealed)
    (hrange : a.toNat < s.fmu.nsym.toNat) (hread : memRead s.fmu.cum (a.toNat + 1) = none) :
    exec (.fmHigh a) s = .fault (.tableEntryEmpty .cum) := by
  have hsym : ¬ symbolInRange s a = false := by rwa [symbolInRange_eq_false_iff, Nat.not_le]
  rw [exec, execFmHigh, unlessFaulted_running hf, if_neg (not_not.mpr hphase), if_neg hsym, hread]

/-- An ENC.WRITE that passes its checks and does not stop has read a slice. -/
theorem exists_writesSlice {s t : State} {a : Word32} (hf : s.flt.fault = false) (hphase : s.enc.phase = .active)
    (hrange : a.toNat < s.fmu.nsym.toNat) (hcount : memRead s.fmu.cnt a.toNat ≠ some 0#32)
    (hexec : exec (.encWrite a) s = .next t) : ∃ symlow symhigh, WritesSlice s a symlow symhigh := by
  have hsym : ¬ symbolInRange s a = false := by rwa [symbolInRange_eq_false_iff, Nat.not_le]
  rw [exec, execEncWrite, unlessFaulted_running hf, if_neg (not_not.mpr hphase), if_neg hsym] at hexec
  cases hcnt : memRead s.fmu.cnt a.toNat with
  | none => simp [hcnt] at hexec
  | some c =>
    have hc : c ≠ 0#32 := fun hzero => hcount (hzero ▸ hcnt)
    cases hlow : memRead s.fmu.cum a.toNat with
    | none => simp [hcnt, hlow, hc] at hexec
    | some symlow =>
      cases hhigh : memRead s.fmu.cum (a.toNat + 1) with
      | none => simp [hcnt, hlow, hhigh, hc] at hexec
      | some symhigh => exact ⟨symlow, symhigh, hf, hphase, hrange, ⟨c, hcnt, hc⟩, hlow, hhigh⟩

/-- A DEC.READ that passes its check and does not stop has found a symbol and read its slice. -/
theorem exists_readsSlice {s t : State} (hf : s.flt.fault = false) (hphase : s.dec.phase = .active)
    (hexec : exec .decRead s = .next t) : ∃ sym symlow symhigh, ReadsSlice s sym symlow symhigh := by
  rw [exec, execDecRead, unlessFaulted_running hf, if_neg (not_not.mpr hphase)] at hexec
  cases hfind : findSymbol s.fmu.cum s.fmu.nsym.toNat
      (scaledValue s.dec.low.toNat s.dec.high.toNat s.dec.code.toNat s.fmu.total.toNat) with
  | none => simp [hfind] at hexec
  | some sym =>
    cases hlow : memRead s.fmu.cum sym with
    | none => simp [hfind, hlow] at hexec
    | some symlow =>
      cases hhigh : memRead s.fmu.cum (sym + 1) with
      | none => simp [hfind, hlow, hhigh] at hexec
      | some symhigh => exact ⟨sym, symlow, symhigh, hf, hphase, hfind, hlow, hhigh⟩

/-- The commands that look up table entries, at which alone the model may stop (log 4, log 5). -/
def looksUp : Instr → Bool
  | .fmLow _ | .fmHigh _ | .encWrite _ | .decRead => true
  | .sysReset | .sysRdreg _ | .fmClear | .fmPush _ | .fmSeal | .fmNsym | .fmTotal | .encInit _ | .encFinish
  | .decInit _ => false

/-- Every other command has its effect if no check fails. -/
theorem exists_effect_of_passed {s : State} {i : Instr} (hi : looksUp i = false) (hf : s.flt.fault = false)
    (hnone : firstFailure (commandChecks s i) = none) : ∃ v u, Effect s i v u := by
  cases i <;> simp only [commandChecks, firstFailure_cons_eq_none_iff] at hnone
  case sysReset => exact ⟨_, _, .sysReset⟩
  case sysRdreg r =>
    obtain ⟨hnumber, -⟩ := hnone
    obtain ⟨v, hread⟩ := Option.ne_none_iff_exists'.mp
      fun hread => (readRegister_eq_none_iff s r).mp hread hnumber
    exact ⟨_, _, .sysRdreg hread⟩
  case fmClear => exact ⟨_, _, .fmClear hf⟩
  case fmPush c =>
    obtain ⟨hphase, hroom, hfits, -⟩ := hnone
    exact ⟨_, _, .fmPush hf hphase hroom (by omega)⟩
  case fmSeal =>
    obtain ⟨hphase, hpos, -⟩ := hnone
    exact ⟨_, _, .fmSeal hf hphase hpos⟩
  case fmNsym => exact ⟨_, _, .fmNsym hf hnone.1⟩
  case fmTotal => exact ⟨_, _, .fmTotal hf hnone.1⟩
  case encInit n =>
    obtain ⟨⟨hone, hn⟩, hphase, hfits, -⟩ := hnone
    exact ⟨_, _, .encInit ⟨hf, hone, hn, hphase, hfits⟩⟩
  case encFinish =>
    obtain ⟨hphase, hroom, -⟩ := hnone
    exact ⟨_, _, .encFinish hf hphase hroom rfl⟩
  case decInit n =>
    obtain ⟨⟨hone, hn⟩, hphase, hfits, -⟩ := hnone
    exact ⟨_, _, .decInit ⟨hf, hone, hn, hphase, hfits⟩ rfl⟩
  case fmLow | fmHigh | encWrite | decRead => cases hi

theorem WritesSlice.executed {s t : State} {a symlow symhigh : Word32} (h : WritesSlice s a symlow symhigh)
    (hexec : exec (.encWrite a) s = .next t) : Executed s (.encWrite a) t := by
  cases hloop : encLoop s symlow symhigh with
  | stop low high acc => exact (Effect.encWrite h hloop).executed hexec
  | abort =>
    rw [h.exec_eq, hloop, writeOutcome] at hexec
    cases hexec
    exact .overflowed rfl h hloop
  | stuck =>
    rw [h.exec_eq, hloop, writeOutcome] at hexec
    cases hexec

theorem ReadsSlice.executed {s t : State} {sym : Nat} {symlow symhigh : Word32} (h : ReadsSlice s sym symlow symhigh)
    (hexec : exec .decRead s = .next t) : Executed s .decRead t := by
  cases hloop : decLoop s symlow symhigh with
  | stop low high acc => exact (Effect.decRead h hloop).executed hexec
  | abort | stuck =>
    rw [h.exec_eq, hloop] at hexec
    cases hexec

/-- A command of which no check fails has its effect or overflows, or the model stops. -/
theorem executed_of_passed {s t : State} {i : Instr} (hf : s.flt.fault = false)
    (hnone : firstFailure (commandChecks s i) = none) (hexec : exec i s = .next t) : Executed s i t := by
  cases i with
  | fmLow a =>
    simp only [commandChecks, firstFailure_cons_eq_none_iff] at hnone
    obtain ⟨hphase, hrange, -⟩ := hnone
    cases hread : memRead s.fmu.cum a.toNat with
    | none => exact nomatch (exec_fmLow_unwritten hf hphase hrange hread).symm.trans hexec
    | some v => exact (Effect.fmLow hf hphase hrange hread).executed hexec
  | fmHigh a =>
    simp only [commandChecks, firstFailure_cons_eq_none_iff] at hnone
    obtain ⟨hphase, hrange, -⟩ := hnone
    cases hread : memRead s.fmu.cum (a.toNat + 1) with
    | none => exact nomatch (exec_fmHigh_unwritten hf hphase hrange hread).symm.trans hexec
    | some v => exact (Effect.fmHigh hf hphase hrange hread).executed hexec
  | encWrite a =>
    simp only [commandChecks, firstFailure_cons_eq_none_iff] at hnone
    obtain ⟨hphase, hrange, hcount, -⟩ := hnone
    obtain ⟨symlow, symhigh, h⟩ := exists_writesSlice hf hphase hrange hcount hexec
    exact h.executed hexec
  | decRead =>
    simp only [commandChecks, firstFailure_cons_eq_none_iff] at hnone
    obtain ⟨sym, symlow, symhigh, h⟩ := exists_readsSlice hf hnone.1 hexec
    exact h.executed hexec
  | sysReset | sysRdreg | fmClear | fmPush | fmSeal | fmNsym | fmTotal | encInit | encFinish | decInit =>
    obtain ⟨v, u, h⟩ := exists_effect_of_passed rfl hf hnone
    exact h.executed hexec

/-- The one inversion of `exec`: it gives the next state `t` exactly if `t` is one of those of `Executed`. -/
theorem exec_eq_next_iff {s t : State} {i : Instr} : exec i s = .next t ↔ Executed s i t := by
  refine ⟨fun hexec => ?inverted, Executed.exec_eq⟩
  cases hf : s.flt.fault with
  | false =>
    cases hfail : firstFailure (commandChecks s i) with
    | none => exact executed_of_passed hf hfail hexec
    | some e =>
      obtain rfl := Host.Outcome.next.inj (hexec.symm.trans (exec_of_firstFailure hf hfail))
      exact .refused hf hfail
  | true =>
    by_cases hreset : i = .sysReset
    · subst hreset
      exact Effect.sysReset.executed hexec
    · by_cases hreg : ∀ r, i = .sysRdreg r → readRegister s r = none
      · obtain rfl := Host.Outcome.next.inj (hexec.symm.trans (exec_faulted hf hreset hreg))
        exact .faulted hf hreset hreg
      · obtain ⟨r, hr⟩ := not_forall.mp hreg
        obtain ⟨rfl, hread⟩ := Classical.not_imp.mp hr
        obtain ⟨v, hread⟩ := Option.ne_none_iff_exists'.mp hread
        exact (Effect.sysRdreg hread).executed hexec

end Sys2Proof.Machine
end

section
/-! PROOFS. What every command leaves unchanged, and the response it gives (30_encoding.md R94; 20_memory.md R66 to
R68, R85; 10_state.md R26, R34, R40): each by the cases of `Executed`. -/

namespace Sys2Proof.Machine

/-! ## The response (30_encoding.md R94) -/

theorem Code.byte_toNat_le (c : Code) : c.byte.toNat ≤ 0x0C := by cases c <;> decide

theorem Effect.value_eq_zero {s u : State} {i : Instr} {v : Word32} (h : Effect s i v u)
    (hnone : returnsValue i = false) : v = 0#32 := by
  cases h with
  | sysReset | fmClear | fmPush | fmSeal | encInit | encWrite | encFinish | decInit => rfl
  | sysRdreg | fmNsym | fmTotal | fmLow | fmHigh | decRead => cases hnone

/-- What an effect, which is taken before the response, leaves as it was. -/
theorem Effect.frame {s u : State} {i : Instr} {v : Word32} (h : Effect s i v u) :
    u.params = s.params ∧ u.inbox = s.inbox ∧ u.rsps = s.rsps ∧ u.inp = s.inp := by
  cases h <;> exact ⟨rfl, rfl, rfl, rfl⟩

/-- A command that is not accepted gives an error with VALUE 0 and changes the fault registers at most. -/
theorem Executed.accepted_or_error {s t : State} {i : Instr} (h : Executed s i t) :
    (∃ v u, Effect s i v u ∧ t = respond .ok v u) ∨
    (∃ c : Code, c ≠ .ok ∧ t = { s with flt := t.flt, rsps := s.rsps ++ [responseWord c.byte 0#32] }) := by
  have recorded {e : Byte} (hf : s.flt.fault = false) (ht : t = refusedWith s e (encode i)) :
      ∃ c : Code, c ≠ .ok ∧ t = { s with flt := t.flt, rsps := s.rsps ++ [responseWord c.byte 0#32] } := by
    obtain ⟨c, ⟨hok, -⟩, ht'⟩ := failingCommandsChangeNothingElse i s t hf h.exec_eq (ht ▸ rfl)
    exact ⟨c, hok, ht' ▸ rfl⟩
  cases h with
  | accepted h => exact .inl ⟨_, _, h, rfl⟩
  | refused hf hfail => exact .inr (recorded hf rfl)
  | overflowed hi h hloop => exact .inr (recorded h.running rfl)
  | faulted => exact .inr ⟨.faulted, nofun, rfl⟩

/-- Settles O18: an accepted command answers OK with its value, every other one an error with VALUE 0. -/
theorem everyCommandAnswersOneResponseWord : Obligations.EveryCommandAnswersOneResponseWord := by
  intro i s t hexec
  rcases (exec_eq_next_iff.mp hexec).accepted_or_error with ⟨v, u, h, rfl⟩ | ⟨c, -, ht⟩
  · obtain ⟨-, -, hrsps, -⟩ := h.frame
    refine ⟨Code.ok.byte, v, ?_, Code.ok.byte_toNat_le, fun hne => absurd rfl hne, h.value_eq_zero⟩
    rw [respond_rsps, hrsps, responseWord]
  · refine ⟨c.byte, 0#32, ?_, c.byte_toNat_le, fun _ => rfl, fun _ => rfl⟩
    rw [ht, responseWord]

/-! ## The table and the phases (20_memory.md R85; 10_state.md R26, R34, R40) -/

theorem Effect.fmu_eq_of_sealed {s u : State} {i : Instr} {v : Word32} (h : Effect s i v u)
    (hsealed : s.fmu.phase = .sealed) (hclear : i ≠ .fmClear) (hreset : i ≠ .sysReset) : u.fmu = s.fmu := by
  cases h with
  | sysReset => exact absurd rfl hreset
  | fmClear => exact absurd rfl hclear
  | fmPush _ hphase => exact nomatch hsealed.symm.trans hphase
  | fmSeal _ hphase => exact nomatch hsealed.symm.trans hphase
  | _ => rfl

/-- Settles O23: the effects that write the table need phase BUILDING or are those of FM.CLEAR and SYS.RESET. -/
theorem sealedTableIsImmutable : Obligations.SealedTableIsImmutable := by
  intro i s t hsealed hclear hreset hexec
  rcases (exec_eq_next_iff.mp hexec).accepted_or_error with ⟨v, u, h, rfl⟩ | ⟨c, -, ht⟩
  · exact h.fmu_eq_of_sealed hsealed hclear hreset
  · rw [ht]

theorem Effect.fmPhase {s u : State} {i : Instr} {v : Word32} (h : Effect s i v u) :
    u.fmu.phase = s.fmu.phase ∨ (i = .sysReset ∧ u.fmu.phase = .empty) ∨
      (i = .fmClear ∧ u.fmu.phase = .building) ∨
      (i = .fmSeal ∧ s.fmu.phase = .building ∧ 0 < s.fmu.total.toNat ∧ u.fmu.phase = .sealed) := by
  cases h with
  | sysReset => exact .inr (.inl ⟨rfl, rfl⟩)
  | fmClear => exact .inr (.inr (.inl ⟨rfl, rfl⟩))
  | fmSeal _ hphase hpos => exact .inr (.inr (.inr ⟨rfl, hphase, hpos, rfl⟩))
  | _ => exact .inl rfl

theorem Effect.encPhase {s u : State} {i : Instr} {v : Word32} (h : Effect s i v u) :
    u.enc.phase = s.enc.phase ∨ ((i = .sysReset ∨ i = .fmClear) ∧ u.enc.phase = .idle) ∨
      ((∃ n, i = .encInit n) ∧ s.fmu.phase = .sealed ∧ u.enc.phase = .active) ∨
      (i = .encFinish ∧ s.enc.phase = .active ∧ u.enc.phase = .done) := by
  cases h with
  | sysReset => exact .inr (.inl ⟨.inl rfl, rfl⟩)
  | fmClear => exact .inr (.inl ⟨.inr rfl, rfl⟩)
  | encInit h => exact .inr (.inr (.inl ⟨⟨_, rfl⟩, h.phase, rfl⟩))
  | encFinish _ hphase => exact .inr (.inr (.inr ⟨rfl, hphase, rfl⟩))
  | _ => exact .inl rfl

theorem Effect.decPhase {s u : State} {i : Instr} {v : Word32} (h : Effect s i v u) :
    u.dec.phase = s.dec.phase ∨ ((i = .sysReset ∨ i = .fmClear) ∧ u.dec.phase = .idle) ∨
      ((∃ n, i = .decInit n) ∧ s.fmu.phase = .sealed ∧ u.dec.phase = .active) := by
  cases h with
  | sysReset => exact .inr (.inl ⟨.inl rfl, rfl⟩)
  | fmClear => exact .inr (.inl ⟨.inr rfl, rfl⟩)
  | decInit h => exact .inr (.inr ⟨⟨_, rfl⟩, h.phase, rfl⟩)
  | _ => exact .inl rfl

/-- Settles O24: the transitions of each phase by the effects; a refusal makes none. -/
theorem phasesMoveOnlyAsTheSpecSays : Obligations.PhasesMoveOnlyAsTheSpecSays := by
  intro i s t hexec
  rcases (exec_eq_next_iff.mp hexec).accepted_or_error with ⟨v, u, h, rfl⟩ | ⟨c, -, ht⟩
  · exact ⟨h.fmPhase, h.encPhase, h.decPhase⟩
  · rw [ht]
    exact ⟨.inl rfl, .inl rfl, .inl rfl⟩

/-! ## The streams (20_memory.md R66, R68) -/

/-- What the bit actions keep, a loop that stops has kept. -/
theorem renormLoop_stop_keeps {σ : Type} {P : σ → Prop} {N fuel low high l h : Nat}
    {act : RenormClass → σ → Option σ} {acc acc' : σ} (hact : ∀ c a a', P a → act c a = some a' → P a')
    (hacc : P acc) (hloop : renormLoop N act fuel low high acc = .stop l h acc') : P acc' := by
  induction fuel generalizing low high acc with
  | zero =>
    by_cases hstop : renormClass N low high = .S
    · rw [renormLoop_stop N act 0 low high acc hstop] at hloop
      cases hloop
      exact hacc
    · rw [renormLoop] at hloop
      simp [hstop] at hloop
  | succ fuel ih =>
    by_cases hstop : renormClass N low high = .S
    · rw [renormLoop_stop N act _ low high acc hstop] at hloop
      cases hloop
      exact hacc
    · cases hnext : act (renormClass N low high) acc with
      | none =>
        rw [renormLoop_abort N act fuel low high acc hstop hnext] at hloop
        cases hloop
      | some next =>
        rw [renormLoop_step N act fuel low high acc hstop hnext] at hloop
        exact ih (hact _ _ _ hacc hnext) hloop

theorem primeCode_pos (inp : List Bit) (n code pos : Nat) : (primeCode inp n code pos).2 = pos + n := by
  induction n generalizing code pos with
  | zero => rfl
  | succ n ih =>
    rw [primeCode, ih]
    omega

theorem decLoop_pos_le {s : State} {symlow symhigh : Word32} {low high code pos : Nat}
    (hloop : decLoop s symlow symhigh = .stop low high (code, pos)) : s.inPos ≤ pos := by
  refine renormLoop_stop_keeps (P := fun acc => s.inPos ≤ acc.2) (fun c a a' hle hact => ?_) (Nat.le_refl _) hloop
  obtain rfl := Option.some.inj hact
  exact Nat.le_succ_of_le hle

theorem Effect.out_eq {s u : State} {i : Instr} {v : Word32} (h : Effect s i v u) :
    ∃ bits, u.out = s.out ++ bits ∧ (bits ≠ [] → i = .encFinish ∨ ∃ a, i = .encWrite a) := by
  cases h with
  | encWrite => exact ⟨_, rfl, fun _ => .inr ⟨_, rfl⟩⟩
  | encFinish => exact ⟨_, rfl, fun _ => .inl rfl⟩
  | _ => exact ⟨[], (List.append_nil _).symm, absurd rfl⟩

theorem Effect.inPos_le {s u : State} {i : Instr} {v : Word32} (h : Effect s i v u) :
    s.inPos ≤ u.inPos ∧ (s.inPos ≠ u.inPos → i = .decRead ∨ ∃ n, i = .decInit n) := by
  cases h with
  | @decInit n _ _ _ hprime =>
    have hpos := primeCode_pos s.inp n.toNat 0 s.inPos
    rw [hprime] at hpos
    exact ⟨Nat.le.intro hpos.symm, fun _ => .inr ⟨_, rfl⟩⟩
  | decRead _ hloop => exact ⟨decLoop_pos_le hloop, fun _ => .inl rfl⟩
  | _ => exact ⟨Nat.le_refl _, absurd rfl⟩

/-- Settles O25: of the effects only those of ENC.WRITE and ENC.FINISH append to OUT, and only those of DEC.INIT and
DEC.READ move IN_POS, by the bits they take. -/
theorem streamsMoveOnlyAsTheSpecSays : Obligations.StreamsMoveOnlyAsTheSpecSays := by
  intro i s t hexec
  rcases (exec_eq_next_iff.mp hexec).accepted_or_error with ⟨v, u, h, rfl⟩ | ⟨c, -, ht⟩
  · obtain ⟨hparams, hinbox, -, hinp⟩ := h.frame
    exact ⟨hinp, hparams, hinbox, h.out_eq, h.inPos_le⟩
  · rw [ht]
    exact ⟨rfl, rfl, rfl, ⟨[], (List.append_nil _).symm, absurd rfl⟩, Nat.le_refl _, absurd rfl⟩

end Sys2Proof.Machine
end

section
/-! PROOFS. Two states a command cannot tell apart (20_memory.md R63, R69, R86; 93_implementation_defined.md U5): the
one command has in the second state the effect, or the refusal, it has in the first. -/

namespace Sys2Proof.Machine

/-! ## From one state to another -/

/-- A relation of two states that the same response or refusal given by both does not end. -/
structure KeptByResponses (R : State → State → Prop) : Prop where
  respond : ∀ {s s' : State} (c : Code) (v : Word32), R s s' → R (respond c v s) (respond c v s')
  refused : ∀ {s s' : State} (e : Byte) (w : Word64), R s s' → R (refusedWith s e w) (refusedWith s' e w)

/-- Command `i` cannot tell `s'` from `s`: the same checks fail first, and its effect or its overflow in `s` is one in
`s'` that again leaves related states. -/
structure Transfers (R : State → State → Prop) (i : Instr) (s s' : State) : Prop where
  related : R s s'
  flt : s'.flt = s.flt
  checks : firstFailure (commandChecks s' i) = firstFailure (commandChecks s i)
  effect : ∀ {v u}, Effect s i v u → ∃ u', Effect s' i v u' ∧ R u u'
  overflow : ∀ {a symlow symhigh}, i = .encWrite a → WritesSlice s a symlow symhigh →
    encLoop s symlow symhigh = .abort → WritesSlice s' a symlow symhigh ∧ encLoop s' symlow symhigh = .abort

theorem Transfers.executed {R : State → State → Prop} (hR : KeptByResponses R) {i : Instr} {s s' t : State}
    (h : Transfers R i s s') (hexec : Executed s i t) : ∃ t', Executed s' i t' ∧ R t t' := by
  cases hexec with
  | accepted heffect =>
    obtain ⟨u', heffect', hu⟩ := h.effect heffect
    exact ⟨_, .accepted heffect', hR.respond _ _ hu⟩
  | refused hf hfail => exact ⟨_, .refused (h.flt ▸ hf) (h.checks ▸ hfail), hR.refused _ _ h.related⟩
  | overflowed hi hslice hloop =>
    obtain ⟨hslice', hloop'⟩ := h.overflow hi hslice hloop
    exact ⟨_, .overflowed hi hslice' hloop', hR.refused _ _ h.related⟩
  | faulted hf hreset hreg =>
    have hreg' : ∀ r, i = .sysRdreg r → readRegister s' r = none := fun r hr =>
      (readRegister_eq_none_iff s' r).mpr ((readRegister_eq_none_iff s r).mp (hreg r hr))
    exact ⟨_, .faulted (h.flt ▸ hf) hreset hreg', hR.respond _ _ h.related⟩

/-! ## The coders are independent (20_memory.md R86) -/

/-- The state with another decoder and another source. -/
def withDecoder (d : Dec) (bits : List Bit) (pos : Nat) (s : State) : State :=
  { s with dec := d, inp := bits, inPos := pos }

/-- The state with another encoder and another sink. -/
def withEncoder (e : Enc) (bits : List Bit) (s : State) : State := { s with enc := e, out := bits }

theorem keptByResponses_graph {f : State → State} (hrespond : ∀ c v s, f (respond c v s) = respond c v (f s))
    (hrefused : ∀ e w s, f (refusedWith s e w) = refusedWith (f s) e w) : KeptByResponses fun s s' => s' = f s where
  respond c v h := h ▸ (hrespond c v _).symm
  refused e w h := h ▸ (hrefused e w _).symm

theorem WritesSlice.withDecoder {s : State} {a symlow symhigh : Word32} (d : Dec) (bits : List Bit) (pos : Nat)
    (h : WritesSlice s a symlow symhigh) : WritesSlice (withDecoder d bits pos s) a symlow symhigh :=
  ⟨h.running, h.phase, h.range, h.count, h.low, h.high⟩

theorem Startable.withDecoder {s : State} {n : Word32} (d : Dec) (bits : List Bit) (pos : Nat) (h : Startable s n) :
    Startable (withDecoder d bits pos s) n :=
  ⟨h.running, h.one_le, h.le_nmax, h.phase, h.fits⟩

theorem Startable.withEncoder {s : State} {n : Word32} (e : Enc) (bits : List Bit) (h : Startable s n) :
    Startable (withEncoder e bits s) n :=
  ⟨h.running, h.one_le, h.le_nmax, h.phase, h.fits⟩

/-- The commands of the encoder. -/
def EncCommand (i : Instr) : Prop := (∃ n, i = .encInit n) ∨ (∃ a, i = .encWrite a) ∨ i = .encFinish

/-- The commands of the decoder. -/
def DecCommand (i : Instr) : Prop := (∃ n, i = .decInit n) ∨ i = .decRead

theorem Effect.withDecoder {s u : State} {i : Instr} {v : Word32} (henc : EncCommand i) (d : Dec) (bits : List Bit)
    (pos : Nat) (h : Effect s i v u) : Effect (withDecoder d bits pos s) i v (withDecoder d bits pos u) := by
  cases h with
  | encInit h => exact .encInit (h.withDecoder d bits pos)
  | encWrite h hloop => exact .encWrite (h.withDecoder d bits pos) hloop
  | encFinish hf hphase hroom hb => exact .encFinish hf hphase hroom hb
  | _ => simp [EncCommand] at henc

theorem Effect.withEncoder {s u : State} {i : Instr} {v : Word32} (hdec : DecCommand i) (e : Enc) (bits : List Bit)
    (h : Effect s i v u) : Effect (withEncoder e bits s) i v (withEncoder e bits u) := by
  cases h with
  | decInit h hprime => exact .decInit (h.withEncoder e bits) hprime
  | decRead h hloop => exact .decRead ⟨h.running, h.phase, h.find, h.low, h.high⟩ hloop
  | _ => simp [DecCommand] at hdec

theorem transfers_withDecoder {i : Instr} (henc : EncCommand i) (d : Dec) (bits : List Bit) (pos : Nat) (s : State) :
    Transfers (fun s s' => s' = withDecoder d bits pos s) i s (withDecoder d bits pos s) where
  related := rfl
  flt := rfl
  checks := by rcases henc with ⟨n, rfl⟩ | ⟨a, rfl⟩ | rfl <;> rfl
  effect h := ⟨_, h.withDecoder henc d bits pos, rfl⟩
  overflow _ h hloop := ⟨h.withDecoder d bits pos, hloop⟩

theorem transfers_withEncoder {i : Instr} (hdec : DecCommand i) (e : Enc) (bits : List Bit) (s : State) :
    Transfers (fun s s' => s' = withEncoder e bits s) i s (withEncoder e bits s) where
  related := rfl
  flt := rfl
  checks := by rcases hdec with ⟨n, rfl⟩ | rfl <;> rfl
  effect h := ⟨_, h.withEncoder hdec e bits, rfl⟩
  overflow hi := by rcases hdec with ⟨n, rfl⟩ | rfl <;> cases hi

/-- Settles O26: the checks, the effects and the overflow of an ENC command read and write nothing of the decoder or
the source, those of a DEC command nothing of the encoder or the sink. -/
theorem codersAreIndependent : Obligations.CodersAreIndependent := by
  intro i s t hexec
  rw [exec_eq_next_iff] at hexec
  refine ⟨fun henc d bits pos => ?encoder, fun hdec e bits => ?decoder⟩
  case encoder =>
    obtain ⟨t', hexec', rfl⟩ := (transfers_withDecoder henc d bits pos s).executed
      (keptByResponses_graph (fun _ _ _ => rfl) fun _ _ _ => rfl) hexec
    exact hexec'.exec_eq
  case decoder =>
    obtain ⟨t', hexec', rfl⟩ := (transfers_withEncoder hdec e bits s).executed
      (keptByResponses_graph (fun _ _ _ => rfl) fun _ _ _ => rfl) hexec
    exact hexec'.exec_eq

/-! ## Padding (20_memory.md R69) -/

/-- The state with `k` zeros more at the end of the source. -/
def padSource (k : Nat) (s : State) : State := { s with inp := s.inp ++ List.replicate k false }

theorem srcBit_append_zeros (inp : List Bit) (k pos : Nat) :
    srcBit (inp ++ List.replicate k false) pos = srcBit inp pos := by
  rw [srcBit, srcBit, List.getD_eq_getElem?_getD, List.getD_eq_getElem?_getD]
  rcases Nat.lt_or_ge pos inp.length with hlt | hge
  · rw [List.getElem?_append_left hlt]
  · rw [List.getElem?_append_right hge, List.getElem?_eq_none hge, List.getElem?_replicate]
    split <;> rfl

theorem primeCode_append_zeros (inp : List Bit) (k n code pos : Nat) :
    primeCode (inp ++ List.replicate k false) n code pos = primeCode inp n code pos := by
  induction n generalizing code pos with
  | zero => rfl
  | succ n ih => rw [primeCode, primeCode, srcBit_append_zeros, ih]

theorem decodeBit_append_zeros (N : Nat) (inp : List Bit) (k : Nat) :
    decodeBit N (inp ++ List.replicate k false) = decodeBit N inp := by
  funext c ⟨code, pos⟩
  rw [decodeBit, decodeBit, srcBit_append_zeros]

theorem decLoop_padSource (k : Nat) (s : State) (symlow symhigh : Word32) :
    decLoop (padSource k s) symlow symhigh = decLoop s symlow symhigh := by
  simp only [decLoop, padSource, decodeBit_append_zeros]

theorem WritesSlice.padSource {s : State} {a symlow symhigh : Word32} (k : Nat)
    (h : WritesSlice s a symlow symhigh) : WritesSlice (padSource k s) a symlow symhigh :=
  h.withDecoder s.dec _ s.inPos

theorem Startable.padSource {s : State} {n : Word32} (k : Nat) (h : Startable s n) : Startable (padSource k s) n :=
  h.withDecoder s.dec _ s.inPos

theorem Effect.padSource {s u : State} {i : Instr} {v : Word32} (k : Nat) (h : Effect s i v u) :
    Effect (padSource k s) i v (padSource k u) := by
  cases h with
  | sysReset => exact .sysReset
  | sysRdreg hread => exact .sysRdreg hread
  | fmClear hf => exact .fmClear hf
  | fmPush hf hphase hroom hfits => exact .fmPush hf hphase hroom hfits
  | fmSeal hf hphase hpos => exact .fmSeal hf hphase hpos
  | fmNsym hf hphase => exact .fmNsym hf hphase
  | fmTotal hf hphase => exact .fmTotal hf hphase
  | fmLow hf hphase hrange hread => exact .fmLow hf hphase hrange hread
  | fmHigh hf hphase hrange hread => exact .fmHigh hf hphase hrange hread
  | encInit h => exact .encInit (h.padSource k)
  | encWrite h hloop => exact .encWrite (h.padSource k) hloop
  | encFinish hf hphase hroom hb => exact .encFinish hf hphase hroom hb
  | decInit h hprime => exact .decInit (h.padSource k) ((primeCode_append_zeros _ _ _ _ _).trans hprime)
  | decRead h hloop =>
    exact .decRead ⟨h.running, h.phase, h.find, h.low, h.high⟩ ((decLoop_padSource k s _ _).trans hloop)

theorem transfers_padSource (i : Instr) (k : Nat) (s : State) :
    Transfers (fun s s' => s' = padSource k s) i s (padSource k s) where
  related := rfl
  flt := rfl
  checks := by cases i <;> rfl
  effect h := ⟨_, h.padSource k, rfl⟩
  overflow _ h hloop := ⟨h.padSource k, hloop⟩

/-- Settles O27: only DEC.INIT and DEC.READ look at the source, bit by bit, and past its end each bit reads 0. -/
theorem paddingIsIndistinguishableFromZeros : Obligations.PaddingIsIndistinguishableFromZeros := by
  intro i s t k hexec
  obtain ⟨hinp, -⟩ := streamsMoveOnlyAsTheSpecSays i s t hexec
  obtain ⟨t', hexec', rfl⟩ := (transfers_padSource i k s).executed
    (keptByResponses_graph (fun _ _ _ => rfl) fun _ _ _ => rfl) (exec_eq_next_iff.mp hexec)
  have hpadded := hexec'.exec_eq
  simp only [padSource, hinp] at hpadded
  exact hpadded

end Sys2Proof.Machine
end

section
/-! PROOFS. The start of a session (42_enc.md R151; 43_dec.md R166): the full interval, and for the decoder the number
its first source bits spell. -/

namespace Sys2Proof.Machine

theorem encInit_word (n : Word32) : (0x20000000#32 ++ n : BitVec (32 + 32)) = encode (.encInit n) :=
  append_arg_eq_encode (i := .encInit n) (by rw [Instr.opcode]; decide)

theorem decInit_word (n : Word32) : (0x30000000#32 ++ n : BitVec (32 + 32)) = encode (.decInit n) :=
  append_arg_eq_encode (i := .decInit n) (by rw [Instr.opcode]; decide)

/-- Settles O43: the refusals in the order of R151, and the encoder at its start. -/
theorem encInitStartsAFullInterval : Obligations.EncInitStartsAFullInterval := by
  refine ⟨fun n => encInit_word n ▸ decode_encode (.encInit n), fun n s hlegal hf => ?_⟩
  rw [encInit_word]
  refine ⟨fun hwidth => exec_encInit_config hf (by omega),
    fun hone hn => exec_encInit_wrongPhase hf ⟨hone, hn⟩,
    fun hone hn => exec_encInit_totalRange hf ⟨hone, hn⟩, fun hone hn hphase hfits => ?started⟩
  exact ⟨_, exec_encInit_ok hf hone hn hphase hfits, Enc.started_nbits_toNat hlegal hn, rfl,
    Enc.started_high_toNat hlegal hn, rfl, rfl, rfl⟩

/-! ## The number that source bits spell (20_memory.md R72) -/

/-- The first bit is the most significant one. -/
theorem bitsValue_succ (inp : List Bit) (n pos : Nat) :
    bitsValue inp (n + 1) pos = (srcBit inp pos).toNat * 2 ^ n + bitsValue inp n (pos + 1) := by
  have hrest : ∀ i ∈ List.range n, (inp[pos + (i + 1)]?.getD false).toNat * 2 ^ (n + 1 - 1 - (i + 1)) =
      (inp[pos + 1 + i]?.getD false).toNat * 2 ^ (n - 1 - i) := fun i _ => by
    rw [show pos + (i + 1) = pos + 1 + i by omega, show n + 1 - 1 - (i + 1) = n - 1 - i by omega]
  rw [bitsValue, List.range_succ_eq_map, List.map_cons, List.map_map, List.sum_cons]
  exact congrArg₂ (· + ·) rfl (congrArg List.sum (List.map_congr_left hrest))

/-- The last bit is the least significant one. -/
theorem bitsValue_succ_last (inp : List Bit) (n pos : Nat) :
    bitsValue inp (n + 1) pos = 2 * bitsValue inp n pos + (srcBit inp (pos + n)).toNat := by
  induction n generalizing pos with
  | zero =>
    rw [bitsValue_succ]
    simp [bitsValue]
  | succ n ih =>
    rw [bitsValue_succ, ih, bitsValue_succ inp n, show pos + 1 + n = pos + (n + 1) by omega, Nat.pow_succ]
    ring

theorem bitsValue_lt (inp : List Bit) (n pos : Nat) : bitsValue inp n pos < 2 ^ n := by
  induction n with
  | zero => exact Nat.one_pos
  | succ n ih =>
    have hbit := (srcBit inp (pos + n)).toNat_le
    rw [bitsValue_succ_last, Nat.pow_succ]
    omega

theorem primeCode_eq (inp : List Bit) (n code pos : Nat) :
    primeCode inp n code pos = (code * 2 ^ n + bitsValue inp n pos, pos + n) := by
  induction n generalizing code pos with
  | zero => simp [primeCode, bitsValue]
  | succ n ih =>
    have hshift : code <<< 1 ||| (srcBit inp pos).toNat = 2 * code + (srcBit inp pos).toNat := by
      rw [Nat.shiftLeft_eq, Nat.pow_one, Nat.mul_comm, double_or_bit]
    rw [primeCode, hshift, ih, bitsValue_succ, Nat.pow_succ]
    congr 1
    · ring
    · omega

section started

variable {p : Params} {n : Word32} (hlegal : p.legal = true) (hn : n.toNat ≤ p.nmax)

include hlegal hn

theorem Dec.started_nbits_toNat (code : Nat) : (Dec.started p n code).nbits.toNat = n.toNat :=
  Enc.started_nbits_toNat hlegal hn

theorem Dec.started_high_toNat (code : Nat) : (Dec.started p n code).high.toNat = stateMask n.toNat :=
  Enc.started_high_toNat hlegal hn

theorem Dec.started_code_toNat {code : Nat} (hcode : code < 2 ^ n.toNat) :
    (Dec.started p n code).code.toNat = code := by
  obtain ⟨-, hnmax, -, -, -, -⟩ := (Params.legal_iff p).mp hlegal
  exact regOf_toNat hnmax (hcode.trans_le (Nat.pow_le_pow_right (by decide) hn))

theorem DecInv.started {f : Fmu} {code : Nat} (hcode : code < 2 ^ n.toNat) (hone : 1 ≤ n.toNat)
    (hphase : f.phase = .sealed) (hfits : f.total.toNat ≤ minimumRange n.toNat) :
    DecInv p f (Dec.started p n code) := by
  have hnbits := Dec.started_nbits_toNat hlegal hn code
  constructor
  case nbitsLegal => rwa [hnbits]
  case lowWidth => exact Nat.two_pow_pos _
  case highWidth => exact regOf_lt _ _
  case codeWidth => exact regOf_lt _ _
  case session =>
    intro _
    rw [hnbits, Dec.started_high_toNat hlegal hn, Dec.started_code_toNat hlegal hn hcode]
    exact ⟨hphase, hone, IntervalInv.full hone hfits, Nat.zero_le _, Nat.le_sub_one_of_lt hcode⟩

end started

/-- DEC.INIT primes the code with the next `n` source bits. -/
theorem exec_decInit_ok {s : State} {n : Word32} (h : Startable s n) :
    exec (.decInit n) s = .next { s with
      dec := Dec.started s.params n (bitsValue s.inp n.toNat s.inPos)
      inPos := s.inPos + n.toNat
      rsps := s.rsps ++ [0#64] } := by
  rw [exec_decInit_started h, primeCode_eq, Nat.zero_mul, Nat.zero_add]
  exact answer_zero _

/-- Settles O48: the refusals in the order of R166, and the decoder at its start. -/
theorem decInitPrimesTheCode : Obligations.DecInitPrimesTheCode := by
  refine ⟨fun n => decInit_word n ▸ decode_encode (.decInit n), fun n s hlegal hf => ?_⟩
  rw [decInit_word]
  refine ⟨fun hwidth => exec_decInit_config hf (by omega),
    fun hone hn => exec_decInit_wrongPhase hf ⟨hone, hn⟩,
    fun hone hn => exec_decInit_totalRange hf ⟨hone, hn⟩, fun hone hn hphase hfits => ?started⟩
  exact ⟨_, exec_decInit_ok ⟨hf, hone, hn, hphase, hfits⟩, Dec.started_nbits_toNat hlegal hn _, rfl,
    Dec.started_high_toNat hlegal hn _, Dec.started_code_toNat hlegal hn (bitsValue_lt _ _ _), rfl, rfl⟩

end Sys2Proof.Machine
end

section
/-! PROOFS. The coders in a session under the invariant (45_properties.md R191 to R193): the slice that is read is
within the preconditions of Narrow, so the loop ends, and it leaves registers that meet the invariant. -/

namespace Sys2Proof.Machine

theorem LoopEnd.ofActions_eq_stop_iff {σ : Type} {low high l h : Nat} {o : Option σ} {acc : σ} :
    LoopEnd.ofActions low high o = .stop l h acc ↔ low = l ∧ high = h ∧ o = some acc := by
  cases o <;> simp [LoopEnd.ofActions]

/-- The loop of a run stops only at the bounds of the run, with what its actions gather. -/
theorem RenormRun.of_stop {σ : Type} {N fuel low high l h l' h' : Nat} {cs : List RenormClass}
    (hrun : RenormRun N fuel low high cs l h) {act : RenormClass → σ → Option σ} {acc acc' : σ}
    (hloop : renormLoop N act fuel low high acc = .stop l' h' acc') :
    l = l' ∧ h = h' ∧ cs.foldlM (fun a c => act c a) acc = some acc' := by
  rwa [hrun.loop, LoopEnd.ofActions_eq_stop_iff] at hloop

/-- Registers of NMAX bits hold the bounds of a run at a width up to NMAX. -/
theorem RenormRun.regOf_bounds {p : Params} {N fuel low high l h : Nat} {cs : List RenormClass}
    (hlegal : p.legal = true) (hN : N ≤ p.nmax) (hrun : RenormRun N fuel low high cs l h) :
    (regOf p.nmax l).toNat = l ∧ (regOf p.nmax h).toNat = h := by
  obtain ⟨-, hnmax, -, -, -, -⟩ := (Params.legal_iff p).mp hlegal
  have hhigh : h < 2 ^ p.nmax := hrun.high_lt.trans_le (Nat.pow_le_pow_right (by decide) hN)
  exact ⟨regOf_toNat hnmax (hrun.low_le_high.trans_lt hhigh), regOf_toNat hnmax hhigh⟩

/-! ## ENC.WRITE -/

/-- The interval ENC.WRITE narrows to (42_enc.md R152). -/
def encStart (s : State) (symlow symhigh : Word32) : Nat × Nat :=
  narrow s.enc.low.toNat s.enc.high.toNat symlow.toNat symhigh.toNat s.fmu.total.toNat

section write

variable {s : State} {a symlow symhigh : Word32} (hinv : s.Inv) (h : WritesSlice s a symlow symhigh)

include hinv h

/-- A slice of positive count is not empty and lies below the total. -/
theorem WritesSlice.slice : symlow.toNat < symhigh.toNat ∧ symhigh.toNat ≤ s.fmu.total.toNat := by
  obtain ⟨c, hcnt, hc⟩ := h.count
  obtain ⟨low, -, high, hlow, -, -, hhigh, hslice, hsym⟩ :=
    hinv.fmu.slice h.range fun hzero => hc (Option.some.inj (hcnt.symm.trans hzero))
  obtain rfl := Option.some.inj (h.low.symm.trans hlow)
  obtain rfl := Option.some.inj (h.high.symm.trans hhigh)
  exact ⟨hslice, hsym⟩

theorem WritesSlice.session : 1 ≤ s.enc.nbits.toNat ∧
    IntervalInv s.enc.nbits.toNat s.enc.low.toNat s.enc.high.toNat s.fmu.total.toNat :=
  (hinv.enc.session (h.phase ▸ nofun)).2

theorem WritesSlice.exists_run : ∃ cs low high, RenormRun s.enc.nbits.toNat s.enc.nbits.toNat
    (encStart s symlow symhigh).1 (encStart s symlow symhigh).2 cs low high := by
  obtain ⟨hslice, hsym⟩ := h.slice hinv
  obtain ⟨hone, hinterval⟩ := h.session hinv
  exact hinterval.exists_renormRun_narrow hone hslice hsym

/-- What ENC.WRITE commits is the emission of the classes of its run. -/
theorem WritesSlice.run_of_stop {low high pend : Nat} {bits : List Bit}
    (hloop : encLoop s symlow symhigh = .stop low high (bits, pend)) :
    ∃ cs, RenormRun s.enc.nbits.toNat s.enc.nbits.toNat (encStart s symlow symhigh).1
        (encStart s symlow symhigh).2 cs low high ∧
      emission s.params.pmax cs s.enc.pend.toNat = some (bits, pend) := by
  obtain ⟨cs, l, u, hrun⟩ := h.exists_run hinv
  obtain ⟨rfl, rfl, hbits⟩ := hrun.of_stop hloop
  refine ⟨cs, hrun, ?_⟩
  simpa [foldlM_encodeBit] using hbits

/-- The loop of ENC.WRITE ends: at class S, or with the counter full. -/
theorem WritesSlice.exists_next : ∃ t, exec (.encWrite a) s = .next t := by
  obtain ⟨cs, low, high, hrun⟩ := h.exists_run hinv
  have hloop : encLoop s symlow symhigh = _ := hrun.loop _ _
  rw [h.exec_eq, hloop]
  cases cs.foldlM (fun a c => encodeBit s.params.pmax c a) ([], s.enc.pend.toNat) with
  | none => exact ⟨_, rfl⟩
  | some acc => exact ⟨_, rfl⟩

end write

/-! ## DEC.READ -/

/-- The interval DEC.READ narrows to (43_dec.md R167). -/
def decStart (s : State) (symlow symhigh : Word32) : Nat × Nat :=
  narrow s.dec.low.toNat s.dec.high.toNat symlow.toNat symhigh.toNat s.fmu.total.toNat

section read

variable {s : State} (hinv : s.Inv)

include hinv

theorem decValue_lt_total (hphase : s.dec.phase = .active) : decValue s < s.fmu.total.toNat := by
  obtain ⟨hsealed, -, -, hle, hge⟩ := hinv.dec.session (hphase ▸ nofun)
  exact scaledValue_lt_total hle hge (hinv.fmu.sealedTotal hsealed)

/-- In a session DEC.READ finds a symbol and its slice. -/
theorem exists_readsSlice_of_inv (hf : s.flt.fault = false) (hphase : s.dec.phase = .active) :
    ∃ sym symlow symhigh, ReadsSlice s sym symlow symhigh := by
  obtain ⟨sym, symlow, symhigh, hfind, -, hlow, hhigh, -⟩ :=
    hinv.fmu.findSymbol_slice (decValue_lt_total hinv hphase)
  exact ⟨sym, symlow, symhigh, hf, hphase, hfind, hlow, hhigh⟩

variable {sym : Nat} {symlow symhigh : Word32} (h : ReadsSlice s sym symlow symhigh)

include h

/-- The slice found holds the value searched for. -/
theorem ReadsSlice.slice : sym < s.fmu.nsym.toNat ∧ symlow.toNat ≤ decValue s ∧ decValue s < symhigh.toNat ∧
    symhigh.toNat ≤ s.fmu.total.toNat := by
  obtain ⟨sym', low, high, hfind, hsym, hlow, hhigh, hvalue, hvalue'⟩ :=
    hinv.fmu.findSymbol_slice (decValue_lt_total hinv h.phase)
  obtain rfl := Option.some.inj (h.find.symm.trans hfind)
  obtain rfl := Option.some.inj (h.low.symm.trans hlow)
  obtain rfl := Option.some.inj (h.high.symm.trans hhigh)
  exact ⟨hsym, hvalue, hvalue', hinv.fmu.cum_le_total hsym hhigh⟩

/-- The run of DEC.READ and the window it leaves, which is inside the new interval (45_properties.md R193). -/
theorem ReadsSlice.exists_run : ∃ cs low high, RenormRun s.dec.nbits.toNat s.dec.nbits.toNat
      (decStart s symlow symhigh).1 (decStart s symlow symhigh).2 cs low high ∧
    decLoop s symlow symhigh = .stop low high
      (windowAfter s.dec.nbits.toNat s.inp cs s.dec.code.toNat s.inPos, s.inPos + cs.length) ∧
    low ≤ windowAfter s.dec.nbits.toNat s.inp cs s.dec.code.toNat s.inPos ∧
    windowAfter s.dec.nbits.toNat s.inp cs s.dec.code.toNat s.inPos ≤ high := by
  obtain ⟨-, hvalue, hvalue', htotal⟩ := h.slice hinv
  obtain ⟨hsealed, hone, hinterval, hle, hge⟩ := hinv.dec.session (h.phase ▸ nofun)
  have hslice := hvalue.trans_lt hvalue'
  obtain ⟨cs, low, high, hrun⟩ := hinterval.exists_renormRun_narrow hone hslice htotal
  obtain ⟨hcodeLow, hcodeHigh⟩ := code_mem_narrow hle (hinv.fmu.sealedTotal hsealed) hvalue hvalue'
  obtain ⟨hbits, hwindow⟩ := hrun.trace.foldlM_decodeBit s.inp s.inPos hone hcodeLow hcodeHigh
    (hinterval.narrow_high_lt hslice htotal)
  refine ⟨cs, low, high, hrun, ?_, hwindow⟩
  exact (hrun.loop _ _).trans (congrArg (LoopEnd.ofActions low high) hbits)

theorem ReadsSlice.exists_next : ∃ t, exec .decRead s = .next t := by
  obtain ⟨cs, low, high, -, hloop, -⟩ := h.exists_run hinv
  exact ⟨_, (Effect.decRead h hloop).exec_eq⟩

end read

/-- What DEC.READ commits keeps the decoder's invariant. -/
theorem DecInv.read {p : Params} {f : Fmu} {d : Dec} {fuel low high l h code : Nat} {cs : List RenormClass}
    (hlegal : p.legal = true) (hdec : DecInv p f d) (hphase : d.phase = .active)
    (hrun : RenormRun d.nbits.toNat fuel low high cs l h) (hle : l ≤ code) (hge : code ≤ h) :
    DecInv p f { d with low := regOf p.nmax l, high := regOf p.nmax h, code := regOf p.nmax code } := by
  obtain ⟨-, hnmax, -, -, -, -⟩ := (Params.legal_iff p).mp hlegal
  obtain ⟨hsealed, hone, hinterval, -⟩ := hdec.session (hphase ▸ nofun)
  obtain ⟨hlow, hhigh⟩ := hrun.regOf_bounds hlegal hdec.nbitsLegal
  have hcode : (regOf p.nmax code).toNat = code := regOf_toNat hnmax
    ((hge.trans_lt hrun.high_lt).trans_le (Nat.pow_le_pow_right (by decide) hdec.nbitsLegal))
  constructor
  case nbitsLegal => exact hdec.nbitsLegal
  case lowWidth => exact regOf_lt _ _
  case highWidth => exact regOf_lt _ _
  case codeWidth => exact regOf_lt _ _
  case session =>
    intro _
    rw [hlow, hhigh, hcode]
    exact ⟨hsealed, hone, hrun.intervalInv hinterval.totalFits, hle, hge⟩

end Sys2Proof.Machine
end

section
/-! PROOFS. The invariant step by step (10_state.md R27; 45_properties.md R191 to R193): every effect keeps it, a refusal
touches the fault registers only, and under it no command stops (20_memory.md R63; 41_coder_core.md R143). -/

namespace Sys2Proof.Machine

/-! ## What the effects keep -/

/-- A coder without a session meets its invariant over any table. -/
theorem EncInv.idle {p : Params} {f : Fmu} {e : Enc} (g : Fmu) (h : EncInv p f e) :
    EncInv p g { e with phase := .idle } :=
  ⟨h.nbitsLegal, h.lowWidth, h.highWidth, h.pendWidth, absurd rfl⟩

theorem DecInv.idle {p : Params} {f : Fmu} {d : Dec} (g : Fmu) (h : DecInv p f d) :
    DecInv p g { d with phase := .idle } :=
  ⟨h.nbitsLegal, h.lowWidth, h.highWidth, h.codeWidth, absurd rfl⟩

/-- Over a table that is not sealed there is no session. -/
theorem EncInv.of_not_sealed {p : Params} {f : Fmu} {e : Enc} (g : Fmu) (h : EncInv p f e)
    (hphase : f.phase ≠ .sealed) : EncInv p g e :=
  ⟨h.nbitsLegal, h.lowWidth, h.highWidth, h.pendWidth, fun hne => absurd (h.session hne).1 hphase⟩

theorem DecInv.of_not_sealed {p : Params} {f : Fmu} {d : Dec} (g : Fmu) (h : DecInv p f d)
    (hphase : f.phase ≠ .sealed) : DecInv p g d :=
  ⟨h.nbitsLegal, h.lowWidth, h.highWidth, h.codeWidth, fun hne => absurd (h.session hne).1 hphase⟩

theorem EncInv.finished {p : Params} {f : Fmu} {e : Enc} (h : EncInv p f e) (hphase : e.phase = .active) :
    EncInv p f { e with pend := 0#32, phase := .done } :=
  ⟨h.nbitsLegal, h.lowWidth, h.highWidth, Nat.zero_le _, fun _ => h.session (hphase ▸ nofun)⟩

/-- The table of a reset block is the empty one, in phase EMPTY. -/
theorem FmuInv.resetBlock {s : State} (h : FmuInv s.params s.fmu) : FmuInv s.params (resetBlock s).fmu :=
  { h.cleared with
    emptyPhase := fun _ => rfl
    sealedTotal := nofun }

theorem State.Inv.resetBlock {s : State} (h : s.Inv) : (resetBlock s).Inv :=
  ⟨h.params, h.fmu.resetBlock, EncInv.reset _ _, DecInv.reset _ _, FaultInv.reset⟩

theorem Effect.keeps_inv {s u : State} {i : Instr} {v : Word32} (hinv : s.Inv) (h : Effect s i v u) : u.Inv := by
  obtain ⟨hlegal, hfmu, henc, hdec, hflt⟩ := hinv
  cases h with
  | sysReset => exact State.Inv.resetBlock ⟨hlegal, hfmu, henc, hdec, hflt⟩
  | sysRdreg | fmNsym | fmTotal | fmLow | fmHigh => exact ⟨hlegal, hfmu, henc, hdec, hflt⟩
  | fmClear => exact ⟨hlegal, hfmu.cleared, henc.idle _, hdec.idle _, hflt⟩
  | fmPush _ hphase hroom hfits =>
    have hopen : s.fmu.phase ≠ .sealed := hphase ▸ nofun
    exact ⟨hlegal, hfmu.pushed hlegal hphase hroom hfits, henc.of_not_sealed _ hopen, hdec.of_not_sealed _ hopen,
      hflt⟩
  | fmSeal _ hphase hpos =>
    have hopen : s.fmu.phase ≠ .sealed := hphase ▸ nofun
    exact ⟨hlegal, hfmu.sealed hpos, henc.of_not_sealed _ hopen, hdec.of_not_sealed _ hopen, hflt⟩
  | encInit h => exact ⟨hlegal, hfmu, EncInv.started hlegal h.le_nmax h.one_le h.phase h.fits, hdec, hflt⟩
  | encWrite h hloop =>
    obtain ⟨cs, hrun, -⟩ := h.run_of_stop ⟨hlegal, hfmu, henc, hdec, hflt⟩ hloop
    exact ⟨hlegal, hfmu, henc.written hlegal h.phase hrun _, hdec, hflt⟩
  | encFinish _ hphase => exact ⟨hlegal, hfmu, henc.finished hphase, hdec, hflt⟩
  | decInit h hprime =>
    rw [primeCode_eq, Nat.zero_mul, Nat.zero_add] at hprime
    obtain ⟨rfl, -⟩ := Prod.mk.inj hprime
    exact ⟨hlegal, hfmu, henc,
      DecInv.started hlegal h.le_nmax (bitsValue_lt _ _ _) h.one_le h.phase h.fits, hflt⟩
  | decRead h hloop =>
    obtain ⟨cs, l, u, hrun, hloop', hle, hge⟩ := h.exists_run ⟨hlegal, hfmu, henc, hdec, hflt⟩
    rw [hloop'] at hloop
    cases hloop
    exact ⟨hlegal, hfmu, henc, hdec.read hlegal h.phase hrun hle hge, hflt⟩

/-! ## Every step -/

/-- A precise outcome leaves the fault registers or an error that may be recorded in them. -/
theorem KeepsOrRaises.faultInv {w : Word64} {s t : State} (h : KeepsOrRaises w s (.next t)) (hflt : FaultInv s.flt) :
    FaultInv t.flt := by
  cases h with
  | kept hkept => exact hkept ▸ hflt
  | raised _ he => exact ⟨nofun, fun _ => ⟨_, he, rfl⟩⟩

/-- The invariant says nothing of the host side. -/
theorem State.Inv.hostSide {s : State} (h : s.Inv) (inbox : List HostEvent) (rsps : List Word64)
    (out inp : List Bit) (inPos : Nat) :
    State.Inv { s with inbox := inbox, rsps := rsps, out := out, inp := inp, inPos := inPos } :=
  ⟨h.params, h.fmu, h.enc, h.dec, h.flt⟩

theorem exec_keeps_inv {s t : State} {i : Instr} (hinv : s.Inv) (hexec : exec i s = .next t) : t.Inv := by
  rcases (exec_eq_next_iff.mp hexec).accepted_or_error with ⟨v, u, h, rfl⟩ | ⟨c, -, ht⟩
  · exact (h.keeps_inv hinv).hostSide _ _ _ _ _
  · by_cases hreset : i = .sysReset
    · subst hreset
      obtain rfl := Host.Outcome.next.inj (hexec.symm.trans (exec_sysReset s))
      exact hinv.resetBlock.hostSide _ _ _ _ _
    · have hflt : FaultInv t.flt := (hexec ▸ exec_keepsOrRaises hreset s).faultInv hinv.flt
      rw [ht]
      exact ⟨hinv.params, hinv.fmu, hinv.enc, hinv.dec, hflt⟩

theorem illegalCommand_keeps_inv {s t : State} {w : Word64} (hinv : s.Inv)
    (hillegal : illegalCommand w s = .next t) : t.Inv := by
  have hflt : FaultInv t.flt := (hillegal ▸ illegalCommand_keepsOrRaises w s).faultInv hinv.flt
  rcases unlessFaulted_cases hillegal with ⟨-, rfl⟩ | ⟨-, hraise⟩
  · exact hinv.hostSide _ _ _ _ _
  · cases hraise
    exact ⟨hinv.params, hinv.fmu, hinv.enc, hinv.dec, hflt⟩

/-- Settles O13: the effects keep the invariant, an error touches the fault registers only, and the host's acts
touch the block by the reset only. -/
theorem everyStepKeepsTheInvariant : Obligations.EveryStepKeepsTheInvariant := by
  intro s t hinv hstep
  rcases step_cases hstep with ⟨-, rfl⟩ | ⟨w, rest, i, -, -, hexec⟩ | ⟨w, rest, why, -, -, hillegal⟩ |
    ⟨rest, -, rfl⟩ | ⟨bits, rest, -, rfl⟩ | ⟨bits, rest, -, rfl⟩ | ⟨rest, -, rfl⟩
  · exact hinv
  · exact exec_keeps_inv (hinv.hostSide _ _ _ _ _) hexec
  · exact illegalCommand_keeps_inv (hinv.hostSide _ _ _ _ _) hillegal
  · exact State.Inv.resetBlock (hinv.hostSide _ _ _ _ _)
  · exact hinv.hostSide _ _ _ _ _
  · exact hinv.hostSide _ _ _ _ _
  · exact hinv.hostSide _ _ _ _ _

/-! ## No command stops -/

/-- Under the invariant a command of which no check fails runs to its end: the entries it looks up are written, and
the loops end. -/
theorem exists_next_of_passed {s : State} {i : Instr} (hinv : s.Inv) (hf : s.flt.fault = false)
    (hnone : firstFailure (commandChecks s i) = none) : ∃ t, exec i s = .next t := by
  cases i with
  | fmLow a =>
    simp only [commandChecks, firstFailure_cons_eq_none_iff] at hnone
    obtain ⟨hphase, hrange, -⟩ := hnone
    obtain ⟨low, -, -, hlow, -⟩ := hinv.fmu.cumStep a.toNat hrange
    exact ⟨_, (Effect.fmLow hf hphase hrange hlow).exec_eq⟩
  | fmHigh a =>
    simp only [commandChecks, firstFailure_cons_eq_none_iff] at hnone
    obtain ⟨hphase, hrange, -⟩ := hnone
    obtain ⟨-, -, high, -, -, hhigh, -⟩ := hinv.fmu.cumStep a.toNat hrange
    exact ⟨_, (Effect.fmHigh hf hphase hrange hhigh).exec_eq⟩
  | encWrite a =>
    simp only [commandChecks, firstFailure_cons_eq_none_iff] at hnone
    obtain ⟨hphase, hrange, hcount, -⟩ := hnone
    obtain ⟨symlow, count, symhigh, hlow, hcnt, hne, hhigh, -⟩ := hinv.fmu.slice hrange hcount
    exact WritesSlice.exists_next hinv ⟨hf, hphase, hrange, ⟨count, hcnt, hne⟩, hlow, hhigh⟩
  | decRead =>
    simp only [commandChecks, firstFailure_cons_eq_none_iff] at hnone
    obtain ⟨sym, symlow, symhigh, h⟩ := exists_readsSlice_of_inv hinv hf hnone.1
    exact h.exists_next hinv
  | sysReset | sysRdreg | fmClear | fmPush | fmSeal | fmNsym | fmTotal | encInit | encFinish | decInit =>
    obtain ⟨v, u, h⟩ := exists_effect_of_passed rfl hf hnone
    exact ⟨_, h.exec_eq⟩

theorem Effect.flt_eq {s u : State} {i : Instr} {v : Word32} (h : Effect s i v u) :
    u.flt = s.flt ∨ u.flt = FaultRegs.reset := by
  cases h with
  | sysReset => exact .inr rfl
  | _ => exact .inl rfl

/-- Settles O22: a check that fails refuses the command, and one that passes all its checks ends with its effect or,
if it is an ENC.WRITE, with the overflow. -/
theorem firstFailedCheckDecidesTheError : Obligations.FirstFailedCheckDecidesTheError := by
  refine fun i s hinv hf => ⟨fun e hfail => exec_of_firstFailure hf hfail, fun hnone => ?passed⟩
  obtain ⟨t, hexec⟩ := exists_next_of_passed hinv hf hnone
  refine ⟨t, hexec, ?_⟩
  cases exec_eq_next_iff.mp hexec with
  | accepted h =>
    rcases h.flt_eq with hkept | hreset
    · exact .inl hkept
    · exact .inl (hreset.trans (hinv.flt.clear hf).symm)
  | refused _ hfail => exact nomatch hnone.symm.trans hfail
  | overflowed hi => exact .inr ⟨⟨_, hi⟩, rfl⟩
  | faulted hfault => exact nomatch hf.symm.trans hfault

theorem exists_next {s : State} (hinv : s.Inv) (i : Instr) : ∃ t, exec i s = .next t := by
  cases hf : s.flt.fault with
  | false =>
    obtain ⟨hfails, hpasses⟩ := firstFailedCheckDecidesTheError i s hinv hf
    cases hfail : firstFailure (commandChecks s i) with
    | some e => exact ⟨_, hfails e hfail⟩
    | none =>
      obtain ⟨t, hexec, -⟩ := hpasses hfail
      exact ⟨t, hexec⟩
  | true =>
    by_cases hreset : i = .sysReset
    · exact ⟨_, hreset ▸ exec_sysReset s⟩
    · by_cases hreg : ∀ r, i = .sysRdreg r → readRegister s r = none
      · exact ⟨_, exec_faulted hf hreset hreg⟩
      · obtain ⟨r, hr⟩ := not_forall.mp hreg
        obtain ⟨rfl, hread⟩ := Classical.not_imp.mp hr
        obtain ⟨v, hread⟩ := Option.ne_none_iff_exists'.mp hread
        exact ⟨_, exec_sysRdreg_valid hread⟩

theorem illegalCommand_exists_next (w : Word64) (s : State) : ∃ t, illegalCommand w s = .next t := by
  cases hf : s.flt.fault with
  | false => exact ⟨_, illegalCommand_running hf w⟩
  | true => exact ⟨_, illegalCommand_faulted hf w⟩

/-- Settles O14: under the invariant every command and every illegal word has a next state, and so has every host
act. -/
theorem noStepStopsUnderTheInvariant : Obligations.NoStepStopsUnderTheInvariant := by
  intro s hinv
  unfold step
  split
  case h_1 => exact ⟨_, rfl⟩
  case h_2 w rest _ =>
    split
    · exact exists_next (hinv.hostSide rest s.rsps s.out s.inp s.inPos) _
    · exact illegalCommand_exists_next w _
  case h_3 | h_4 | h_5 | h_6 => exact ⟨_, rfl⟩

end Sys2Proof.Machine
end

section
/-! PROOFS. What the invariant gives of the registers (10_state.md R21, R45) and of the coder commands in a session
(42_enc.md R152, R156; 43_dec.md R170, R172). -/

namespace Sys2Proof.Machine

/-! ## The widths of the registers (10_state.md R45 to R48) -/

theorem statusWord_lt (s : State) : (statusWord s).toNat < 2 ^ 6 := by
  obtain ⟨hfault, hfm, henc, hdec⟩ := statusFields_le s
  rw [statusWord_toNat]
  omega

/-- The upper half of a word put together under 16 zeros is 0. -/
theorem zero_append_lt {n : Nat} (x : BitVec n) : (0#16 ++ x : BitVec (16 + n)).toNat < 2 ^ n := by
  rw [toNat_append_eq_add, BitVec.toNat_ofNat, Nat.zero_mod, Nat.zero_mul, Nat.zero_add]
  exact x.isLt

theorem errinfoWord_lt (s : State) : (errinfoWord s).toNat < 2 ^ 16 := zero_append_lt _

theorem cap2Word_lt (p : Params) : (cap2Word p).toNat < 2 ^ 16 := zero_append_lt _

/-- A six-bit width read as a register. -/
theorem setWidth_nbits_lt (n : BitVec 6) : (n.setWidth 32).toNat < 2 ^ 6 := by
  rw [BitVec.toNat_setWidth]
  exact (Nat.mod_le _ _).trans_lt n.isLt

/-- Under the invariant each register of the map holds a value of its width. -/
theorem State.Inv.register_fits {s : State} (hinv : s.Inv) : ∀ p ∈ registerWidths s.params, ∃ v,
    readRegister s p.1 = some v ∧ v.toNat < 2 ^ p.2 := by
  have hpend : s.enc.pend.toNat < 2 ^ s.params.pbw :=
    Nat.lt_of_le_sub_one (Nat.two_pow_pos _) hinv.enc.pendWidth
  simp only [registerWidths, List.forall_mem_cons]
  exact ⟨⟨_, rfl, statusWord_lt s⟩, ⟨_, rfl, errinfoWord_lt s⟩, ⟨_, rfl, s.flt.errarg.isLt⟩,
    ⟨_, rfl, (capWord s.params).isLt⟩, ⟨_, rfl, s.fmu.nsym.isLt⟩, ⟨_, rfl, s.fmu.total.isLt⟩,
    ⟨_, rfl, cap2Word_lt s.params⟩,
    ⟨_, rfl, setWidth_nbits_lt s.enc.nbits⟩, ⟨_, rfl, hinv.enc.lowWidth⟩, ⟨_, rfl, hinv.enc.highWidth⟩,
    ⟨_, rfl, hpend⟩,
    ⟨_, rfl, setWidth_nbits_lt s.dec.nbits⟩, ⟨_, rfl, hinv.dec.lowWidth⟩, ⟨_, rfl, hinv.dec.highWidth⟩,
    ⟨_, rfl, hinv.dec.codeWidth⟩, nofun⟩

theorem illegalCommand_params {s t : State} {w : Word64} (hillegal : illegalCommand w s = .next t) :
    t.params = s.params := by
  rcases unlessFaulted_cases hillegal with ⟨-, rfl⟩ | ⟨-, hraise⟩
  · rfl
  · cases hraise
    rfl

/-- Nothing writes the parameters (log 3). -/
theorem step_params {s t : State} (hstep : step s = .next t) : t.params = s.params := by
  rcases step_cases hstep with ⟨-, rfl⟩ | ⟨w, rest, i, -, -, hexec⟩ | ⟨w, rest, why, -, -, hillegal⟩ |
    ⟨rest, -, rfl⟩ | ⟨bits, rest, -, rfl⟩ | ⟨bits, rest, -, rfl⟩ | ⟨rest, -, rfl⟩
  · rfl
  · obtain ⟨-, hparams, -⟩ := streamsMoveOnlyAsTheSpecSays i _ t hexec
    exact hparams
  · exact illegalCommand_params (s := takeEvent rest s) hillegal
  · rfl
  · rfl
  · rfl
  · rfl

theorem IntervalInv.low_le_high {N low high total : Nat} (h : IntervalInv N low high total) :
    low ≤ high ∧ high < 2 ^ N :=
  ⟨h.lowBelowHalf.le.trans h.halfBelowHigh, Nat.lt_of_le_sub_one (Nat.two_pow_pos N) h.highInMask⟩

/-- Settles O30: the step keeps the invariant, which bounds every register. -/
theorem registersFitTheirWidths : Obligations.RegistersFitTheirWidths := by
  intro s t hinv hstep
  have hinv' := everyStepKeepsTheInvariant s t hinv hstep
  have hparams := step_params hstep
  refine ⟨hparams, fun p hp => ?register, fun henc => ?encoder, fun hdec => ?decoder⟩
  case register =>
    obtain ⟨v, hread, hv⟩ := hinv'.register_fits p (hparams ▸ hp)
    exact ⟨v, exec_sysRdreg_valid hread, hv⟩
  case encoder =>
    obtain ⟨-, -, hinterval⟩ := hinv'.enc.session henc
    exact hinterval.low_le_high
  case decoder =>
    obtain ⟨-, -, hinterval, hle, hge⟩ := hinv'.dec.session hdec
    exact ⟨hle, hge, hinterval.low_le_high.2⟩

/-! ## ENC.WRITE in a session (42_enc.md R152, R156) -/

/-- Settles O45: the room holds whatever the run defers, and the encoder's invariant has the minimum range. -/
theorem encWriteCompletesWithRoom : Obligations.EncWriteCompletesWithRoom := by
  intro a s hinv hf hphase hrange hcount hroom
  obtain ⟨e, bits, hexec, henc, hphase', hnbits, hpend⟩ :=
    exec_encWrite_room hinv.params hf hinv.fmu hinv.enc hphase hrange hcount hroom
  obtain ⟨-, -, hinterval⟩ := henc.session (hphase' ▸ nofun)
  exact ⟨_, bits, hexec, hpend, hnbits ▸ hinterval.rangeWide, hnbits, hphase', rfl⟩

/-- A trace has no class S: there the loop stops. -/
theorem RenormTrace.S_not_mem {N low high l h : Nat} {cs : List RenormClass}
    (htrace : RenormTrace N low high cs l h) : .S ∉ cs := by
  induction htrace with
  | stop => exact List.not_mem_nil
  | zero _ _ ih | one _ _ _ ih | under _ _ _ _ _ ih => simpa using ih

/-- Each class but S emits or defers one bit. -/
theorem emission_length {pmax pend pend' : Nat} {cs : List RenormClass} {bits : List Bit} (hS : .S ∉ cs)
    (h : emission pmax cs pend = some (bits, pend')) : bits.length + pend' = pend + cs.length := by
  induction cs generalizing pend bits with
  | nil =>
    obtain ⟨rfl, rfl⟩ := Prod.mk.inj (Option.some.inj h)
    exact Nat.add_comm _ _
  | cons c cs ih =>
    rw [List.mem_cons, not_or] at hS
    obtain ⟨hc, hS⟩ := hS
    cases c with
    | Z | O =>
      simp only [emission, Option.map_eq_some_iff, Prod.mk.injEq] at h
      obtain ⟨⟨rest, _⟩, hrest, rfl, rfl⟩ := h
      have hlength := ih hS hrest
      simp only [List.length_cons, List.length_append, List.length_replicate]
      omega
    | U =>
      simp only [emission, Option.ite_none_left_eq_some] at h
      have hlength := ih hS h.2
      rw [List.length_cons]
      omega
    | S => exact absurd rfl hc

/-- An emitting class resolves all deferred bits, and class U adds one. -/
theorem emission_pend_le_count {pmax pend pend' : Nat} {cs : List RenormClass} {bits : List Bit}
    (h : emission pmax cs pend = some (bits, pend')) : pend' ≤ pend + cs.count .U := by
  induction cs generalizing pend bits with
  | nil =>
    obtain ⟨-, rfl⟩ := Prod.mk.inj (Option.some.inj h)
    exact Nat.le_add_right _ _
  | cons c cs ih =>
    have hcount : cs.count .U ≤ (c :: cs).count .U := List.count_le_count_cons
    cases c with
    | Z | O =>
      simp only [emission, Option.map_eq_some_iff, Prod.mk.injEq] at h
      obtain ⟨⟨rest, _⟩, hrest, -, rfl⟩ := h
      exact (ih hrest).trans (by omega)
    | U =>
      simp only [emission, Option.ite_none_left_eq_some] at h
      rw [List.count_cons_self]
      exact (ih h.2).trans (by omega)
    | S => exact (ih h).trans (by omega)

/-- The range of a narrowed interval is the difference of the two quotients. -/
theorem narrow_range {low high symlow symhigh total : Nat} (hle : low ≤ high) (hpos : 0 < total)
    (hslice : symlow < symhigh) (hsym : symhigh ≤ total) (htotal : total ≤ high - low + 1) :
    (narrow low high symlow symhigh total).2 - (narrow low high symlow symhigh total).1 + 1 =
      (high - low + 1) * symhigh / total - (high - low + 1) * symlow / total := by
  -- Shifted up by one the lower bound is positive, so the subtraction in `narrow` is exact.
  obtain ⟨hnonempty, -⟩ := narrow_bounds (low := low + 1) (high := high + 1) (by omega) hpos hslice hsym (by omega)
  simp only [narrow, show high + 1 - (low + 1) = high - low by omega] at hnonempty ⊢
  generalize (high - low + 1) * symhigh / total = upper at hnonempty ⊢
  generalize (high - low + 1) * symlow / total = lower at hnonempty ⊢
  omega

theorem IntervalInv.narrow_bounds {N low high total symlow symhigh : Nat} (hinv : IntervalInv N low high total)
    (hslice : symlow < symhigh) (hsym : symhigh ≤ total) :
    (narrow low high symlow symhigh total).1 ≤ (narrow low high symlow symhigh total).2 ∧
      (narrow low high symlow symhigh total).2 < 2 ^ N ∧
      (narrow low high symlow symhigh total).2 - (narrow low high symlow symhigh total).1 + 1 =
        (high - low + 1) * symhigh / total - (high - low + 1) * symlow / total := by
  have hle := hinv.low_le_high.1
  have htotal := hinv.totalFits.trans hinv.rangeWide
  have hpos : 0 < total := by omega
  exact ⟨(Machine.narrow_bounds hle hpos hslice hsym htotal).1, hinv.narrow_high_lt hslice hsym,
    narrow_range hle hpos hslice hsym htotal⟩

/-- Settles O47: the bits and the counter are those of the emission over the run, whose range the trace gives. -/
theorem encWriteAccountsForEveryIteration : Obligations.EncWriteAccountsForEveryIteration := by
  intro a s t hinv hf hexec hrunning
  cases exec_eq_next_iff.mp hexec with
  | refused | overflowed => cases hrunning
  | faulted hfault => exact nomatch hf.symm.trans hfault
  | accepted heffect =>
    cases heffect with
    | @encWrite _ symlow symhigh low high pend bits h hloop =>
      obtain ⟨hslice, hsym⟩ := h.slice hinv
      obtain ⟨hone, hinterval⟩ := h.session hinv
      obtain ⟨cs, hrun, hemit⟩ := h.run_of_stop hinv hloop
      obtain ⟨hlow, hhigh⟩ := hrun.regOf_bounds hinv.params hinv.enc.nbitsLegal
      obtain ⟨-, -, -, -, -, hpbw⟩ := (Params.legal_iff _).mp hinv.params
      have hpend : (regOf s.params.pbw pend).toNat = pend := regOf_toNat hpbw
        (Nat.lt_of_le_sub_one (Nat.two_pow_pos _) (emission_pend_le hinv.enc.pendWidth hemit))
      obtain ⟨hstart, hstart', hrange⟩ := hinterval.narrow_bounds hslice hsym
      simp only [respond_enc, respond_out, commitWrite_enc, commitWrite_out, hlow, hhigh, hpend,
        List.length_append]
      refine ⟨symlow, symhigh, cs, h.low, h.high, hrun.trace, hrun.length_le, ?emitted,
        emission_pend_le_count hemit, ?range⟩
      case emitted =>
        have hlength := emission_length hrun.trace.S_not_mem hemit
        omega
      case range => rw [← hrange, hrun.trace.range_eq hone hstart hstart', encStart]

/-! ## DEC.READ in a session (43_dec.md R170, R172) -/

/-- Settles O50: the invariant holds with any source, so DEC.READ has its effect, which keeps the invariant. -/
theorem noSourceContentIsAnError : Obligations.NoSourceContentIsAnError := by
  intro s bits hinv hf hphase
  have hinv' : State.Inv { s with inp := bits } := hinv.hostSide _ _ _ _ _
  obtain ⟨sym, symlow, symhigh, h⟩ := exists_readsSlice_of_inv hinv' hf hphase
  obtain ⟨cs, low, high, -, hloop, -⟩ := h.exists_run hinv'
  have heffect := Effect.decRead h hloop
  obtain ⟨-, -, -, hcode⟩ := (heffect.keeps_inv hinv').dec.session (fun hidle => nomatch hphase.symm.trans hidle)
  refine ⟨_, BitVec.ofNat 32 sym, heffect.exec_eq, hf, hphase, ?response, hcode⟩
  rw [respond_rsps, responseWord_ok, commitRead_rsps]

end Sys2Proof.Machine
end

section
/-! PROOFS. Table entries past the fill level cannot be observed (20_memory.md R63; 93_implementation_defined.md U5): the
commands read CNT below NSYM and CUM up to NSYM, and what they write there they write in both states. -/

namespace Sys2Proof.Machine

/-- The FMU with other tables. -/
def Fmu.withTables (cnt cum : Memory) (f : Fmu) : Fmu := { f with cnt := cnt, cum := cum }

/-- The state with other tables. -/
def withTables (cnt cum : Memory) (s : State) : State := { s with fmu := s.fmu.withTables cnt cum }

/-- States that agree differ in the tables only. -/
theorem State.Agree.exists_withTables {s s' : State} (h : s.Agree s') :
    ∃ cnt cum, FmuAgree s.fmu (s.fmu.withTables cnt cum) ∧ s' = withTables cnt cum s := by
  have hfmu : s'.fmu = s.fmu.withTables s'.fmu.cnt s'.fmu.cum := by
    rw [Fmu.withTables, h.fmu.nsym, h.fmu.total, h.fmu.phase]
  refine ⟨s'.fmu.cnt, s'.fmu.cum, hfmu ▸ h.fmu, ?_⟩
  rw [withTables, ← hfmu, h.rest]

theorem State.Agree.keptByResponses : KeptByResponses State.Agree where
  respond c v h := ⟨h.fmu, congrArg (Machine.respond c v) h.rest⟩
  refused e w h := ⟨h.fmu, congrArg (refusedWith · e w) h.rest⟩

/-! ## What FM.CLEAR, FM.PUSH, FM.SEAL and the reset make of two tables that agree -/

theorem FmuAgree.cleared (f g : Fmu) : FmuAgree f.cleared g.cleared where
  nsym := rfl
  total := rfl
  phase := rfl
  cnt _ hi := absurd hi (Nat.not_lt_zero _)
  cum i hi := by
    obtain rfl := Nat.le_zero.mp hi
    rw [f.cleared_cum_zero, g.cleared_cum_zero]

section tables

variable {f g : Fmu} (h : FmuAgree f g)

include h

theorem FmuAgree.withPhase (phase : FmPhase) : FmuAgree { f with phase := phase } { g with phase := phase } :=
  ⟨h.nsym, h.total, rfl, h.cnt, h.cum⟩

/-- The one entry a push adds to each table is the same in both. -/
theorem FmuAgree.pushed (c : Word32) : FmuAgree (f.pushed c) (g.pushed c) := by
  have hnsym : (f.pushed c).nsym.toNat ≤ f.nsym.toNat + 1 := by
    rw [Fmu.pushed, BitVec.toNat_add]
    exact Nat.mod_le _ _
  constructor
  case nsym => simp only [Fmu.pushed, h.nsym]
  case total => simp only [Fmu.pushed, h.total]
  case phase => exact h.phase
  case cnt =>
    intro i hi
    by_cases hlast : i = f.nsym.toNat
    · rw [hlast, f.pushed_cnt_nsym, h.nsym, g.pushed_cnt_nsym]
    · rw [f.pushed_cnt_other c hlast, g.pushed_cnt_other c (h.nsym ▸ hlast)]
      exact h.cnt i (by omega)
  case cum =>
    intro i hi
    by_cases hlast : i = f.nsym.toNat + 1
    · rw [hlast, f.pushed_cum_nsym_succ, h.nsym, g.pushed_cum_nsym_succ, h.total]
    · rw [f.pushed_cum_other c hlast, g.pushed_cum_other c (h.nsym ▸ hlast)]
      exact h.cum i (by omega)

end tables

theorem FmuAgree.resetBlock {s s' : State} : FmuAgree (resetBlock s).fmu (resetBlock s').fmu :=
  (FmuAgree.cleared s.fmu s'.fmu).withPhase .empty

/-- The search reads entries below its upper end only. -/
theorem searchSymbol_congr {cum cum' : Memory} {value fuel start stop : Nat}
    (h : ∀ i < stop, memRead cum i = memRead cum' i) :
    searchSymbol cum value fuel start stop = searchSymbol cum' value fuel start stop := by
  induction fuel generalizing start stop with
  | zero => rfl
  | succ fuel ih =>
    by_cases hgap : stop - start > 1
    · have hmid : (start + stop) >>> 1 < stop := by
        rw [Nat.shiftRight_one]
        omega
      simp only [searchSymbol, if_pos hgap, ← h _ hmid]
      rw [ih (fun i hi => h i (hi.trans hmid)), ih h]
    · rw [searchSymbol, searchSymbol, if_neg hgap, if_neg hgap]

/-! ## What the commands read -/

section reads

variable {s : State} {cnt cum : Memory} (h : FmuAgree s.fmu (s.fmu.withTables cnt cum))

theorem Startable.withTables {n : Word32} (hstart : Startable s n) : Startable (withTables cnt cum s) n :=
  ⟨hstart.running, hstart.one_le, hstart.le_nmax, hstart.phase, hstart.fits⟩

include h

theorem WritesSlice.withTables {a symlow symhigh : Word32} (hslice : WritesSlice s a symlow symhigh) :
    WritesSlice (withTables cnt cum s) a symlow symhigh where
  running := hslice.running
  phase := hslice.phase
  range := hslice.range
  count := h.cnt _ hslice.range ▸ hslice.count
  low := (h.cum _ hslice.range.le).symm.trans hslice.low
  high := (h.cum _ hslice.range).symm.trans hslice.high

/-- The invariant has the symbol that is found below NSYM. -/
theorem ReadsSlice.withTables {sym : Nat} {symlow symhigh : Word32} (hinv : s.Inv)
    (hslice : ReadsSlice s sym symlow symhigh) : ReadsSlice (withTables cnt cum s) sym symlow symhigh where
  running := hslice.running
  phase := hslice.phase
  find := (searchSymbol_congr fun i hi => h.cum i (Nat.le_of_lt hi)).symm.trans hslice.find
  low := (h.cum _ (hslice.slice hinv).1.le).symm.trans hslice.low
  high := (h.cum _ (hslice.slice hinv).1).symm.trans hslice.high

/-- ENC.WRITE looks at CNT only after its check of the range. -/
theorem firstFailure_withTables (i : Instr) :
    firstFailure (commandChecks (withTables cnt cum s) i) = firstFailure (commandChecks s i) := by
  cases i with
  | encWrite a =>
    by_cases hrange : a.toNat < s.fmu.nsym.toNat
    · have hcnt : memRead cnt a.toNat = memRead s.fmu.cnt a.toNat := (h.cnt _ hrange).symm
      rw [commandChecks, commandChecks, Machine.withTables, Fmu.withTables, hcnt]
    · by_cases hphase : s.enc.phase = .active <;>
        simp [commandChecks, firstFailure, Machine.withTables, Fmu.withTables, hrange, hphase]
  | sysReset | sysRdreg | fmClear | fmPush | fmSeal | fmNsym | fmLow | fmHigh | fmTotal | encInit | encFinish
  | decInit | decRead => rfl

end reads

/-! ## Every command and every step -/

theorem Effect.agree {s u : State} {cnt cum : Memory} {i : Instr} {v : Word32} (hinv : s.Inv)
    (h : FmuAgree s.fmu (s.fmu.withTables cnt cum)) (heffect : Effect s i v u) :
    ∃ u', Effect (withTables cnt cum s) i v u' ∧ u.Agree u' := by
  cases heffect with
  | sysReset => exact ⟨_, .sysReset, .resetBlock, rfl⟩
  | sysRdreg hread => exact ⟨_, .sysRdreg hread, h, rfl⟩
  | fmClear hf => exact ⟨_, .fmClear hf, .cleared _ _, rfl⟩
  | fmPush hf hphase hroom hfits => exact ⟨_, .fmPush hf hphase hroom hfits, h.pushed _, rfl⟩
  | fmSeal hf hphase hpos => exact ⟨_, .fmSeal hf hphase hpos, h.withPhase .sealed, rfl⟩
  | fmNsym hf hphase => exact ⟨_, .fmNsym hf hphase, h, rfl⟩
  | fmTotal hf hphase => exact ⟨_, .fmTotal hf hphase, h, rfl⟩
  | fmLow hf hphase hrange hread =>
    exact ⟨_, .fmLow hf hphase hrange ((h.cum _ hrange.le).symm.trans hread), h, rfl⟩
  | fmHigh hf hphase hrange hread =>
    exact ⟨_, .fmHigh hf hphase hrange ((h.cum _ hrange).symm.trans hread), h, rfl⟩
  | encInit hstart => exact ⟨_, .encInit hstart.withTables, h, rfl⟩
  | encWrite hslice hloop => exact ⟨_, .encWrite (hslice.withTables h) hloop, h, rfl⟩
  | encFinish hf hphase hroom hb => exact ⟨_, .encFinish hf hphase hroom hb, h, rfl⟩
  | decInit hstart hprime => exact ⟨_, .decInit hstart.withTables hprime, h, rfl⟩
  | decRead hslice hloop => exact ⟨_, .decRead (hslice.withTables h hinv) hloop, h, rfl⟩

theorem transfers_agree {s s' : State} (i : Instr) (hinv : s.Inv) (hagree : s.Agree s') :
    Transfers State.Agree i s s' := by
  obtain ⟨cnt, cum, h, rfl⟩ := hagree.exists_withTables
  exact {
    related := hagree
    flt := rfl
    checks := firstFailure_withTables h i
    effect := fun heffect => heffect.agree hinv h
    overflow := fun _ hslice hloop => ⟨hslice.withTables h, hloop⟩ }

theorem exec_agree {s s' t : State} {i : Instr} (hinv : s.Inv) (hagree : s.Agree s') (hexec : exec i s = .next t) :
    ∃ t', exec i s' = .next t' ∧ t.Agree t' := by
  obtain ⟨t', hexec', ht⟩ :=
    (transfers_agree i hinv hagree).executed State.Agree.keptByResponses (exec_eq_next_iff.mp hexec)
  exact ⟨t', hexec'.exec_eq, ht⟩

/-- An illegal word looks at FAULT only. -/
theorem illegalCommand_agree {s s' t : State} {w : Word64} (hagree : s.Agree s')
    (hillegal : illegalCommand w s = .next t) : ∃ t', illegalCommand w s' = .next t' ∧ t.Agree t' := by
  obtain ⟨cnt, cum, -, rfl⟩ := hagree.exists_withTables
  rcases unlessFaulted_cases hillegal with ⟨hf, rfl⟩ | ⟨hf, hraise⟩
  · exact ⟨_, illegalCommand_faulted (s := withTables cnt cum s) hf w,
      State.Agree.keptByResponses.respond _ _ hagree⟩
  · cases hraise
    exact ⟨_, illegalCommand_running (s := withTables cnt cum s) hf w,
      State.Agree.keptByResponses.refused (s := s) Code.illegalCmd.byte w hagree⟩

/-- Settles O15: the step takes the same event in both states, and a command cannot tell them apart. -/
theorem unreachableEntriesCannotBeObserved : Obligations.UnreachableEntriesCannotBeObserved := by
  intro s s' t hinv hagree hstep
  obtain ⟨cnt, cum, h, rfl⟩ := hagree.exists_withTables
  have htaken (rest : List HostEvent) : (takeEvent rest s).Agree (takeEvent rest (withTables cnt cum s)) := ⟨h, rfl⟩
  rcases step_cases hstep with ⟨hinbox, hidle⟩ | ⟨w, rest, i, hinbox, hdec, hexec⟩ |
    ⟨w, rest, why, hinbox, hdec, hillegal⟩ | ⟨rest, hinbox, rfl⟩ | ⟨bits, rest, hinbox, rfl⟩ |
    ⟨bits, rest, hinbox, rfl⟩ | ⟨rest, hinbox, rfl⟩
  · obtain ⟨hstep', -⟩ := hostActsTouchOnlyTheHostSide (withTables cnt cum s) [] []
    exact ⟨_, hstep' hinbox, hidle ▸ hagree⟩
  · rw [step_command (s := withTables cnt cum s) hinbox hdec]
    exact exec_agree (hinv.hostSide _ _ _ _ _) (htaken rest) hexec
  · rw [step_illegal (s := withTables cnt cum s) hinbox hdec]
    exact illegalCommand_agree (htaken rest) hillegal
  · exact ⟨_, step_hardwareReset (s := withTables cnt cum s) hinbox, .resetBlock, rfl⟩
  · obtain ⟨-, hsupply, -⟩ := hostActsTouchOnlyTheHostSide (withTables cnt cum s) bits rest
    exact ⟨_, hsupply hinbox, h, rfl⟩
  · obtain ⟨-, -, hreplace, -⟩ := hostActsTouchOnlyTheHostSide (withTables cnt cum s) bits rest
    exact ⟨_, hreplace hinbox, h, rfl⟩
  · obtain ⟨-, -, -, hempty⟩ := hostActsTouchOnlyTheHostSide (withTables cnt cum s) [] rest
    exact ⟨_, hempty hinbox, h, rfl⟩

end Sys2Proof.Machine
end

section
/-! PROOFS. FM.BUILD from any block that is not faulted (40_fm.md R118): FM.CLEAR forgets what the table held, and every
push adds its count and the running sum. -/

namespace Sys2Proof.Machine

/-- The table lists the counts and their running sums. This is `HoldsCounts` without the FMU invariant, which a block
in an arbitrary state need not meet. -/
structure ListsCounts (f : Fmu) (counts : List Word32) : Prop where
  nsym : f.nsym.toNat = counts.length
  total : f.total.toNat = (counts.map BitVec.toNat).sum
  cnt : ∀ i < counts.length, memRead f.cnt i = counts[i]?
  cum : ∀ i ≤ counts.length, (memRead f.cum i).map BitVec.toNat = some ((counts.take i).map BitVec.toNat).sum

theorem ListsCounts.cleared (f : Fmu) : ListsCounts f.cleared [] where
  nsym := rfl
  total := rfl
  cnt := nofun
  cum i hi := by
    obtain rfl := Nat.le_zero.mp hi
    rw [f.cleared_cum_zero]
    rfl

theorem ListsCounts.pushed {p : Params} {f : Fmu} {counts : List Word32} {c : Word32} (hlegal : p.legal = true)
    (h : ListsCounts f counts) (hroom : f.nsym.toNat < p.amax) (hfits : f.total.toNat + c.toNat ≤ 2 ^ 32 - 1) :
    ListsCounts (f.pushed c) (counts ++ [c]) := by
  have hnsym := h.nsym
  have hlength : (counts ++ [c]).length = counts.length + 1 := List.length_append
  have htotal : (f.pushed c).total.toNat = ((counts ++ [c]).map BitVec.toNat).sum := by
    simp [Fmu.pushed_total_toNat hfits, h.total]
  refine ⟨?nsym, htotal, fun i hi => ?cnt, fun i hi => ?cum⟩
  case nsym => rw [Fmu.pushed_nsym_toNat hlegal c hroom, hlength, hnsym]
  case cnt =>
    rw [hlength, Nat.lt_succ_iff_lt_or_eq] at hi
    rcases hi with hold | rfl
    · rw [f.pushed_cnt_other c (by omega), h.cnt i hold, List.getElem?_append_left hold]
    · rw [← hnsym, f.pushed_cnt_nsym, hnsym, List.getElem?_concat_length]
  case cum =>
    rw [hlength] at hi
    rcases Nat.lt_or_eq_of_le hi with hold | rfl
    · rw [f.pushed_cum_other c (by omega), h.cum i (by omega), List.take_append_of_le_length (by omega)]
    · rw [← hlength, List.take_length, ← htotal, hlength, ← hnsym, f.pushed_cum_nsym_succ]
      rfl

/-- FM.PUSH of every count: each finds room for its count and for the running sum. -/
theorem execAll_fmPush_lists {s : State} {counts : List Word32} (hlegal : s.params.legal = true)
    (hf : s.flt.fault = false) (hempty : ListsCounts s.fmu []) (hphase : s.fmu.phase = .building)
    (hlen : counts.length ≤ s.params.amax) (hsum : (counts.map BitVec.toNat).sum < 2 ^ 32) :
    ∃ f, execAll (counts.map .fmPush) s =
        .next { s with fmu := f, rsps := s.rsps ++ List.replicate counts.length 0#64 } ∧
      ListsCounts f counts ∧ f.phase = .building := by
  induction counts using List.reverseRecOn with
  | nil => exact ⟨s.fmu, by simp [execAll], hempty, hphase⟩
  | append_singleton counts c ih =>
    simp only [List.length_append, List.length_singleton] at hlen
    simp only [List.map_append, List.map_cons, List.map_nil, List.sum_append_nat, List.sum_singleton] at hsum
    obtain ⟨f, hexec, hcounts, hbuilding⟩ := ih (by omega) (by omega)
    have hroom : f.nsym.toNat < s.params.amax := by
      rw [hcounts.nsym]
      omega
    have hfits : f.total.toNat + c.toNat ≤ 2 ^ 32 - 1 := by
      rw [hcounts.total]
      omega
    refine ⟨f.pushed c, ?_, hcounts.pushed hlegal hroom hfits, hbuilding⟩
    rw [List.map_append, execAll_append hexec, List.map_singleton, execAll_singleton,
      exec_fmPush_ok (by exact hf) hbuilding hroom hfits]
    simp [List.replicate_succ']

/-- Settles O38: the pushes go on from the empty table that FM.CLEAR leaves, and their total is positive. -/
theorem fmBuildLeavesTheModelOfTheCounts : Obligations.FmBuildLeavesTheModelOfTheCounts := by
  intro counts s hlegal hf _ hlen hpos hsum
  rw [fmBuild, execAll_cons (exec_fmClear_ok hf)]
  obtain ⟨f, hexec, hcounts, hbuilding⟩ := execAll_fmPush_lists (s := { s with
      fmu := s.fmu.cleared
      enc := { s.enc with phase := .idle }
      dec := { s.dec with phase := .idle }
      rsps := s.rsps ++ [0#64] }) hlegal hf (.cleared s.fmu) rfl hlen hsum
  have htotal : 0 < f.total.toNat := hcounts.total ▸ hpos
  rw [execAll_append hexec, execAll_singleton, exec_fmSeal_ok (by exact hf) hbuilding htotal]
  refine ⟨_, rfl, ?responses, rfl, hcounts.nsym, hcounts.total, rfl, hcounts.cnt, hcounts.cum, rfl, rfl, rfl⟩
  simp [← List.replicate_succ', ← List.replicate_succ]

end Sys2Proof.Machine
end

section
/-! PROOFS. What a message spells (45_properties.md R194): the bits emitted so far and the deferred ones stand for a
number, `emittedBase`, that every iteration doubles, and a source lies in the encoder's interval above it from the end of
the message back to its start. -/

namespace Sys2Proof.Machine

/-! ## The number of a bit sequence (20_memory.md R72) -/

/-- The number a bit sequence spells, its first bit most significant. -/
def bitsNumber (out : List Bit) : Nat := bitsValue out out.length 0

theorem bitsValue_append (out rest : List Bit) {n : Nat} (hn : n ≤ out.length) :
    bitsValue (out ++ rest) n 0 = bitsValue out n 0 := by
  induction n with
  | zero => rfl
  | succ n ih =>
    have hbit : srcBit (out ++ rest) (0 + n) = srcBit out (0 + n) := List.getD_append _ _ _ _ (by omega)
    rw [bitsValue_succ_last, bitsValue_succ_last, ih (by omega), hbit]

theorem bitsNumber_append_singleton (out : List Bit) (b : Bit) :
    bitsNumber (out ++ [b]) = 2 * bitsNumber out + b.toNat := by
  have hbit : srcBit (out ++ [b]) (0 + out.length) = b := by simp [srcBit]
  rw [bitsNumber, List.length_append, List.length_singleton, bitsValue_succ_last, hbit,
    bitsValue_append out [b] (Nat.le_refl _), bitsNumber]

/-- A run of equal bits. -/
theorem bitsNumber_append_replicate (out : List Bit) (k : Nat) (b : Bit) :
    bitsNumber (out ++ List.replicate k b) + b.toNat = (bitsNumber out + b.toNat) * 2 ^ k := by
  induction k with
  | zero => simp
  | succ k ih =>
    rw [List.replicate_succ', ← List.append_assoc, bitsNumber_append_singleton, Nat.pow_succ, ← Nat.mul_assoc, ← ih]
    omega

/-- A bit followed by a run of its complement, as `Emit` writes it (42_enc.md R153). -/
theorem bitsNumber_append_emitted (out : List Bit) (k : Nat) (b : Bit) :
    bitsNumber (out ++ b :: List.replicate k (!b)) + (!b).toNat = 2 ^ k * (2 * bitsNumber out + 1) := by
  have hbits : b.toNat + (!b).toNat = 1 := by cases b <;> rfl
  rw [List.append_cons, bitsNumber_append_replicate, bitsNumber_append_singleton, Nat.mul_comm, Nat.add_assoc, hbits]

/-- More bits of a source refine the number of the first ones. -/
theorem bitsValue_add_bounds (inp : List Bit) (n k pos : Nat) :
    bitsValue inp n pos * 2 ^ k ≤ bitsValue inp (n + k) pos ∧
      bitsValue inp (n + k) pos + 1 ≤ (bitsValue inp n pos + 1) * 2 ^ k := by
  induction k with
  | zero => simp
  | succ k ih =>
    have hbit := (srcBit inp (pos + (n + k))).toNat_le
    rw [← Nat.add_assoc, bitsValue_succ_last, Nat.pow_succ, ← Nat.mul_assoc, ← Nat.mul_assoc]
    omega

/-! ## The base of the interval -/

/-- What the encoder's interval lies above, as a number of `N + out.length + pend` bits: the emitted bits, and the
deferred ones as the run they will be. -/
def emittedBase (N : Nat) (out : List Bit) (pend : Nat) : Nat :=
  halfRange N * (2 ^ pend * (2 * bitsNumber out + 1) - 1)

/-- The source lies in the interval of an encoder with these bits and bounds. -/
def Inside (N : Nat) (inp out : List Bit) (pend low high : Nat) : Prop :=
  emittedBase N out pend + low ≤ bitsValue inp (N + (out.length + pend)) 0 ∧
    bitsValue inp (N + (out.length + pend)) 0 ≤ emittedBase N out pend + high

theorem emittedBase_emitted (N : Nat) (out : List Bit) (pend : Nat) (b : Bit) :
    emittedBase N (out ++ b :: List.replicate pend (!b)) 0 = 2 * (emittedBase N out pend + b.toNat * halfRange N) := by
  have hnumber := bitsNumber_append_emitted out pend b
  have hpos : 0 < 2 ^ pend * (2 * bitsNumber out + 1) := by positivity
  have hrun : bitsNumber (out ++ b :: List.replicate pend (!b)) =
      2 ^ pend * (2 * bitsNumber out + 1) - 1 + b.toNat := by
    cases b <;> simp only [Bool.not_false, Bool.not_true, Bool.toNat_false, Bool.toNat_true] at hnumber ⊢ <;> omega
  rw [emittedBase, emittedBase, hrun, Nat.pow_zero, Nat.one_mul, Nat.add_sub_cancel]
  ring

theorem emittedBase_deferred {N : Nat} (hN : 2 ≤ N) (out : List Bit) (pend : Nat) :
    emittedBase N out (pend + 1) = 2 * (emittedBase N out pend + quarterRange N) := by
  obtain ⟨x, hx⟩ : ∃ x, 2 ^ pend * (2 * bitsNumber out + 1) = x + 1 :=
    Nat.exists_eq_succ_of_ne_zero (by positivity)
  have hdouble : 2 ^ (pend + 1) * (2 * bitsNumber out + 1) - 1 = 2 * x + 1 := by
    rw [Nat.pow_succ, Nat.mul_right_comm, hx]
    omega
  rw [emittedBase, emittedBase, hdouble, hx, Nat.add_sub_cancel, half_eq_two_quarter hN]
  ring

/-- One iteration: one bit more is emitted or deferred, and the base is doubled with what the class subtracts. -/
theorem emittedBase_encodeBit {pmax N low high pend pend' : Nat} {out out' : List Bit}
    (hgo : renormClass N low high ≠ .S)
    (h : encodeBit pmax (renormClass N low high) (out, pend) = some (out', pend')) :
    out'.length + pend' = out.length + pend + 1 ∧
      emittedBase N out' pend' = 2 * (emittedBase N out pend + (renormClass N low high).sub N) := by
  rcases renormClass_cases N low high with ⟨hc, -⟩ | ⟨hc, -⟩ | ⟨hc, -, -, hU, hU'⟩ | ⟨hc, -⟩
  · rw [hc, encodeBit_Z] at h
    obtain ⟨rfl, rfl⟩ := Prod.mk.inj (Option.some.inj h)
    refine ⟨by simp [Nat.add_assoc], ?_⟩
    simpa [hc, RenormClass.sub] using emittedBase_emitted N out pend false
  · rw [hc, encodeBit_O] at h
    obtain ⟨rfl, rfl⟩ := Prod.mk.inj (Option.some.inj h)
    refine ⟨by simp [Nat.add_assoc], ?_⟩
    simpa [hc, RenormClass.sub] using emittedBase_emitted N out pend true
  · have hN : 2 ≤ N := by
      by_contra hnarrow
      rw [quarterRange, if_neg hnarrow] at hU'
      omega
    rw [hc, encodeBit_U, Option.ite_none_left_eq_some] at h
    obtain ⟨rfl, rfl⟩ := Prod.mk.inj (Option.some.inj h.2)
    rw [hc]
    exact ⟨(Nat.add_assoc _ _ _).symm, emittedBase_deferred hN out pend⟩
  · exact absurd hc hgo

/-! ## Over a whole run -/

/-- The encoder's bit actions over the classes `cs`, with what they emit put behind `out`. -/
def Emits (pmax : Nat) (cs : List RenormClass) (out : List Bit) (pend : Nat) (out' : List Bit) (pend' : Nat) : Prop :=
  cs.foldlM (fun acc c => encodeBit pmax c acc) (out, pend) = some (out', pend')

theorem emits_of_emission {pmax pend pend' : Nat} {cs : List RenormClass} {bits : List Bit} (out : List Bit)
    (h : emission pmax cs pend = some (bits, pend')) : Emits pmax cs out pend (out ++ bits) pend' := by
  rw [Emits, foldlM_encodeBit, h, Option.map_some]

theorem Emits.cons_inv {pmax pend pend' : Nat} {c : RenormClass} {cs : List RenormClass} {out out' : List Bit}
    (h : Emits pmax (c :: cs) out pend out' pend') :
    ∃ out₁ pend₁, encodeBit pmax c (out, pend) = some (out₁, pend₁) ∧ Emits pmax cs out₁ pend₁ out' pend' := by
  rw [Emits, List.foldlM_cons] at h
  obtain ⟨⟨out₁, pend₁⟩, hfirst, hrest⟩ := Option.bind_eq_some_iff.mp h
  exact ⟨out₁, pend₁, hfirst, hrest⟩

section run

variable {pmax N l h pend' : Nat} {out' : List Bit} (inp : List Bit) (hN : 1 ≤ N)

include hN

/-- A source in the interval at the end of a run was in it at the start: each iteration halves back. -/
theorem RenormTrace.inside {cs : List RenormClass} {low high pend : Nat} {out : List Bit}
    (htrace : RenormTrace N low high cs l h) (hle : low ≤ high) (hhigh : high < 2 ^ N)
    (hemits : Emits pmax cs out pend out' pend') (hinside : Inside N inp out' pend' l h) :
    Inside N inp out pend low high := by
  induction cs generalizing low high pend out with
  | nil =>
    obtain ⟨rfl, rfl⟩ := Prod.mk.inj (Option.some.inj hemits)
    cases htrace with
    | stop => exact hinside
  | cons c cs ih =>
    obtain ⟨rfl, hgo, rest⟩ := htrace.cons_inv
    obtain ⟨hlow, hhalf⟩ := renormClass_sub_bounds hN hle hhigh hgo
    have hfull := two_pow_eq_two_half hN
    obtain ⟨out₁, pend₁, hfirst, hrest⟩ := hemits.cons_inv
    obtain ⟨hlength, hbase⟩ := emittedBase_encodeBit hgo hfirst
    obtain ⟨hlower, hupper⟩ := ih rest (by omega) (by omega) hrest
    have hbit := (srcBit inp (0 + (N + (out.length + pend)))).toNat_le
    rw [hlength, ← Nat.add_assoc N, bitsValue_succ_last, hbase] at hlower hupper
    constructor <;> omega

/-- The decoder's window and the base add up to the number of the source bits taken, before a run and after it. -/
theorem RenormTrace.window_add_base {cs : List RenormClass} {low high code pend pos : Nat} {out : List Bit}
    (htrace : RenormTrace N low high cs l h) (hle : low ≤ high) (hhigh : high < 2 ^ N)
    (hemits : Emits pmax cs out pend out' pend') (hcode : low ≤ code)
    (hsync : code + emittedBase N out pend = bitsValue inp pos 0) :
    windowAfter N inp cs code pos + emittedBase N out' pend' = bitsValue inp (pos + cs.length) 0 := by
  induction cs generalizing low high code pend pos out with
  | nil =>
    obtain ⟨rfl, rfl⟩ := Prod.mk.inj (Option.some.inj hemits)
    exact hsync
  | cons c cs ih =>
    obtain ⟨rfl, hgo, rest⟩ := htrace.cons_inv
    obtain ⟨hlow, hhalf⟩ := renormClass_sub_bounds hN hle hhigh hgo
    have hfull := two_pow_eq_two_half hN
    obtain ⟨out₁, pend₁, hfirst, hrest⟩ := hemits.cons_inv
    obtain ⟨-, hbase⟩ := emittedBase_encodeBit hgo hfirst
    rw [windowAfter_cons, List.length_cons, Nat.add_comm cs.length, ← Nat.add_assoc]
    refine ih rest (by omega) (by omega) hrest (by omega) ?_
    rw [hbase, bitsValue_succ_last, Nat.zero_add]
    omega

end run

/-! ## The end of a message (42_enc.md R154) -/

/-- With the flush bit the two last bits of a message name a quarter of the range, which lies in the interval: the
second one for the bit 0, the third one for the bit 1. -/
theorem inside_of_quarter {N low high x m : Nat} (inp : List Bit) (hN : 2 ≤ N) {b : Bit}
    (hnumber : bitsValue inp (m + 2) 0 = 2 * x + 1 + b.toNat) (hlow : low < halfRange N)
    (hhigh : halfRange N ≤ high) (hb : (b = false ∧ low < quarterRange N) ∨ (b = true ∧ 3 * quarterRange N ≤ high)) :
    halfRange N * x + low ≤ bitsValue inp (N + m) 0 ∧ bitsValue inp (N + m) 0 ≤ halfRange N * x + high := by
  obtain ⟨k, rfl⟩ : ∃ k, N = k + 2 := ⟨N - 2, by omega⟩
  have hquarter : quarterRange (k + 2) = 2 ^ k := by simp [quarterRange]
  obtain ⟨hlower, hupper⟩ := bitsValue_add_bounds inp (m + 2) k 0
  rw [half_eq_two_quarter hN, hquarter] at hlow hhigh ⊢
  rw [hquarter] at hb
  rw [hnumber, Nat.add_mul, Nat.add_mul, Nat.mul_assoc, Nat.mul_comm x] at hlower
  rw [hnumber, Nat.add_mul, Nat.add_mul, Nat.add_mul, Nat.mul_assoc, Nat.mul_comm x] at hupper
  rw [show k + 2 + m = m + 2 + k by omega, Nat.mul_assoc]
  rcases hb with ⟨rfl, hb⟩ | ⟨rfl, hb⟩
  · rw [Bool.toNat_false] at hlower hupper
    omega
  · rw [Bool.toNat_true] at hlower hupper
    omega

/-- Width 1 has no quarters: its interval is the whole range, and the bits of ENC.FINISH are 1 and 0. -/
theorem inside_of_widthOne {low high x m : Nat} (inp : List Bit) (hnumber : bitsValue inp (m + 2) 0 = 2 * x + 2)
    (hlow : low < halfRange 1) (hhigh : halfRange 1 ≤ high) :
    halfRange 1 * x + low ≤ bitsValue inp (1 + m) 0 ∧ bitsValue inp (1 + m) 0 ≤ halfRange 1 * x + high := by
  have hbit := (srcBit inp (0 + (m + 1))).toNat_le
  have hhalf : halfRange 1 = 1 := rfl
  rw [show m + 2 = m + 1 + 1 by omega, bitsValue_succ_last] at hnumber
  rw [hhalf] at hlow hhigh ⊢
  rw [Nat.add_comm 1 m, Nat.one_mul]
  omega

/-- Whatever follows the message, the source is in the interval that ENC.FINISH flushed. -/
theorem inside_of_finish {N low high pend : Nat} {out : List Bit} {b : Bit} (tail : List Bit) (hN : 1 ≤ N)
    (hlow : low < halfRange N) (hhigh : halfRange N ≤ high) (hstop : low < quarterRange N ∨ 3 * quarterRange N ≤ high)
    (hb : b = decide (¬ low < quarterRange N)) :
    Inside N (out ++ b :: List.replicate (pend + 1) (!b) ++ tail) out pend low high := by
  obtain ⟨x, hx⟩ : ∃ x, 2 ^ pend * (2 * bitsNumber out + 1) = x + 1 :=
    Nat.exists_eq_succ_of_ne_zero (by positivity)
  have hnumber : bitsValue (out ++ b :: List.replicate (pend + 1) (!b) ++ tail) (out.length + pend + 2) 0 =
      2 * x + 1 + b.toNat := by
    have hlength : (out ++ b :: List.replicate (pend + 1) (!b)).length = out.length + pend + 2 := by
      simp only [List.length_append, List.length_cons, List.length_replicate]
      omega
    have hemitted := bitsNumber_append_emitted out (pend + 1) b
    rw [Nat.pow_succ, Nat.mul_right_comm, hx, bitsNumber, hlength] at hemitted
    rw [bitsValue_append _ _ hlength.ge]
    cases b <;> simp only [Bool.not_false, Bool.not_true, Bool.toNat_false, Bool.toNat_true] at hemitted ⊢ <;> omega
  rw [Inside, emittedBase, hx, Nat.add_sub_cancel]
  by_cases hwide : 2 ≤ N
  · refine inside_of_quarter _ hwide hnumber hlow hhigh ?_
    by_cases hquarter : low < quarterRange N
    · exact .inl ⟨by simpa [hquarter] using hb, hquarter⟩
    · exact .inr ⟨by simpa [hquarter] using hb, hstop.resolve_left hquarter⟩
  · obtain rfl : N = 1 := by omega
    obtain rfl : b = true := hb.trans (decide_eq_true (Nat.not_lt_zero _))
    exact inside_of_widthOne _ hnumber hlow hhigh

end Sys2Proof.Machine
end

section
/-! PROOFS. The round trip (45_properties.md R194, R201, R204): while the encoder goes through the symbols, a decoder on
its finished message keeps the same bounds, with a code that is what the source has above the encoder's base. -/

namespace Sys2Proof.Machine

/-! ## Sequences that end with FAULT = 0 -/

theorem execAll_cons_inv {i : Instr} {is : List Instr} {s t : State} (h : execAll (i :: is) s = .next t) :
    ∃ u, exec i s = .next u ∧ execAll is u = .next t := by
  cases hexec : exec i s with
  | next u => exact ⟨u, rfl, execAll_cons hexec ▸ h⟩
  | fault r =>
    rw [execAll, hexec] at h
    cases h
  | refused r =>
    rw [execAll, hexec] at h
    cases h

theorem execAll_append_inv {is js : List Instr} {s t : State} (h : execAll (is ++ js) s = .next t) :
    ∃ u, execAll is s = .next u ∧ execAll js u = .next t := by
  induction is generalizing s with
  | nil => exact ⟨s, rfl, h⟩
  | cons i is ih =>
    obtain ⟨u, hexec, hrest⟩ := execAll_cons_inv h
    obtain ⟨v, his, hjs⟩ := ih hrest
    exact ⟨v, (execAll_cons hexec).trans his, hjs⟩

/-- A fault is kept until a reset (60_exceptions.md R230). -/
theorem running_of_execAll {is : List Instr} {s t : State} (hreset : .sysReset ∉ is)
    (h : execAll is s = .next t) (hrun : t.flt.fault = false) : s.flt.fault = false := by
  induction is generalizing s with
  | nil =>
    obtain rfl := Host.Outcome.next.inj h
    exact hrun
  | cons i is ih =>
    rw [List.mem_cons, not_or] at hreset
    obtain ⟨u, hexec, hrest⟩ := execAll_cons_inv h
    have hu := ih hreset.2 hrest
    by_contra hfault
    have hkept := (hexec ▸ exec_keepsOrRaises (Ne.symm hreset.1) s).flt_eq_of_faulted (by simpa using hfault)
    exact hfault (hkept ▸ hu)

/-- A command that ends with FAULT = 0 is accepted. -/
theorem effect_of_running {i : Instr} {s t : State} (hexec : exec i s = .next t) (hrun : t.flt.fault = false) :
    ∃ v u, Effect s i v u ∧ t = respond .ok v u := by
  cases exec_eq_next_iff.mp hexec with
  | accepted h => exact ⟨_, _, h, rfl⟩
  | refused | overflowed => cases hrun
  | faulted hfault => exact nomatch hrun.symm.trans hfault

theorem execAll_keeps_inv {is : List Instr} {s t : State} (hinv : s.Inv) (h : execAll is s = .next t) : t.Inv := by
  induction is generalizing s with
  | nil =>
    obtain rfl := Host.Outcome.next.inj h
    exact hinv
  | cons i is ih =>
    obtain ⟨u, hexec, hrest⟩ := execAll_cons_inv h
    exact ih (exec_keeps_inv hinv hexec) hrest

/-! ## Building the table, the same for both -/

/-- The commands of FM.BUILD (30_encoding.md R101). -/
def BuildCommand (i : Instr) : Prop := i = .fmClear ∨ (∃ c, i = .fmPush c) ∨ i = .fmSeal

theorem buildCommand_of_mem_fmBuild {counts : List Word32} : ∀ i ∈ fmBuild counts, BuildCommand i := by
  intro i hi
  rw [fmBuild, List.mem_cons, List.mem_append, List.mem_map, List.mem_singleton] at hi
  rcases hi with rfl | ⟨c, -, rfl⟩ | rfl
  · exact .inl rfl
  · exact .inr (.inl ⟨c, rfl⟩)
  · exact .inr (.inr rfl)

/-- The state with another source, at the same position. -/
def withSource (bits : List Bit) (s : State) : State := { s with inp := bits }

theorem Effect.build {s u : State} {i : Instr} {v : Word32} (hbuild : BuildCommand i) (h : Effect s i v u) :
    v = 0#32 ∧ u.out = s.out ∧ u.inPos = s.inPos ∧
      ∀ bits, Effect (withSource bits s) i v (withSource bits u) := by
  cases h with
  | fmClear hf => exact ⟨rfl, rfl, rfl, fun _ => .fmClear hf⟩
  | fmPush hf hphase hroom hfits => exact ⟨rfl, rfl, rfl, fun _ => .fmPush hf hphase hroom hfits⟩
  | fmSeal hf hphase hpos => exact ⟨rfl, rfl, rfl, fun _ => .fmSeal hf hphase hpos⟩
  | _ => simp [BuildCommand] at hbuild

/-- A build that ends with FAULT = 0 answers OK to every command, moves no stream and does not look at the source. -/
theorem execAll_build {is : List Instr} {s t : State} (hbuild : ∀ i ∈ is, BuildCommand i)
    (h : execAll is s = .next t) (hrun : t.flt.fault = false) :
    t.out = s.out ∧ t.inPos = s.inPos ∧ t.rsps = s.rsps ++ List.replicate is.length 0#64 ∧
      ∀ bits, execAll is (withSource bits s) = .next (withSource bits t) := by
  induction is generalizing s with
  | nil =>
    obtain rfl := Host.Outcome.next.inj h
    exact ⟨rfl, rfl, (List.append_nil _).symm, fun _ => rfl⟩
  | cons i is ih =>
    obtain ⟨hi, his⟩ := List.forall_mem_cons.mp hbuild
    obtain ⟨u, hexec, hrest⟩ := execAll_cons_inv h
    have hreset : .sysReset ∉ is := fun hmem => by simpa [BuildCommand] using his _ hmem
    obtain ⟨v, u, heffect, rfl⟩ := effect_of_running hexec (running_of_execAll hreset hrest hrun)
    obtain ⟨rfl, hout, hpos, hsource⟩ := heffect.build hi
    obtain ⟨-, -, hrsps, -⟩ := heffect.frame
    obtain ⟨hout', hpos', hrsps', hsource'⟩ := ih his hrest
    refine ⟨hout'.trans hout, hpos'.trans hpos, ?responses, fun bits => ?source⟩
    case responses =>
      rw [hrsps', respond_rsps, hrsps, List.append_assoc, List.length_cons, List.replicate_succ]
      rfl
    case source => exact (execAll_cons (hsource bits).exec_eq).trans (hsource' bits)

/-! ## Lockstep -/

/-- The slice whose narrowed interval holds the code holds the scaled value (43_dec.md R168). -/
theorem scaledValue_mem_slice {low high code symlow symhigh total : Nat} (hpos : 0 < total)
    (hslice : symlow < symhigh) (htotal : total ≤ high - low + 1)
    (hle : (narrow low high symlow symhigh total).1 ≤ code)
    (hge : code ≤ (narrow low high symlow symhigh total).2) :
    symlow ≤ scaledValue low high code total ∧ scaledValue low high code total < symhigh := by
  have hupper : 0 < (high - low + 1) * symhigh / total :=
    Nat.div_pos (htotal.trans (Nat.le_mul_of_pos_right _ (by omega))) hpos
  simp only [narrow] at hle hge
  have hbelow : (high - low + 1) * symlow < (code - low + 1) * total :=
    (Nat.div_lt_iff_lt_mul hpos).mp (by omega)
  have habove : (code - low + 1) * total ≤ (high - low + 1) * symhigh :=
    (Nat.le_div_iff_mul_le hpos).mp (by omega)
  simp only [scaledValue, Nat.le_div_iff_mul_le (Nat.succ_pos _), Nat.div_lt_iff_lt_mul (Nat.succ_pos _),
    Nat.mul_comm _ (high - low + 1)]
  omega

/-- The search answers the symbol whose slice holds the value (40_fm.md R119). -/
theorem FmuInv.findSymbol_eq {p : Params} {f : Fmu} (hinv : FmuInv p f) {i value : Nat} {a b : Word32}
    (hi : i < f.nsym.toNat) (ha : memRead f.cum i = some a) (hb : memRead f.cum (i + 1) = some b)
    (hlow : a.toNat ≤ value) (hhigh : value < b.toNat) : findSymbol f.cum f.nsym.toNat value = some i := by
  obtain ⟨sym, a', b', hfind, hsym, ha', hb', hlow', hhigh'⟩ :=
    hinv.findSymbol_slice (hhigh.trans_le (hinv.cum_le_total hi hb))
  rw [hfind, hinv.slice_unique hi ha hb hsym ha' hb' hlow hhigh hlow' hhigh']

/-- The decoder `d` is where the encoder `s` was at this symbol: same table and bounds, and its code is what the bits
taken have above the encoder's base (45_properties.md R194). -/
structure Lockstep (s d : State) : Prop where
  params : d.params = s.params
  fmu : d.fmu = s.fmu
  running : d.flt.fault = false
  phase : d.dec.phase = .active
  nbits : d.dec.nbits = s.enc.nbits
  low : d.dec.low = s.enc.low
  high : d.dec.high = s.enc.high
  pos : d.inPos = s.enc.nbits.toNat + (s.out.length + s.enc.pend.toNat)
  code : d.dec.code.toNat + emittedBase s.enc.nbits.toNat s.out s.enc.pend.toNat = bitsValue d.inp d.inPos 0

/-- The source lies in the interval of the encoder `s`. -/
def InsideEnc (inp : List Bit) (s : State) : Prop :=
  Inside s.enc.nbits.toNat inp s.out s.enc.pend.toNat s.enc.low.toNat s.enc.high.toNat

section write

variable {s : State} {a symlow symhigh : Word32} {low high pend : Nat} {bits : List Bit} {cs : List RenormClass}
  (hinv : s.Inv)
  (hrun : RenormRun s.enc.nbits.toNat s.enc.nbits.toNat (encStart s symlow symhigh).1 (encStart s symlow symhigh).2
    cs low high)
  (hemit : emission s.params.pmax cs s.enc.pend.toNat = some (bits, pend))

include hinv hrun hemit

/-- What ENC.WRITE commits, as numbers. -/
theorem commitWrite_toNat : (commitWrite low high pend bits s).enc.low.toNat = low ∧
    (commitWrite low high pend bits s).enc.high.toNat = high ∧
    (commitWrite low high pend bits s).enc.pend.toNat = pend := by
  obtain ⟨hlow, hhigh⟩ := hrun.regOf_bounds hinv.params hinv.enc.nbitsLegal
  obtain ⟨-, -, -, -, -, hpbw⟩ := (Params.legal_iff _).mp hinv.params
  exact ⟨hlow, hhigh, regOf_toNat hpbw
    (Nat.lt_of_le_sub_one (Nat.two_pow_pos _) (emission_pend_le hinv.enc.pendWidth hemit))⟩

variable (h : WritesSlice s a symlow symhigh)

include h

/-- A source in the interval after ENC.WRITE was in the interval it narrowed to. -/
theorem inside_encStart_of_written {inp : List Bit} (hinside : InsideEnc inp (commitWrite low high pend bits s)) :
    Inside s.enc.nbits.toNat inp s.out s.enc.pend.toNat (encStart s symlow symhigh).1
      (encStart s symlow symhigh).2 := by
  obtain ⟨hslice, hsym⟩ := h.slice hinv
  obtain ⟨hone, hinterval⟩ := h.session hinv
  obtain ⟨hle, hhigh, -⟩ := hinterval.narrow_bounds hslice hsym
  obtain ⟨hlowReg, hhighReg, hpendReg⟩ := commitWrite_toNat hinv hrun hemit
  rw [InsideEnc, hlowReg, hhighReg, hpendReg] at hinside
  exact hrun.trace.inside inp hone hle hhigh (emits_of_emission s.out hemit) hinside

/-- A source in the interval after ENC.WRITE was in the interval before it. -/
theorem insideEnc_of_written {inp : List Bit} (hinside : InsideEnc inp (commitWrite low high pend bits s)) :
    InsideEnc inp s := by
  obtain ⟨hlower, hupper⟩ := inside_encStart_of_written hinv hrun hemit h hinside
  obtain ⟨hslice, hsym⟩ := h.slice hinv
  obtain ⟨-, hinterval⟩ := h.session hinv
  obtain ⟨hlow, -, hhigh⟩ := narrowStaysInsideTheInterval _ _ _ _ _ hinterval.low_le_high.1 (by omega) hslice hsym
    (hinterval.totalFits.trans hinterval.rangeWide)
  exact ⟨(Nat.add_le_add_left hlow _).trans hlower, hupper.trans (Nat.add_le_add_left hhigh _)⟩

variable {d : State} (hlock : Lockstep s d) (hinside : InsideEnc d.inp (commitWrite low high pend bits s))

include hlock hinside

/-- The code lies in the interval the encoder narrowed to. -/
theorem Lockstep.code_mem_encStart : (encStart s symlow symhigh).1 ≤ d.dec.code.toNat ∧
    d.dec.code.toNat ≤ (encStart s symlow symhigh).2 := by
  obtain ⟨hlower, hupper⟩ := inside_encStart_of_written hinv hrun hemit h hinside
  have hcode := hlock.code
  rw [hlock.pos] at hcode
  omega

/-- So the decoder finds the symbol the encoder wrote. -/
theorem Lockstep.readsSlice : ReadsSlice d a.toNat symlow symhigh := by
  obtain ⟨hle, hge⟩ := hlock.code_mem_encStart hinv hrun hemit h hinside
  obtain ⟨hslice, hsym⟩ := h.slice hinv
  obtain ⟨-, hinterval⟩ := h.session hinv
  obtain ⟨hvalue, hvalue'⟩ := scaledValue_mem_slice (by omega) hslice
    (hinterval.totalFits.trans hinterval.rangeWide) hle hge
  refine ⟨hlock.running, hlock.phase, ?_, hlock.fmu ▸ h.low, hlock.fmu ▸ h.high⟩
  rw [decValue, hlock.fmu, hlock.low, hlock.high]
  exact hinv.fmu.findSymbol_eq h.range h.low h.high hvalue hvalue'

/-- The decoder reads the symbol the encoder wrote, and both go on in lockstep. -/
theorem Lockstep.read : ∃ u, Effect d .decRead a u ∧ u.inp = d.inp ∧ Lockstep (commitWrite low high pend bits s) u := by
  obtain ⟨hle, hge⟩ := hlock.code_mem_encStart hinv hrun hemit h hinside
  obtain ⟨hslice, hsym⟩ := h.slice hinv
  obtain ⟨hone, hinterval⟩ := h.session hinv
  obtain ⟨hstart, hhigh, -⟩ := hinterval.narrow_bounds hslice hsym
  obtain ⟨hbits, -, hwindow⟩ := hrun.trace.foldlM_decodeBit d.inp d.inPos hone hle hge hhigh
  have hsync := hrun.trace.window_add_base d.inp hone hstart hhigh (emits_of_emission s.out hemit) hle hlock.code
  have hlength := emission_length hrun.trace.S_not_mem hemit
  obtain ⟨-, -, hpendReg⟩ := commitWrite_toNat hinv hrun hemit
  obtain ⟨-, hnmax, -, -, -, -⟩ := (Params.legal_iff _).mp hinv.params
  have hcodeReg : (regOf d.params.nmax (windowAfter s.enc.nbits.toNat d.inp cs d.dec.code.toNat d.inPos)).toNat =
      windowAfter s.enc.nbits.toNat d.inp cs d.dec.code.toNat d.inPos := by
    rw [hlock.params]
    exact regOf_toNat hnmax
      ((hwindow.trans_lt hrun.high_lt).trans_le (Nat.pow_le_pow_right (by decide) hinv.enc.nbitsLegal))
  have hloop : decLoop d symlow symhigh = .stop low high
      (windowAfter s.enc.nbits.toNat d.inp cs d.dec.code.toNat d.inPos, d.inPos + cs.length) := by
    rw [decLoop, hlock.nbits, hlock.low, hlock.high, hlock.fmu]
    exact (hrun.loop _ _).trans (congrArg (LoopEnd.ofActions low high) hbits)
  have heffect := Effect.decRead (hlock.readsSlice hinv hrun hemit h hinside) hloop
  rw [BitVec.ofNat_toNat, BitVec.setWidth_eq] at heffect
  refine ⟨_, heffect, rfl, ?_⟩
  constructor
  case params => exact hlock.params
  case fmu => exact hlock.fmu
  case running => exact hlock.running
  case phase => exact hlock.phase
  case nbits => exact hlock.nbits
  case low => simp only [commitRead_dec, commitWrite_enc, hlock.params]
  case high => simp only [commitRead_dec, commitWrite_enc, hlock.params]
  case pos =>
    rw [hpendReg, commitRead_inPos, commitWrite_out, List.length_append, hlock.pos]
    change _ = s.enc.nbits.toNat + _
    omega
  case code =>
    rw [hpendReg, commitRead_dec, hcodeReg]
    exact hsync

end write

/-- Responses play no part in it. -/
theorem Lockstep.respond {s d : State} (hlock : Lockstep s d) (v : Word32) (rsps : List Word64) :
    Lockstep (respond .ok v s) { d with rsps := rsps } :=
  ⟨hlock.params, hlock.fmu, hlock.running, hlock.phase, hlock.nbits, hlock.low, hlock.high, hlock.pos, hlock.code⟩

/-- The whole of a message and of its decoding. The source is in the encoder's interval because it is in the one at the
end, so every read answers the symbol written. -/
theorem execAll_decGet {s e : State} {syms : List Word32} (tail : List Bit) (hinv : s.Inv)
    (hexec : execAll (encPut syms ++ [.encFinish]) s = .next e) (hrun : e.flt.fault = false) :
    InsideEnc (e.out ++ tail) s ∧
    ∀ d, Lockstep s d → d.inp = e.out ++ tail → ∃ d', execAll (decGet syms.length) d = .next d' ∧
      d'.flt.fault = false ∧ d'.rsps = d.rsps ++ syms.map okWord ∧
      d'.dec.low = e.enc.low ∧ d'.dec.high = e.enc.high ∧ d'.inPos + 2 = s.enc.nbits.toNat + e.out.length := by
  induction syms generalizing s with
  | nil =>
    have hfinish : exec .encFinish s = .next e := (execAll_singleton _ _).symm.trans hexec
    obtain ⟨v, u, heffect, rfl⟩ := effect_of_running hfinish hrun
    cases heffect with
    | encFinish hf hphase hroom hb =>
      obtain ⟨-, hone, hinterval⟩ := hinv.enc.session (hphase ▸ nofun)
      refine ⟨inside_of_finish tail hone hinterval.lowBelowHalf hinterval.halfBelowHigh hinterval.notUnderflow hb,
        fun d hlock hinp => ⟨d, rfl, hlock.running, (List.append_nil _).symm, hlock.low, hlock.high, ?_⟩⟩
      rw [hlock.pos, respond_out, sinkPut_out]
      simp only [List.length_append, List.length_cons, List.length_replicate]
      omega
  | cons a syms ih =>
    obtain ⟨t, hwrite, hrest⟩ := execAll_cons_inv hexec
    have hreset : .sysReset ∉ encPut syms ++ [.encFinish] := by simp [encPut]
    obtain ⟨v, u, heffect, rfl⟩ := effect_of_running hwrite (running_of_execAll hreset hrest hrun)
    cases heffect with
    | encWrite h hloop =>
      obtain ⟨cs, hrenorm, hemit⟩ := h.run_of_stop hinv hloop
      obtain ⟨hinside, hdecode⟩ := ih (exec_keeps_inv hinv hwrite) hrest
      refine ⟨insideEnc_of_written hinv hrenorm hemit h hinside, fun d hlock hinp => ?_⟩
      obtain ⟨u, hread, hinp', hlock'⟩ := hlock.read hinv hrenorm hemit h (hinp ▸ hinside)
      obtain ⟨-, -, hrsps, -⟩ := hread.frame
      obtain ⟨d', hget, hrunning, hrsps', hbounds⟩ :=
        hdecode (respond .ok a u) (hlock'.respond 0#32 _) (hinp'.trans hinp)
      refine ⟨d', (execAll_cons hread.exec_eq).trans hget, hrunning, ?_, hbounds⟩
      rw [hrsps', respond_rsps, hrsps, responseWord_ok, List.map_cons, List.append_assoc, List.singleton_append]

/-! ## The obligation -/

/-- A session starts in lockstep: nothing is emitted, and the code is the first bits of the source. -/
theorem Lockstep.started {s : State} {n : Word32} (bits : List Bit) (hlegal : s.params.legal = true)
    (h : Startable s n) (hout : s.out = []) (hpos : s.inPos = 0) :
    Lockstep { s with enc := Enc.started s.params n }
      { withSource bits s with
        dec := Dec.started s.params n (bitsValue bits n.toNat s.inPos)
        inPos := s.inPos + n.toNat } where
  params := rfl
  fmu := rfl
  running := h.running
  phase := rfl
  nbits := rfl
  low := rfl
  high := rfl
  pos := by
    rw [Enc.started_nbits_toNat hlegal h.le_nmax, hout, hpos, Nat.zero_add]
    rfl
  code := by
    rw [Dec.started_code_toNat hlegal h.le_nmax (bitsValue_lt _ _ _), hout, hpos, Nat.zero_add]
    rfl

/-- Settles O52: both sessions build the same table and start in lockstep, which every symbol keeps. -/
theorem messagesDecodeToTheirSymbols : Obligations.MessagesDecodeToTheirSymbols := by
  intro p counts syms n tail e hlegal hexec hrun
  obtain ⟨t, hbuild, hmsg⟩ := execAll_append_inv hexec
  obtain ⟨t₁, hinit, hput⟩ := execAll_cons_inv hmsg
  have hreset : .sysReset ∉ encPut syms ++ [.encFinish] := by simp [encPut]
  obtain ⟨v, u, heffect, rfl⟩ := effect_of_running hinit (running_of_execAll hreset hput hrun)
  cases heffect with
  | encInit h =>
    have hinv : t.Inv := execAll_keeps_inv (State.Inv.resetWith hlegal) hbuild
    obtain ⟨hout, hpos, hrsps, hsource⟩ := execAll_build buildCommand_of_mem_fmBuild hbuild h.running
    obtain ⟨-, hdecode⟩ := execAll_decGet tail (exec_keeps_inv hinv hinit) hput hrun
    have hstart : Startable (withSource (e.out ++ tail) t) n :=
      ⟨h.running, h.one_le, h.le_nmax, h.phase, h.fits⟩
    have hlock := Lockstep.started (e.out ++ tail) hinv.params h hout hpos
    obtain ⟨d, hget, hrunning, hrsps', hlow, hhigh, hend⟩ := hdecode _ (hlock.respond 0#32 (t.rsps ++ [0#64])) rfl
    refine ⟨d, (execAll_append (hsource (e.out ++ tail))).trans
      ((execAll_cons (exec_decInit_ok hstart)).trans hget), hrunning, ?responses, hlow, hhigh, ?position⟩
    case responses =>
      have hlength : (fmBuild counts).length = counts.length + 2 := by simp [fmBuild]
      rw [hrsps', hrsps, hlength, resetWith_rsps, List.nil_append, ← List.replicate_succ']
    case position => exact hend.trans (congrArg (· + _) (Enc.started_nbits_toNat hinv.params h.le_nmax))

end Sys2Proof.Machine
end
